-- ==== Sys2Proof/Word.lean ====
section
/-! DEFINITION. The values the block moves: bytes and 16-bit values (spec 00_scope R7), and the two rings' names (R10). -/

namespace Sys2Proof

/-- A byte: 8 bits, unsigned (R7). -/
abbrev Byte := BitVec 8

/-- A `u16`: 16 bits, unsigned (R7). -/
abbrev Half := BitVec 16

/-- The ring operand `b` of an operation: the inbound ring `IN` or the outbound ring `OUT` (R10, R63). -/
inductive RingSel where
  | inbound
  | outbound
  deriving DecidableEq, Repr

end Sys2Proof
end

