-- ==== Sys2Proof/Syntax.lean ====
section
/-! DEFINITION. The operations of the block: one constructor per row of spec/opcode_table.json. -/

namespace Sys2Proof

/-- One row of the opcode table each, with its operands as values (30_encoding R61, R70, R50, R57). -/
inductive Instr where
  -- ring buffer (40_ringbuffer)
  | rbInit (b : RingSel)
  | rbPut (b : RingSel) (v : Byte)
  | rbGet (b : RingSel)
  | rbPeek (b : RingSel) (off : Half)
  | rbCount (b : RingSel)
  | rbFree (b : RingSel)
  | rbClear (b : RingSel)
  -- checksum (41_crc16)
  | crc16 (data : List Byte)
  -- packet codec (42_packet_codec)
  | pkBuild (cap : Half) (msg : List Byte)
  | pkLocate (b : RingSel) (cap : Half)
  | pkVerify (pkt : List Byte)
  | pkExtractMsg (cap : Half) (pkt : List Byte)
  -- handshake, reply path, protocol cycle, injection (43_handshake_and_link)
  | hsOnMessage (msg : List Byte)
  | hsSend (r : Byte)
  | poll
  | inject (data : List Byte)
  -- a reserved command byte `c` and whatever bytes came with it (R64)
  | reservedCommand (c : Byte) (rest : List Byte)
  -- pseudo-operations (R70)
  | rxPut (v : Byte)
  | txGet
  | isEmpty (b : RingSel)
  | isFull (b : RingSel)
  -- wire encodings (R50, R6): a frame with its declared length, payload and checksum fields; the three markers
  | frame (len : Half) (msg : List Byte) (crc : Half)
  | soh
  | stx
  | etx
  -- token payloads (R57, R141)
  | tokenMarco
  | tokenPolo
  | tokenOk
  | tokenError
  | tokenUnknown (msg : List Byte)
  deriving DecidableEq, Repr

/-- The tokens of the handshake vocabulary, and `unknown` for any other payload (R57). -/
inductive Token where
  | unknown
  | marco
  | polo
  | ok
  | error
  deriving DecidableEq, Repr

end Sys2Proof
end

