-- ==== Sys2Proof/Config.lean ====
section
/-! DEFINITION. What one instance of the block fixes at elaboration (00_scope R5), and the free values of its storage
(93_implementation_defined U1). -/

namespace Sys2Proof

/-- The elaboration parameters of one instance (R5). The proofs carried beside them are the legal ranges, so that an illegal
configuration cannot be built: "a model refuses to build such an instance" (R5, R198, R207). Log 1, log 2. -/
structure Config where
  /-- `IN_SIZE`, the number of storage slots of ring `IN`. -/
  inSize : Nat
  /-- `OUT_SIZE`, the number of storage slots of ring `OUT`. -/
  outSize : Nat
  /-- `PKT_MAX`, the capacity of the packet buffer `POLL` uses. -/
  pktMax : Nat
  /-- `TOKEN_NUL`: every token carries one trailing `0x00` byte (R58). -/
  tokenNul : Bool
  inSize_pos : 1 ≤ inSize := by decide
  inSize_le : inSize ≤ 65536 := by decide
  outSize_pos : 1 ≤ outSize := by decide
  outSize_le : outSize ≤ 65536 := by decide
  pktMax_ge : 13 ≤ pktMax := by decide
  pktMax_le : pktMax ≤ 65535 := by decide
  deriving DecidableEq, Repr

/-- Building an instance from raw parameters; refused exactly for `SIZE = 0` (or beyond 65536), `PKT_MAX < 13` or
`PKT_MAX > 65535` (R5, R198, R207). -/
def Config.make (inSize outSize pktMax : Nat) (tokenNul : Bool) : Option Config :=
  if h : (1 ≤ inSize ∧ inSize ≤ 65536) ∧ (1 ≤ outSize ∧ outSize ≤ 65536) ∧ 13 ≤ pktMax ∧ pktMax ≤ 65535 then
    some ⟨inSize, outSize, pktMax, tokenNul, h.1.1, h.1.2, h.2.1.1, h.2.1.2, h.2.2.1, h.2.2.2⟩
  else none

/-- The reference configuration of 92_eei_decisions D25; `PKT_MAX` and `TOKEN_NUL` are R5's defaults. Log 1. -/
def Config.reference : Config := { inSize := 64, outSize := 64, pktMax := 64, tokenNul := false }

/-- `b.SIZE` (R5, R7). -/
def Config.size (c : Config) : RingSel → Nat
  | .inbound => c.inSize
  | .outbound => c.outSize

/-- `MSG_MAX`, "fixed to `PKT_MAX - 6`" (R5). -/
def Config.msgMax (c : Config) : Nat := c.pktMax - 6

/-- `IDXW = max(1, ceil(log2 SIZE))`, the width of a cursor of a ring of `size` slots (R10). -/
def Config.idxWidth (size : Nat) : Nat := if size ≤ 2 then 1 else Nat.log2 (size - 1) + 1

/-- FREE VALUE: what storage slot `i` of ring `b` holds after the `n`-th reset while nothing has been written to it since:
"unspecified (any byte; a model must not assume zero)" (10_state R23, 93 U1). No body, so nothing can be proved of it. Log 3. -/
opaque Config.unwrittenSlot (n : Nat) (b : RingSel) (i : Nat) : Byte

end Sys2Proof
end

