-- ==== Sys2Proof/Machine/State.lean ====
section
/-! DEFINITION. The state of one instance of the block (10_state R10), what stands at its ports, and its value after reset
(R23). Plain data. -/

namespace Sys2Proof.Machine

/-- Ring storage: the slots written since reset with their bytes, slots strictly rising (20_memory R30). A slot that is not
listed has no written byte. -/
abbrev Memory := List Host.Cell

/-- The registers and the storage of one ring (10_state R10 to R14). -/
structure Ring where
  /-- index of the next byte to read (R11) -/
  head : Nat
  /-- index of the next slot to write (R12) -/
  tail : Nat
  /-- initialised since the last reset (R13) -/
  ready : Bool
  /-- the storage slots (R14) -/
  mem : Memory
  deriving DecidableEq, Repr

/-- Who performs an operation (20_memory R39). -/
inductive Agent where
  | rx
  | eng
  | tx
  | inj
  deriving DecidableEq, Repr

/-- Result codes (30_encoding R66). -/
inductive Code where
  | ok
  | incomplete
  | malformed
  | overflow
  | badarg
  | full
  | empty
  | sendFailed
  | verifyFail
  | busy
  deriving DecidableEq, Repr

/-- The first failing check of PK_VERIFY (30_encoding R67). -/
inductive Reason where
  | lenShort
  | badSoh
  | badStx
  | badEtx
  | lenMismatch
  | badCrc
  deriving DecidableEq, Repr

/-- A response of the command port: result code and payload bytes (30_encoding R65). -/
structure Response where
  code : Code
  payload : List Byte
  deriving DecidableEq, Repr

/-- What the block answers at a port (30_encoding R60). Log 6. -/
inductive Output where
  /-- a response on the command port (R65) -/
  | response (r : Response)
  /-- the RX port's bit: byte accepted, or dropped (R150) -/
  | rx (accepted : Bool)
  /-- the TX port's valid bit and byte (R151): a byte, or no byte -/
  | tx (v : Option Byte)
  /-- the level of a status output (R18, R94) -/
  | status (level : Bool)
  deriving DecidableEq, Repr

/-- What the environment presents at a port (30_encoding R60, 70 R195). Log 5. -/
inductive Input where
  /-- a byte string on the command port (R61) -/
  | command (who : Agent) (bytes : List Byte)
  /-- an operation handed over as such, its byte encoding ignored (30_encoding, opening): RX and TX port transfers, readings of
  status outputs, units arriving on the wire, and any operation of the command port -/
  | issue (who : Agent) (i : Instr)
  /-- the reset input (R195) -/
  | reset
  deriving DecidableEq, Repr

/-- The state of one instance. `cfg`: its parameters (00_scope R5). `inRing`, `outRing`: the whole architectural state (R10).
`resets`, `inputs`, `outputs`: the model's own fields (log 4, 5, 6). -/
structure State where
  cfg : Config
  inRing : Ring
  outRing : Ring
  resets : Nat
  inputs : List Input
  outputs : List Output
  deriving DecidableEq, Repr

/-- Why the machine stops with a fault: never. "A failure never transfers control, never saves state, never changes a mode and
never stops the block" (60_exceptions R170, R182), so there is no constructor; nothing raises one. Safe. -/
inductive Fault where
  deriving DecidableEq, Repr

/-- Why the model gives an instruction no meaning. -/
inductive Refusal where
  /-- raised by an arm of `exec` whose instruction has no meaning yet; no arm is left so. Safe. -/
  | notModelled (mnemonic : String)
  deriving DecidableEq, Repr

/-- A ring after reset: not ready, cursors 0, storage unspecified (R23). -/
def Ring.reset : Ring := { head := 0, tail := 0, ready := false, mem := [] }

/-- An instance with parameters `c` right after its first reset (R23), nothing presented at its ports. -/
def State.resetWith (c : Config) : State :=
  { cfg := c, inRing := Ring.reset, outRing := Ring.reset, resets := 0, inputs := [], outputs := [] }

/-- The machine right after reset (R23), in the reference configuration (log 1). -/
def State.reset : State := State.resetWith Config.reference

end Sys2Proof.Machine
end

