-- ==== Sys2Proof/Machine/Ops.lean ====
section
/-! DEFINITION. The named operations over storage, ring registers and ports, and reset. Every slot index is formed modulo the
ring's slot count (20_memory R35, R36; log 7). -/

namespace Sys2Proof.Machine

/-! ## Storage as a canonical list (log 3) -/

/-- The byte written to slot `i` since reset, if any: the one definition of what an unlisted slot holds (nothing). -/
def Memory.read : Memory → Nat → Option Byte
  | [], _ => none
  | (a, v) :: m, i => if a = i then some v else Memory.read m i

/-- Slot `i` written with `v`; the list stays strictly rising. -/
def Memory.write : Memory → Nat → Byte → Memory
  | [], i, v => [(i, v)]
  | (a, w) :: m, i, v =>
    if i < a then (i, v) :: (a, w) :: m
    else if i = a then (i, v) :: m
    else (a, w) :: Memory.write m i v

/-- The canonical form: slots strictly rising. -/
abbrev Memory.wf (m : Memory) : Prop := m.Pairwise fun x y => x.1 < y.1

/-! ## The rings by name -/

/-- Ring `b` of the state. -/
def State.ring (s : State) : RingSel → Ring
  | .inbound => s.inRing
  | .outbound => s.outRing

/-- The state with ring `b` replaced. -/
def State.setRing (s : State) (b : RingSel) (r : Ring) : State :=
  match b with
  | .inbound => { s with inRing := r }
  | .outbound => { s with outRing := r }

/-- `b.SIZE` (00_scope R5). -/
def State.size (s : State) (b : RingSel) : Nat := s.cfg.size b

/-- Slot index `x` of ring `b` modulo its slot count (R35). -/
def State.slot (s : State) (b : RingSel) (x : Nat) : Nat := x % s.size b

/-- `MemRead(b, x)` (00_scope R7): the byte of slot `x`; a slot nothing has written since reset holds the free value
`Config.unwrittenSlot` (93 U1). -/
def State.memRead (s : State) (b : RingSel) (x : Nat) : Byte :=
  (Memory.read (s.ring b).mem (s.slot b x)).getD (Config.unwrittenSlot s.resets b (s.slot b x))

/-- `MemWrite(b, x, v)` (00_scope R7). -/
def State.memWrite (s : State) (b : RingSel) (x : Nat) (v : Byte) : State :=
  s.setRing b { s.ring b with mem := Memory.write (s.ring b).mem (s.slot b x) v }

/-- `b.head <- x`. -/
def State.setHead (s : State) (b : RingSel) (x : Nat) : State := s.setRing b { s.ring b with head := x }

/-- `b.tail <- x`. -/
def State.setTail (s : State) (b : RingSel) (x : Nat) : State := s.setRing b { s.ring b with tail := x }

/-! ## Ring arithmetic (40_ringbuffer R84, R85, R88; 00_scope R8) -/

/-- `count(b)`, in the two cases of R84: `tail - head` (non-wrapped) or `size - (head - tail)` (wrapped). -/
def State.count (s : State) (b : RingSel) : Nat :=
  if (s.ring b).head ≤ (s.ring b).tail then (s.ring b).tail - (s.ring b).head
  else s.size b - ((s.ring b).head - (s.ring b).tail)

/-- `free(b) = b.SIZE - 1 - count(b)` (R85). -/
def State.free (s : State) (b : RingSel) : Nat := s.size b - 1 - s.count b

/-- `at(b, k) = b.mem[(b.head + k) mod b.SIZE]` (R8). -/
def State.byteAt (s : State) (b : RingSel) (k : Nat) : Byte := s.memRead b ((s.ring b).head + k)

/-- `[at(b, 0), ..., at(b, n-1)]`. -/
def State.front (s : State) (b : RingSel) (n : Nat) : List Byte := (List.range n).map (s.byteAt b)

/-- The occupied bytes, head first. -/
def State.contents (s : State) (b : RingSel) : List Byte := s.front b (s.count b)

/-- `b.head <- (b.head + k) mod b.SIZE`: `k` bytes consumed (R88). -/
def State.consume (s : State) (b : RingSel) (k : Nat) : State := s.setHead b (((s.ring b).head + k) % s.size b)

/-- Is the ring full: `(b.tail + 1) mod b.SIZE == b.head` (R81, R90)? -/
def State.ringFull (s : State) (b : RingSel) : Bool := ((s.ring b).tail + 1) % s.size b == (s.ring b).head

/-- Is the ring empty: `b.head == b.tail` (R82, R90)? -/
def State.ringEmpty (s : State) (b : RingSel) : Bool := (s.ring b).head == (s.ring b).tail

/-! ## Bytes into and out of a ring: what the ports, the operations and the composite operations share -/

/-- The effect and result of a put (R81). -/
def putByte (b : RingSel) (v : Byte) (s : State) : State × Code :=
  if (s.ring b).ready = false then (s, .badarg)
  else if s.ringFull b then (s, .full)
  else ((s.memWrite b (s.ring b).tail v).setTail b (((s.ring b).tail + 1) % s.size b), .ok)

/-- The effect and result of a get (R82): the byte, or the code of the failure and no byte. -/
def getByte (b : RingSel) (s : State) : State × Except Code Byte :=
  if (s.ring b).ready = false then (s, .error .badarg)
  else if s.ringEmpty b then (s, .error .empty)
  else (s.consume b 1, .ok (s.memRead b (s.ring b).head))

/-- Put bytes one by one until one is refused; the number enqueued (43 R145, R154: "bytes 0 .. i-1 stay in OUT"). -/
def sendBytes (b : RingSel) : List Byte → State → State × Nat
  | [], s => (s, 0)
  | v :: vs, s =>
    match putByte b v s with
    | (s', .ok) => ((sendBytes b vs s').1, (sendBytes b vs s').2 + 1)
    | _ => (s, 0)

/-! ## Ports -/

/-- One more answer at a port. -/
def State.emit (s : State) (o : Output) : State := { s with outputs := s.outputs ++ [o] }

/-- The end of an operation: its result code and payload on the command port (30_encoding R65, 60 R170). This is all that a
failure does besides the state changes its rule names: the counterpart of taking an exception. -/
def State.respond (s : State) (c : Code) (payload : List Byte) : State := s.emit (.response ⟨c, payload⟩)

/-- One transfer on the RX port (43 R150): a put into `IN`; accepted = OK, dropped = FULL or BADARG. -/
def rxTransfer (v : Byte) (s : State) : State :=
  (putByte .inbound v s).1.emit (.rx ((putByte .inbound v s).2 == .ok))

/-- One transfer on the TX port (43 R151): a get from `OUT`; byte valid = OK, no byte = EMPTY or BADARG. -/
def txTransfer (s : State) : State :=
  (getByte .outbound s).1.emit (.tx (getByte .outbound s).2.toOption)

/-- RX transfers one after another, in increasing offset order (R33). -/
def rxTransfers (vs : List Byte) (s : State) : State := vs.foldl (fun s v => rxTransfer v s) s

/-- The answer to a reserved or malformed command: BADARG, no state change (30_encoding R62, R64). -/
def rejectCommand (s : State) : State := s.respond .badarg []

/-- The reset event (70 R195, 10_state R23): both rings to their reset values, storage unspecified anew. What stands at the
ports is the environment's and stays (log 12). -/
def resetEvent (s : State) : State :=
  { s with inRing := Ring.reset, outRing := Ring.reset, resets := s.resets + 1 }

end Sys2Proof.Machine
end

