-- ==== Sys2Proof/Machine/Flags.lean ====
section
/-! DEFINITION. The block has no flag register (10_state R18). What stands in place of flags: the combinational status outputs
(R18, R94) and the numbers of result codes, reasons and tokens (30_encoding R57, R59, R66, R67). -/

namespace Sys2Proof.Machine

/-- The status output `b.empty`: 0 while the ring is not ready (R18, R94). -/
def State.emptyOutput (s : State) (b : RingSel) : Bool := (s.ring b).ready && s.ringEmpty b

/-- The status output `b.full`: 0 while the ring is not ready (R18, R94). -/
def State.fullOutput (s : State) (b : RingSel) : Bool := (s.ring b).ready && s.ringFull b

/-- The byte of a result code (R66). -/
def Code.byte : Code → Byte
  | .ok => 0x00
  | .incomplete => 0x01
  | .malformed => 0x02
  | .overflow => 0x03
  | .badarg => 0x04
  | .full => 0x05
  | .empty => 0x06
  | .sendFailed => 0x07
  | .verifyFail => 0x08
  | .busy => 0x09

/-- The byte of a verify reason (R67). -/
def Reason.byte : Reason → Byte
  | .lenShort => 1
  | .badSoh => 2
  | .badStx => 3
  | .badEtx => 4
  | .lenMismatch => 5
  | .badCrc => 6

/-- The id of a token (R57). -/
def tokenId : Token → Byte
  | .unknown => 0
  | .marco => 1
  | .polo => 2
  | .ok => 3
  | .error => 4

/-- The id of a reply: 0 = NONE, else the token's id (R59). -/
def replyId : Option Token → Byte
  | none => 0
  | some t => tokenId t

/-- A response as the byte string the command port returns: code, then payload (R65). -/
def Response.bytes (r : Response) : List Byte := r.code.byte :: r.payload

end Sys2Proof.Machine
end

