-- ==== Sys2Proof/Decode.lean ====
section
/-! DEFINITION. Encodings (30_encoding): byte order, markers, tokens, the wire frame, the command port's decoder and, after it,
the encoder. -/

namespace Sys2Proof

/-! ## Byte order (R33, R52, R62) -/

/-- `{hi, lo}`: the `u16` whose high byte comes first (R62: `cmd[i] * 256 + cmd[i+1]`). -/
def be16 (hi lo : Byte) : Half := hi ++ lo

/-- `v[15:8]`. -/
def hiByte (v : Half) : Byte := v.extractLsb' 8 8

/-- `v[7:0]`. -/
def loByte (v : Half) : Byte := v.extractLsb' 0 8

/-- A `u16` as its two bytes, high byte first (R33). -/
def be16Bytes (v : Half) : List Byte := [hiByte v, loByte v]

/-! ## Markers and tokens (R6, R57, R58) -/

/-- Start-of-header marker (R6). -/
def sohByte : Byte := 0x01

/-- Start-of-text marker (R6). -/
def stxByte : Byte := 0x02

/-- End-of-text marker (R6). -/
def etxByte : Byte := 0x03

/-- The letters of a token (R57); `unknown` is no token and has none. -/
def tokenLetters : Token → List Byte
  | .unknown => []
  | .marco => [0x6D, 0x61, 0x72, 0x63, 0x6F]
  | .polo => [0x70, 0x6F, 0x6C, 0x6F]
  | .ok => [0x6F, 0x6B]
  | .error => [0x65, 0x72, 0x72, 0x6F, 0x72]

/-- `TOKEN(e)`: the payload bytes of a token, with the trailing `0x00` when `TOKEN_NUL = 1` (R57, R58). -/
def tokenBytes (nul : Bool) (t : Token) : List Byte :=
  tokenLetters t ++ if nul then [0x00] else []

/-- The handshake table's entries in the table's order (R140, R141). -/
def tokenTable : List Token := [.marco, .polo, .ok, .error]

/-- The token recogniser: the first entry whose bytes equal the message, length and every byte; else `unknown` (R140, R143). -/
def recognize (nul : Bool) (msg : List Byte) : Token :=
  (tokenTable.find? fun t => msg == tokenBytes nul t).getD .unknown

/-! ## The wire frame (R50, R52, R53) -/

/-- The frame up to and including ETX: everything the checksum covers (R50, R53). -/
def frameHead (len : Half) (msg : List Byte) : List Byte :=
  [sohByte, hiByte len, loByte len, stxByte] ++ msg ++ [etxByte]

/-- The bytes of a frame with the given length, payload and checksum fields, in transmission order (R50). -/
def frameBytes (len : Half) (msg : List Byte) (crc : Half) : List Byte :=
  frameHead len msg ++ be16Bytes crc

/-! ## Decoding -/

/-- Why bytes are no encoding of an operation. On the command port each is answered BADARG (R62, R64). -/
inductive Reject where
  /-- a command of no bytes at all: shorter than every format (R62, log 8) -/
  | emptyCommand
  /-- fewer operand bytes than the format requires (R62) -/
  | tooShort
  /-- more operand bytes than the format requires (R62) -/
  | tooLong
  /-- not one of the three marker bytes -/
  | notMarker
  /-- not a frame: a marker or the declared length does not fit (R50) -/
  | notFrame
  deriving DecidableEq, Repr

/-- Layout `C0`: no operand byte (R61). -/
def operandC0 (i : Instr) : List Byte → Except Reject Instr
  | [] => .ok i
  | _ :: _ => .error .tooLong

/-- Layout `C1`: one operand byte (R61). -/
def operandC1 (f : Byte → Instr) : List Byte → Except Reject Instr
  | [] => .error .tooShort
  | [v] => .ok (f v)
  | _ :: _ :: _ => .error .tooLong

/-- Layout `C2`: one `u16` operand (R61). -/
def operandC2 (f : Half → Instr) : List Byte → Except Reject Instr
  | [hi, lo] => .ok (f (be16 hi lo))
  | _ :: _ :: _ :: _ => .error .tooLong
  | _ => .error .tooShort

/-- Exactly `n` data bytes (R62: "A variable operand `data[n]` is exactly `n` bytes"). -/
def exactly (n : Half) (i : Instr) (data : List Byte) : Except Reject Instr :=
  if data.length < n.toNat then .error .tooShort
  else if n.toNat < data.length then .error .tooLong
  else .ok i

/-- Layout `CD`: `n` (u16), `data[n]` (R61). -/
def operandCD (f : List Byte → Instr) : List Byte → Except Reject Instr
  | hi :: lo :: data => exactly (be16 hi lo) (f data) data
  | _ => .error .tooShort

/-- Layout `CCD`: `cap` (u16), `n` (u16), `data[n]` (R61). -/
def operandCCD (f : Half → List Byte → Instr) : List Byte → Except Reject Instr
  | chi :: clo :: hi :: lo :: data => exactly (be16 hi lo) (f (be16 chi clo) data) data
  | _ => .error .tooShort

/-- `bsel`, bit 7 of the command byte: 0 = `IN`, 1 = `OUT` (R61, R63). -/
def ringOfCommand (c : Byte) : RingSel := if c.getLsbD 7 then .outbound else .inbound

/-- `op`, bits 4:0 of the command byte (R61). -/
def opOfCommand (c : Byte) : Nat := c.toNat % 32

/-- The eight operations that use `bsel` (R61, R63). -/
def usesRing (op : Nat) : Bool := op ∈ [0x01, 0x02, 0x03, 0x04, 0x05, 0x06, 0x07, 0x0A]

/-- The reserved command bytes (R64): `op = 0x00`, `op` in `0x11 .. 0x1F`, bit 6 or bit 5 set, or `bsel = 1` on an operation
that does not use `bsel`. -/
def reservedByte (c : Byte) : Bool :=
  opOfCommand c == 0x00 || decide (0x11 ≤ opOfCommand c) || c.getLsbD 6 || c.getLsbD 5
    || (c.getLsbD 7 && !usesRing (opOfCommand c))

/-- The command port's decoder (R61 to R64), total on byte strings. -/
def decodeCommand : List Byte → Except Reject Instr
  | [] => .error .emptyCommand
  | c :: rest =>
    if reservedByte c then .ok (.reservedCommand c rest) else
    match opOfCommand c with
    | 0x01 => operandC0 (.rbInit (ringOfCommand c)) rest
    | 0x02 => operandC1 (.rbPut (ringOfCommand c)) rest
    | 0x03 => operandC0 (.rbGet (ringOfCommand c)) rest
    | 0x04 => operandC2 (.rbPeek (ringOfCommand c)) rest
    | 0x05 => operandC0 (.rbCount (ringOfCommand c)) rest
    | 0x06 => operandC0 (.rbFree (ringOfCommand c)) rest
    | 0x07 => operandC0 (.rbClear (ringOfCommand c)) rest
    | 0x08 => operandCD .crc16 rest
    | 0x09 => operandCCD .pkBuild rest
    | 0x0A => operandC2 (.pkLocate (ringOfCommand c)) rest
    | 0x0B => operandCD .pkVerify rest
    | 0x0C => operandCCD .pkExtractMsg rest
    | 0x0D => operandCD .hsOnMessage rest
    | 0x0E => operandC1 .hsSend rest
    | 0x0F => operandC0 .poll rest
    | 0x10 => operandCD .inject rest
    | _ => .ok (.reservedCommand c rest)

/-- A marker byte on the wire (R50, R6). -/
def decodeMarker : List Byte → Except Reject Instr
  | [v] =>
    if v = sohByte then .ok .soh else if v = stxByte then .ok .stx else if v = etxByte then .ok .etx
    else .error .notMarker
  | _ => .error .notMarker

/-- A byte string read as one frame (R50): markers at offsets 0, 3 and `L - 3`, and a declared length equal to its own
length (R51); the checksum field is returned, not checked. -/
def decodeFrame (p : List Byte) : Except Reject Instr :=
  if 7 ≤ p.length ∧ p.getD 0 0 = sohByte ∧ p.getD 3 0 = stxByte ∧ p.getD (p.length - 3) 0 = etxByte
      ∧ (be16 (p.getD 1 0) (p.getD 2 0)).toNat = p.length then
    .ok (.frame (be16 (p.getD 1 0) (p.getD 2 0)) ((p.drop 4).take (p.length - 7))
      (be16 (p.getD (p.length - 2) 0) (p.getD (p.length - 1) 0)))
  else .error .notFrame

/-- A payload read as a token (R57, R140); total, since every other payload is `tokenUnknown`. -/
def decodeToken (nul : Bool) (msg : List Byte) : Instr :=
  match recognize nul msg with
  | .unknown => .tokenUnknown msg
  | .marco => .tokenMarco
  | .polo => .tokenPolo
  | .ok => .tokenOk
  | .error => .tokenError

/-! ## Encoding, written from the same tables -/

/-- Where an encoding stands: on the command port (R61), or on the wire as a frame, a marker or a token payload (R50, R57). -/
inductive Space where
  | command
  | marker
  | frame
  | token
  deriving DecidableEq, Repr

/-- The space an operation's encoding belongs to (R61; pseudo-operations by their expansion, R70). -/
def Instr.space : Instr → Space
  | .soh | .stx | .etx => .marker
  | .frame _ _ _ => .frame
  | .tokenMarco | .tokenPolo | .tokenOk | .tokenError | .tokenUnknown _ => .token
  | .rbInit _ | .rbPut _ _ | .rbGet _ | .rbPeek _ _ | .rbCount _ | .rbFree _ | .rbClear _ => .command
  | .crc16 _ | .pkBuild _ _ | .pkLocate _ _ | .pkVerify _ | .pkExtractMsg _ _ => .command
  | .hsOnMessage _ | .hsSend _ | .poll | .inject _ | .reservedCommand _ _ => .command
  | .rxPut _ | .txGet | .isEmpty _ | .isFull _ => .command

/-- The expansion of a pseudo-operation (R70); every other operation is its own. -/
def Instr.expand : Instr → Instr
  | .rxPut v => .rbPut .inbound v
  | .txGet => .rbGet .outbound
  | .isEmpty b => .rbCount b
  | .isFull b => .rbFree b
  | i => i

/-- The command byte `{bsel, 00, op}` (R61). -/
def commandByte (b : RingSel) (op : Byte) : Byte :=
  match b with
  | .inbound => op
  | .outbound => 0x80 ||| op

/-- The length operand `n` of a data string (R61). -/
def dataLength (data : List Byte) : Half := BitVec.ofNat 16 data.length

/-- The bytes of an operation: on the command port by R61's table, on the wire by R50 and R57; a pseudo-operation has the
bytes of its expansion (R70). -/
def encode (nul : Bool) : Instr → List Byte
  | .rbInit b => [commandByte b 0x01]
  | .rbPut b v => [commandByte b 0x02, v]
  | .rbGet b => [commandByte b 0x03]
  | .rbPeek b off => commandByte b 0x04 :: be16Bytes off
  | .rbCount b => [commandByte b 0x05]
  | .rbFree b => [commandByte b 0x06]
  | .rbClear b => [commandByte b 0x07]
  | .crc16 data => 0x08 :: be16Bytes (dataLength data) ++ data
  | .pkBuild cap msg => 0x09 :: be16Bytes cap ++ be16Bytes (dataLength msg) ++ msg
  | .pkLocate b cap => commandByte b 0x0A :: be16Bytes cap
  | .pkVerify pkt => 0x0B :: be16Bytes (dataLength pkt) ++ pkt
  | .pkExtractMsg cap pkt => 0x0C :: be16Bytes cap ++ be16Bytes (dataLength pkt) ++ pkt
  | .hsOnMessage msg => 0x0D :: be16Bytes (dataLength msg) ++ msg
  | .hsSend r => [0x0E, r]
  | .poll => [0x0F]
  | .inject data => 0x10 :: be16Bytes (dataLength data) ++ data
  | .reservedCommand c rest => c :: rest
  | .rxPut v => [commandByte .inbound 0x02, v]
  | .txGet => [commandByte .outbound 0x03]
  | .isEmpty b => [commandByte b 0x05]
  | .isFull b => [commandByte b 0x06]
  | .frame len msg crc => frameBytes len msg crc
  | .soh => [sohByte]
  | .stx => [stxByte]
  | .etx => [etxByte]
  | .tokenMarco => tokenBytes nul .marco
  | .tokenPolo => tokenBytes nul .polo
  | .tokenOk => tokenBytes nul .ok
  | .tokenError => tokenBytes nul .error
  | .tokenUnknown msg => msg

/-- The decoder of each space. -/
def decodeIn (nul : Bool) : Space → List Byte → Except Reject Instr
  | .command, p => decodeCommand p
  | .marker, p => decodeMarker p
  | .frame, p => decodeFrame p
  | .token, p => .ok (decodeToken nul p)

/-! ## The opcode table's numbering of bits -/

/-- The length in bytes of the command that begins with `p`, bytes not given read as `0x00` (R61's five layouts). A reserved
command ends where its bytes end. -/
def commandLength (p : List Byte) : Nat :=
  if reservedByte (p.getD 0 0) then max 1 p.length else
  match opOfCommand (p.getD 0 0) with
  | 0x02 | 0x0E => 2
  | 0x04 | 0x0A => 3
  | 0x08 | 0x0B | 0x0D | 0x10 => 3 + (be16 (p.getD 1 0) (p.getD 2 0)).toNat
  | 0x09 | 0x0C => 5 + (be16 (p.getD 3 0) (p.getD 4 0)).toNat
  | _ => 1

/-- The command bytes of a table word: byte `k` is bits `8k+7 .. 8k` of `w`, for `nbits` bits, then `0x00` bytes up to the
command's length. Log 13. -/
def tableWordBytes (nbits w : Nat) : List Byte :=
  let p := (List.range ((nbits + 7) / 8)).map fun k => BitVec.ofNat 8 (w / 2 ^ (8 * k))
  p ++ List.replicate (commandLength p - p.length) 0x00

/-- The operation the command port's decoder reads from a table word (`none` where it rejects). -/
def decodeTableWord (nbits w : Nat) : Option Instr :=
  match decodeCommand (tableWordBytes nbits w) with
  | .ok i => some i
  | .error _ => none

end Sys2Proof
end

