-- ==== Sys2Proof/Machine/Crc16.lean ====
section
/-! DEFINITION. The checksum routine (41_crc16 R100 to R103): a pure function of a byte sequence. -/

namespace Sys2Proof.Machine

/-- The polynomial (R6, R100). -/
def crcPoly : Half := 0x1021

/-- One round (R101): shift left by one; XOR the polynomial if the bit shifted out of bit 15 was set. -/
def crcRound (a : Half) : Half :=
  if a.getLsbD 15 then (a <<< 1) ^^^ crcPoly else a <<< 1

/-- `k` rounds. -/
def crcRounds : Nat → Half → Half
  | 0, a => a
  | k + 1, a => crcRounds k (crcRound a)

/-- Fold one byte into the accumulator (R102): XOR it into bits 15:8, then 8 rounds. -/
def crcUpdate (a : Half) (d : Byte) : Half := crcRounds 8 (a ^^^ be16 d 0x00)

/-- The checksum of a byte sequence (R103): initial value 0, bytes in increasing order. -/
def crc16 (data : List Byte) : Half := data.foldl crcUpdate 0x0000

end Sys2Proof.Machine
end

