-- ==== Sys2Proof/Machine/Operands.lean ====
section
/-! DEFINITION. Operand forms: byte sequences and their spans (00_scope R7), the length field, reply ids (30_encoding R59), and
`u16` values in a response (R65). -/

namespace Sys2Proof.Machine

/-- `s[i]` of a byte sequence; used only where `i` is below its length. -/
def byteOf (p : List Byte) (i : Nat) : Byte := p.getD i 0x00

/-- `s[a:b)`: the bytes `a .. b-1` (R7). -/
def span (p : List Byte) (a b : Nat) : List Byte := (p.drop a).take (b - a)

/-- `be16(s, i) = s[i] * 256 + s[i+1]` (R7). -/
def be16At (p : List Byte) (i : Nat) : Half := be16 (byteOf p i) (byteOf p (i + 1))

/-- A length or count as the `u16` of a response payload, high byte first (R65). Log 17. -/
def u16 (n : Nat) : List Byte := be16Bytes (BitVec.ofNat 16 n)

/-- The declared length of the frame at the head of ring `b`: the field at offsets 1 and 2 (42 R115). -/
def declaredLength (b : RingSel) (s : State) : Nat := (be16 (s.byteAt b 1) (s.byteAt b 2)).toNat

/-- The reply a reply id names: 2 = `polo`, 3 = `ok`, 4 = `error`; no other id (R59, R64). -/
def replyOfId (r : Byte) : Option Token :=
  if r = 0x02 then some .polo else if r = 0x03 then some .ok else if r = 0x04 then some .error else none

end Sys2Proof.Machine
end

