-- ==== Sys2Proof/Machine/PacketCodec.lean ====
section
/-! DEFINITION. CRC16 (41_crc16 R103) and the four PacketCodec operations (42_packet_codec R110 to R121). -/

namespace Sys2Proof.Machine

/-! ## Frame building (R110) -/

/-- The frame of a message: length `7 + n`, checksum over every byte before it (R50 to R53). -/
def frameOf (msg : List Byte) : List Byte :=
  frameBytes (BitVec.ofNat 16 (7 + msg.length)) msg (crc16 (frameHead (BitVec.ofNat 16 (7 + msg.length)) msg))

/-- `build` (R110): BADARG for an empty or an unframeable message, OVERFLOW for too small a capacity, in that order. -/
def build (cap : Nat) (msg : List Byte) : Except Code (List Byte) :=
  if msg.length = 0 then .error .badarg
  else if 65535 < 7 + msg.length then .error .badarg
  else if cap < 7 + msg.length then .error .overflow
  else .ok (frameOf msg)

/-! ## Locate and extract (R112 to R118) -/

/-- The results of PK_LOCATE (R112). -/
inductive Located where
  | badarg
  | incomplete
  | malformed
  | overflow (len : Nat)
  | ok (pkt : List Byte)
  deriving DecidableEq, Repr

/-- Step 1's loop, at most `k` rounds (R113): while the ring is non-empty and its head byte is not SOH, discard that byte. -/
def trimLoop (b : RingSel) : Nat → State → State
  | 0, s => s
  | k + 1, s => if 0 < s.count b ∧ s.byteAt b 0 ≠ sohByte then trimLoop b k (s.consume b 1) else s

/-- Step 1, trim (R113): "at most `count(b)` iterations". -/
def trim (b : RingSel) (s : State) : State := trimLoop b (s.count b) s

/-- Steps 2 to 6 (R114 to R118), after the trim. -/
def extract (b : RingSel) (cap : Nat) (s : State) : State × Located :=
  if s.count b < 7 then (s, .incomplete)
  else if s.count b < declaredLength b s then (s, .incomplete)
  else if declaredLength b s < 3 then (s, .malformed)
  else if s.byteAt b (declaredLength b s - 3) ≠ etxByte then (s, .malformed)
  else if cap < declaredLength b s then (s.consume b (declaredLength b s), .overflow (declaredLength b s))
  else (s.consume b (declaredLength b s), .ok (s.front b (declaredLength b s)))

/-- `locateAndExtract` (R112). The operation is atomic and writes no tail, so every count uses one sample of `tail`. -/
def locate (b : RingSel) (cap : Nat) (s : State) : State × Located :=
  if (s.ring b).ready = false ∨ cap = 0 then (s, .badarg) else extract b cap (trim b s)

/-! ## Verify and extract message (R120, R121) -/

/-- `verify` (R120): the first failing check, or `none` when all six pass. -/
def verify (pkt : List Byte) : Option Reason :=
  if pkt.length < 7 then some .lenShort
  else if byteOf pkt 0 ≠ sohByte then some .badSoh
  else if byteOf pkt 3 ≠ stxByte then some .badStx
  else if byteOf pkt (pkt.length - 3) ≠ etxByte then some .badEtx
  else if (be16At pkt 1).toNat ≠ pkt.length then some .lenMismatch
  else if crc16 (span pkt 0 (pkt.length - 2)) ≠ be16At pkt (pkt.length - 2) then some .badCrc
  else none

/-- `extractMessage` (R121): the bytes `[4, n-3)`; nothing is re-checked. -/
def extractMessage (cap : Nat) (pkt : List Byte) : Except Code (List Byte) :=
  if pkt.length < 7 then .error .badarg
  else if cap < pkt.length - 7 + 1 then .error .overflow
  else .ok (span pkt 4 (pkt.length - 3))

/-! ## The operations -/

/-- CRC16 data (R103). -/
def execCrc16 (data : List Byte) (s : State) : Host.Outcome State Fault Refusal :=
  .next (s.respond .ok (be16Bytes (crc16 data)))

/-- PK_BUILD cap, msg (R110). -/
def execPkBuild (cap : Half) (msg : List Byte) (s : State) : Host.Outcome State Fault Refusal :=
  match build cap.toNat msg with
  | .ok pkt => .next (s.respond .ok (u16 pkt.length ++ pkt))
  | .error c => .next (s.respond c [])

/-- PK_LOCATE b, cap (R112). -/
def execPkLocate (b : RingSel) (cap : Half) (s : State) : Host.Outcome State Fault Refusal :=
  match locate b cap.toNat s with
  | (s', .badarg) => .next (s'.respond .badarg [])
  | (s', .incomplete) => .next (s'.respond .incomplete [])
  | (s', .malformed) => .next (s'.respond .malformed [])
  | (s', .overflow len) => .next (s'.respond .overflow (u16 len))
  | (s', .ok pkt) => .next (s'.respond .ok (u16 pkt.length ++ pkt))

/-- PK_VERIFY pkt (R120). -/
def execPkVerify (pkt : List Byte) (s : State) : Host.Outcome State Fault Refusal :=
  match verify pkt with
  | none => .next (s.respond .ok [])
  | some r => .next (s.respond .verifyFail [r.byte])

/-- PK_EXTRACT_MSG cap, pkt (R121): the message and one `0x00` not counted in `out_len`. -/
def execPkExtractMsg (cap : Half) (pkt : List Byte) (s : State) : Host.Outcome State Fault Refusal :=
  match extractMessage cap.toNat pkt with
  | .ok msg => .next (s.respond .ok (u16 msg.length ++ msg ++ [0x00]))
  | .error c => .next (s.respond c [])

end Sys2Proof.Machine
end

