-- ==== Sys2Proof/Machine/RingBuffer.lean ====
section
/-! DEFINITION. The seven RingBuffer operations (40_ringbuffer R80 to R87). -/

namespace Sys2Proof.Machine

/-- RB_INIT b (R80). Its `b.SIZE == 0` test has no case: no instance has such a ring (R198, log 2). Storage is not written. -/
def execRbInit (b : RingSel) (s : State) : Host.Outcome State Fault Refusal :=
  .next ((s.setRing b { s.ring b with head := 0, tail := 0, ready := true }).respond .ok [])

/-- RB_PUT b, v (R81). -/
def execRbPut (b : RingSel) (v : Byte) (s : State) : Host.Outcome State Fault Refusal :=
  .next ((putByte b v s).1.respond (putByte b v s).2 [])

/-- RB_GET b (R82): on a failure no byte is delivered. -/
def execRbGet (b : RingSel) (s : State) : Host.Outcome State Fault Refusal :=
  match getByte b s with
  | (s', .ok v) => .next (s'.respond .ok [v])
  | (s', .error c) => .next (s'.respond c [])

/-- RB_PEEK b, off (R83). -/
def execRbPeek (b : RingSel) (off : Half) (s : State) : Host.Outcome State Fault Refusal :=
  if (s.ring b).ready = false then .next (s.respond .badarg [])
  else if s.count b ≤ off.toNat then .next (s.respond .empty [])
  else .next (s.respond .ok [s.byteAt b off.toNat])

/-- RB_COUNT b (R84). -/
def execRbCount (b : RingSel) (s : State) : Host.Outcome State Fault Refusal :=
  if (s.ring b).ready = false then .next (s.respond .badarg [])
  else .next (s.respond .ok (u16 (s.count b)))

/-- RB_FREE b (R85). -/
def execRbFree (b : RingSel) (s : State) : Host.Outcome State Fault Refusal :=
  if (s.ring b).ready = false then .next (s.respond .badarg [])
  else .next (s.respond .ok (u16 (s.free b)))

/-- RB_CLEAR b (R86): `b.head <- b.tail`; storage is not zeroed. -/
def execRbClear (b : RingSel) (s : State) : Host.Outcome State Fault Refusal :=
  if (s.ring b).ready = false then .next (s.respond .badarg [])
  else .next ((s.setHead b (s.ring b).tail).respond .ok [])

end Sys2Proof.Machine
end

