-- ==== Sys2Proof/Machine/Handshake.lean ====
section
/-! DEFINITION. The handshake machine, the reply path, the protocol cycle and injection (43_handshake_and_link R140 to R154). -/

namespace Sys2Proof.Machine

/-- The transition table (R141): the reply to a token, `none` for NONE. -/
def replyTo : Token → Option Token
  | .marco => some .polo
  | .polo => some .ok
  | .ok => none
  | .error => none
  | .unknown => some .error

/-- `onMessage` as a response (R140, R65): token id, reply id. -/
def onMessage (msg : List Byte) (s : State) : State :=
  s.respond .ok [tokenId (recognize s.cfg.tokenNul msg), replyId (replyTo (recognize s.cfg.tokenNul msg))]

/-- The results of sending a reply (R145). -/
inductive Sent where
  | ok (len : Nat)
  | failed (k : Nat)
  | refused (c : Code)
  deriving DecidableEq, Repr

/-- Frame a reply token with capacity `PKT_MAX` and enqueue it byte by byte into `OUT` (R145, R146). `build` cannot fail here
(R145; the refused case is never taken, log 2). -/
def sendReply (t : Token) (s : State) : State × Sent :=
  match build s.cfg.pktMax (tokenBytes s.cfg.tokenNul t) with
  | .error c => (s, .refused c)
  | .ok pkt =>
    if (sendBytes .outbound pkt s).2 = pkt.length then ((sendBytes .outbound pkt s).1, .ok pkt.length)
    else ((sendBytes .outbound pkt s).1, .failed (sendBytes .outbound pkt s).2)

/-- HS_SEND's body (R145). -/
def send (r : Byte) (s : State) : State × Sent :=
  if (s.ring .outbound).ready = false then (s, .refused .badarg)
  else match replyOfId r with
    | none => (s, .refused .badarg)
    | some t => sendReply t s

/-- POLL's reaction to a message (R147): look the token up, send the reply if there is one. -/
def react (msg : List Byte) (s : State) : State :=
  let t := recognize s.cfg.tokenNul msg
  match replyTo t with
  | none => s.respond .ok [tokenId t, replyId none]
  | some r =>
    match send (replyId (some r)) s with
    | (s', .ok _) => s'.respond .ok [tokenId t, replyId (some r)]
    | (s', .failed k) => s'.respond .sendFailed (tokenId t :: replyId (some r) :: u16 k)
    | (s', .refused c) => s'.respond c []

/-- POLL's handling of an extracted candidate (R147). The message buffer cannot overflow (R147: `out_len + 1 = L - 6 <= MSG_MAX`). -/
def handleFrame (pkt : List Byte) (s : State) : State :=
  match verify pkt with
  | some r => s.respond .verifyFail [r.byte]
  | none =>
    match extractMessage s.cfg.msgMax pkt with
    | .error c => s.respond c []
    | .ok msg => react msg s

/-- One protocol cycle (R147). -/
def pollCycle (s : State) : State :=
  if (s.ring .inbound).ready = false ∨ (s.ring .outbound).ready = false then s.respond .badarg []
  else match locate .inbound s.cfg.pktMax s with
    | (s', .badarg) => s'.respond .badarg []
    | (s', .incomplete) => s'.respond .incomplete []
    | (s', .malformed) => (getByte .inbound s').1.respond .malformed []
    | (s', .overflow len) => s'.respond .overflow (u16 len)
    | (s', .ok pkt) => handleFrame pkt s'

/-! ## The operations -/

/-- HS_ON_MESSAGE msg (R140). -/
def execHsOnMessage (msg : List Byte) (s : State) : Host.Outcome State Fault Refusal := .next (onMessage msg s)

/-- HS_SEND r (R145). -/
def execHsSend (r : Byte) (s : State) : Host.Outcome State Fault Refusal :=
  match send r s with
  | (s', .ok len) => .next (s'.respond .ok (u16 len))
  | (s', .failed k) => .next (s'.respond .sendFailed (u16 k))
  | (s', .refused c) => .next (s'.respond c [])

/-- POLL (R147). -/
def execPoll (s : State) : Host.Outcome State Fault Refusal := .next (pollCycle s)

/-- INJECT data (R154): only when `OUT` is empty; the bytes are opaque. -/
def execInject (data : List Byte) (s : State) : Host.Outcome State Fault Refusal :=
  if (s.ring .outbound).ready = false ∨ data.length = 0 then .next (s.respond .badarg [])
  else if s.count .outbound ≠ 0 then .next (s.respond .busy [])
  else if (sendBytes .outbound data s).2 = data.length then .next ((sendBytes .outbound data s).1.respond .ok [])
  else .next ((sendBytes .outbound data s).1.respond .sendFailed (u16 (sendBytes .outbound data s).2))

end Sys2Proof.Machine
end

