-- ==== Sys2Proof/Machine/Ports.lean ====
section
/-! DEFINITION. Reserved commands (30_encoding R64), the pseudo-operations (R70) and the wire encodings arriving at the block
(R50, R57; log 9, 10, 11). -/

namespace Sys2Proof.Machine

/-- A reserved command (R64): BADARG, no state change, whatever the command byte and the bytes after it. -/
def execReservedCommand (_c : Byte) (_rest : List Byte) (s : State) : Host.Outcome State Fault Refusal :=
  .next (rejectCommand s)

/-- RX_PUT v (R70, R150): one transfer on the RX port. -/
def execRxPut (v : Byte) (s : State) : Host.Outcome State Fault Refusal := .next (rxTransfer v s)

/-- TX_GET (R70, R151): one transfer on the TX port. -/
def execTxGet (s : State) : Host.Outcome State Fault Refusal := .next (txTransfer s)

/-- IS_EMPTY b (R70): the status output `b.empty`. Log 19. -/
def execIsEmpty (b : RingSel) (s : State) : Host.Outcome State Fault Refusal :=
  .next (s.emit (.status (s.emptyOutput b)))

/-- IS_FULL b (R70): the status output `b.full`. Log 19. -/
def execIsFull (b : RingSel) (s : State) : Host.Outcome State Fault Refusal :=
  .next (s.emit (.status (s.fullOutput b)))

/-- FRAME (R50): its bytes arrive at the RX port, offset 0 first, one transfer each (R33, R150). Log 9. -/
def execFrame (len : Half) (msg : List Byte) (crc : Half) (s : State) : Host.Outcome State Fault Refusal :=
  .next (rxTransfers (frameBytes len msg crc) s)

/-- SOH (R50): the marker byte arrives at the RX port. Log 10. -/
def execSoh (s : State) : Host.Outcome State Fault Refusal := .next (rxTransfer sohByte s)

/-- STX (R50): the marker byte arrives at the RX port. Log 10. -/
def execStx (s : State) : Host.Outcome State Fault Refusal := .next (rxTransfer stxByte s)

/-- ETX (R50): the marker byte arrives at the RX port. Log 10. -/
def execEtx (s : State) : Host.Outcome State Fault Refusal := .next (rxTransfer etxByte s)

/-- TOKEN `marco` (R57, R141): the payload presented to the handshake machine. Log 11. -/
def execTokenMarco (s : State) : Host.Outcome State Fault Refusal :=
  .next (onMessage (tokenBytes s.cfg.tokenNul .marco) s)

/-- TOKEN `polo` (R57, R141). Log 11. -/
def execTokenPolo (s : State) : Host.Outcome State Fault Refusal :=
  .next (onMessage (tokenBytes s.cfg.tokenNul .polo) s)

/-- TOKEN `ok` (R57, R141). Log 11. -/
def execTokenOk (s : State) : Host.Outcome State Fault Refusal :=
  .next (onMessage (tokenBytes s.cfg.tokenNul .ok) s)

/-- TOKEN `error` (R57, R141). Log 11. -/
def execTokenError (s : State) : Host.Outcome State Fault Refusal :=
  .next (onMessage (tokenBytes s.cfg.tokenNul .error) s)

/-- TOKEN (unknown) (R141, R144): any other payload, the empty one included. Log 11. -/
def execTokenUnknown (msg : List Byte) (s : State) : Host.Outcome State Fault Refusal := .next (onMessage msg s)

end Sys2Proof.Machine
end

