-- ==== Sys2Proof/Machine/Dispatch.lean ====
section
/-! DEFINITION. The dispatch of operations to their meanings, one arm per row of spec/opcode_table.json. -/

namespace Sys2Proof.Machine

def exec (i : Instr) (s : State) : Host.Outcome State Fault Refusal :=
  match i with
  | .rbInit b => Sys2Proof.Machine.execRbInit b s
  | .rbPut b v => Sys2Proof.Machine.execRbPut b v s
  | .rbGet b => Sys2Proof.Machine.execRbGet b s
  | .rbPeek b off => Sys2Proof.Machine.execRbPeek b off s
  | .rbCount b => Sys2Proof.Machine.execRbCount b s
  | .rbFree b => Sys2Proof.Machine.execRbFree b s
  | .rbClear b => Sys2Proof.Machine.execRbClear b s
  | .crc16 data => Sys2Proof.Machine.execCrc16 data s
  | .pkBuild cap msg => Sys2Proof.Machine.execPkBuild cap msg s
  | .pkLocate b cap => Sys2Proof.Machine.execPkLocate b cap s
  | .pkVerify pkt => Sys2Proof.Machine.execPkVerify pkt s
  | .pkExtractMsg cap pkt => Sys2Proof.Machine.execPkExtractMsg cap pkt s
  | .hsOnMessage msg => Sys2Proof.Machine.execHsOnMessage msg s
  | .hsSend r => Sys2Proof.Machine.execHsSend r s
  | .poll => Sys2Proof.Machine.execPoll s
  | .inject data => Sys2Proof.Machine.execInject data s
  | .reservedCommand c rest => Sys2Proof.Machine.execReservedCommand c rest s
  | .rxPut v => Sys2Proof.Machine.execRxPut v s
  | .txGet => Sys2Proof.Machine.execTxGet s
  | .isEmpty b => Sys2Proof.Machine.execIsEmpty b s
  | .isFull b => Sys2Proof.Machine.execIsFull b s
  | .frame len msg crc => Sys2Proof.Machine.execFrame len msg crc s
  | .soh => Sys2Proof.Machine.execSoh s
  | .stx => Sys2Proof.Machine.execStx s
  | .etx => Sys2Proof.Machine.execEtx s
  | .tokenMarco => Sys2Proof.Machine.execTokenMarco s
  | .tokenPolo => Sys2Proof.Machine.execTokenPolo s
  | .tokenOk => Sys2Proof.Machine.execTokenOk s
  | .tokenError => Sys2Proof.Machine.execTokenError s
  | .tokenUnknown msg => Sys2Proof.Machine.execTokenUnknown msg s

end Sys2Proof.Machine
end

