-- ==== Sys2Proof/Machine/Fetch.lean ====
section
/-! DEFINITION. Taking the next transfer from the ports (30_encoding R60; log 5): the block fetches no instructions (10_state
R17), its operations are issued from outside. -/

namespace Sys2Proof.Machine

/-- What a step has to do. -/
inductive Fetched where
  /-- nothing is presented at any port: the block is idle (60 R187) -/
  | idle
  /-- the reset input (70 R195) -/
  | reset
  /-- run an operation -/
  | run (i : Instr)
  /-- a command byte string that no format fits (R62) -/
  | malformed (r : Reject)
  deriving DecidableEq, Repr

/-- What the oldest presented input asks for. -/
def fetched : List Input → Fetched
  | [] => .idle
  | .reset :: _ => .reset
  | .issue _ i :: _ => .run i
  | .command _ bytes :: _ =>
    match decodeCommand bytes with
    | .ok i => .run i
    | .error r => .malformed r

/-- The state with the oldest presented input taken. -/
def State.takeInput (s : State) : State := { s with inputs := s.inputs.tail }

/-- The state with a command byte string put before every other input, issued by the polling context. -/
def State.presentCommand (s : State) (bytes : List Byte) : State :=
  { s with inputs := .command .eng bytes :: s.inputs }

end Sys2Proof.Machine
end

