-- ==== Sys2Proof/Machine/Step.lean ====
section
/-! DEFINITION. One step: one whole operation, one reset event, or idling (20_memory R38; log 5). -/

namespace Sys2Proof.Machine

/-- One step of the block: take the oldest presented input and perform it whole. -/
def step (s : State) : Host.Outcome State Fault Refusal :=
  match fetched s.inputs with
  | .idle => .next s
  | .reset => .next (resetEvent s.takeInput)
  | .run i => exec i s.takeInput
  | .malformed _ => .next (rejectCommand s.takeInput)

/-- `s` with the command of a table word presented first at the command port (log 13). -/
def State.withFetchWord (s : State) (nbits w : Nat) : State := s.presentCommand (tableWordBytes nbits w)

end Sys2Proof.Machine
end

