-- ==== Sys2Proof/WellFormed.lean ====
section
/-! DEFINITION. Which operations are well formed: those an encoding of the spec denotes (30_encoding). -/

namespace Sys2Proof

/-- A data operand's length fits its `u16` length operand (R61, R62). -/
def fitsU16 (data : List Byte) : Bool := data.length ≤ 65535

/-- The fields of a frame agree with its payload: the declared length counts the whole frame (R51) and the checksum is that of
every byte before it (R53). -/
def frameAgrees (len : Half) (msg : List Byte) (crc : Half) : Bool :=
  len.toNat == 7 + msg.length && crc == Machine.crc16 (frameHead len msg)

/-- Well-formedness, one check per constructor; `nul` is `TOKEN_NUL`. -/
def Instr.wellFormed (nul : Bool) : Instr → Bool
  | .rbInit _ => true
  | .rbPut _ _ => true
  | .rbGet _ => true
  | .rbPeek _ _ => true
  | .rbCount _ => true
  | .rbFree _ => true
  | .rbClear _ => true
  | .crc16 data => fitsU16 data
  | .pkBuild _ msg => fitsU16 msg
  | .pkLocate _ _ => true
  | .pkVerify pkt => fitsU16 pkt
  | .pkExtractMsg _ pkt => fitsU16 pkt
  | .hsOnMessage msg => fitsU16 msg
  | .hsSend _ => true
  | .poll => true
  | .inject data => fitsU16 data
  | .reservedCommand c _ => reservedByte c
  | .rxPut _ => true
  | .txGet => true
  | .isEmpty _ => true
  | .isFull _ => true
  | .frame len msg crc => frameAgrees len msg crc
  | .soh => true
  | .stx => true
  | .etx => true
  | .tokenMarco => true
  | .tokenPolo => true
  | .tokenOk => true
  | .tokenError => true
  | .tokenUnknown msg => fitsU16 msg && recognize nul msg == .unknown

end Sys2Proof
end

