-- ==== Sys2Proof/Safety.lean ====
section
/-! DEFINITION. What a sound state and a disciplined schedule are, in the terms claims use: the ring invariant (10_state R15),
what operations offer to a ring, the producer and consumer roles (20_memory R42, 70 R199, R201), the stall (42 R123) and quiescence (70 R211). -/

namespace Sys2Proof.Machine

/-! ## The invariant -/

/-- A ring of `size` slots is sound: cursors in range (R11, R12, R15), storage canonical and within the ring (R30); a ring not
ready has the cursors reset left (R13, R23). -/
abbrev Ring.sound (size : Nat) (r : Ring) : Prop :=
  r.head < size ∧ r.tail < size ∧ Memory.wf r.mem ∧ (∀ c ∈ r.mem, c.1 < size) ∧
    (r.ready = false → r.head = 0 ∧ r.tail = 0)

/-- Every occupied slot of ring `b` has been written since reset (R14: no operation can read an unwritten slot). -/
abbrev State.occupiedWritten (s : State) (b : RingSel) : Prop :=
  ∀ k < s.count b, (Memory.read (s.ring b).mem (s.slot b ((s.ring b).head + k))).isSome = true

/-- The invariant of ring `b`. -/
abbrev State.ringInv (s : State) (b : RingSel) : Prop := (s.ring b).sound (s.size b) ∧ s.occupiedWritten b

/-- The invariant of the block between operations (R15), both rings. -/
abbrev State.Inv (s : State) : Prop := s.ringInv .inbound ∧ s.ringInv .outbound

/-! ## What an operation leaves alone -/

/-- From `s` to `t` one answer was given and at most ring `b` changed: the frame of an operation on one ring. -/
abbrev State.answersOn (s : State) (b : RingSel) (o : Output) (t : State) : Prop :=
  t.cfg = s.cfg ∧ t.resets = s.resets ∧ t.inputs = s.inputs ∧ t.outputs = s.outputs ++ [o] ∧
    (b ≠ .inbound → t.ring .inbound = s.ring .inbound) ∧ (b ≠ .outbound → t.ring .outbound = s.ring .outbound)

/-- From `s` to `t` only the head of ring `b` moved: a consumer's effect (20_memory R42). -/
abbrev State.headMoved (s : State) (b : RingSel) (t : State) : Prop :=
  (t.ring b).tail = (s.ring b).tail ∧ (t.ring b).mem = (s.ring b).mem ∧ (t.ring b).ready = (s.ring b).ready

/-- From `s` to `t` ring `b` kept its head and its ready bit: a producer's effect (20_memory R42). -/
abbrev State.headKept (s : State) (b : RingSel) (t : State) : Prop :=
  (t.ring b).head = (s.ring b).head ∧ (t.ring b).ready = (s.ring b).ready

/-! ## What an operation offers to a ring -/

/-- The reply frame a POLL would send for what `IN` holds: no bytes unless a verified frame is there whose token has a reply
(43 R147). -/
def State.pollReply (s : State) : List Byte :=
  match (locate .inbound s.cfg.pktMax s).2 with
  | .ok pkt =>
    if verify pkt = none then
      match replyTo (recognize s.cfg.tokenNul (span pkt 4 (pkt.length - 3))) with
      | some t => frameOf (tokenBytes s.cfg.tokenNul t)
      | none => []
    else []
  | .badarg | .incomplete | .malformed | .overflow _ => []

/-- The bytes an operation puts into ring `b` one by one, as far as they fit: the byte of a put (40 R81), the bytes arriving on the
wire (43 R150), the reply frame (R145, R147), the injected bytes while `OUT` is empty (R154); no bytes for every other operation. -/
def offered (i : Instr) (b : RingSel) (s : State) : List Byte :=
  match i with
  | .rbPut b' v => if b' = b then [v] else []
  | .hsSend r =>
    if b = .outbound then
      match replyOfId r with
      | some t => frameOf (tokenBytes s.cfg.tokenNul t)
      | none => []
    else []
  | .poll => if b = .outbound then s.pollReply else []
  | .inject data => if b = .outbound ∧ s.count .outbound = 0 then data else []
  | .rxPut v => if b = .inbound then [v] else []
  | .frame len msg crc => if b = .inbound then frameBytes len msg crc else []
  | .soh => if b = .inbound then [sohByte] else []
  | .stx => if b = .inbound then [stxByte] else []
  | .etx => if b = .inbound then [etxByte] else []
  | .rbInit _ | .rbGet _ | .rbPeek _ _ | .rbCount _ | .rbFree _ | .rbClear _ | .crc16 _ | .pkBuild _ _ | .pkLocate _ _
  | .pkVerify _ | .pkExtractMsg _ _ | .hsOnMessage _ | .reservedCommand _ _ | .txGet | .isEmpty _ | .isFull _
  | .tokenMarco | .tokenPolo | .tokenOk | .tokenError | .tokenUnknown _ => []

/-! ## Puts and gets of one ring, interleaved (40 R91) -/

/-- The operation of a put (`some v`) or a get (`none`) on ring `b`. -/
def putOrGet (b : RingSel) : Option Byte → Instr
  | some v => .rbPut b v
  | none => .rbGet b

/-- The bytes accepted by puts: those answered OK. -/
def acceptedBytes (ops : List (Option Byte)) (answers : List Response) : List Byte :=
  (ops.zip answers).filterMap fun x => if x.2.code = .ok then x.1 else none

/-- The bytes delivered by gets: the payloads of their answers. -/
def deliveredBytes (ops : List (Option Byte)) (answers : List Response) : List Byte :=
  (ops.zip answers).flatMap fun x => if x.1 = none then x.2.payload else []

/-! ## What operations may see (10_state R14, R22) -/

/-- Two states that agree on everything an operation can observe of ring `b`: its registers and its occupied bytes; they may
differ in every slot outside the occupied region. -/
abbrev State.sameRingView (s t : State) (b : RingSel) : Prop :=
  (s.ring b).head = (t.ring b).head ∧ (s.ring b).tail = (t.ring b).tail ∧
    (s.ring b).ready = (t.ring b).ready ∧ s.contents b = t.contents b

/-- Two states that agree on everything an operation can observe: parameters, ports and both rings' views. -/
abbrev State.sameView (s t : State) : Prop :=
  s.cfg = t.cfg ∧ s.inputs = t.inputs ∧ s.outputs = t.outputs ∧ s.sameRingView t .inbound ∧ s.sameRingView t .outbound

/-! ## Roles -/

/-- The operation is a producer operation on ring `b`: it may write `b.tail` and `b.mem` (20_memory R31, R42). -/
def produces (i : Instr) (b : RingSel) : Bool :=
  match i with
  | .rbPut b' _ => b' == b
  | .hsSend _ | .poll | .inject _ => b == .outbound
  | .rxPut _ | .frame _ _ _ | .soh | .stx | .etx => b == .inbound
  | .rbInit _ | .rbGet _ | .rbPeek _ _ | .rbCount _ | .rbFree _ | .rbClear _ | .crc16 _ | .pkBuild _ _ | .pkLocate _ _
  | .pkVerify _ | .pkExtractMsg _ _ | .hsOnMessage _ | .reservedCommand _ _ | .txGet | .isEmpty _ | .isFull _
  | .tokenMarco | .tokenPolo | .tokenOk | .tokenError | .tokenUnknown _ => false

/-- The operation is a consumer operation on ring `b`: it may write `b.head` or reads its bytes (20_memory R31, R42; 70 R199). -/
def consumes (i : Instr) (b : RingSel) : Bool :=
  match i with
  | .rbGet b' | .rbPeek b' _ | .rbClear b' | .pkLocate b' _ => b' == b
  | .poll => b == .inbound
  | .txGet => b == .outbound
  | .rbInit _ | .rbPut _ _ | .rbCount _ | .rbFree _ | .crc16 _ | .pkBuild _ _ | .pkVerify _ | .pkExtractMsg _ _
  | .hsOnMessage _ | .hsSend _ | .inject _ | .reservedCommand _ _ | .rxPut _ | .isEmpty _ | .isFull _ | .frame _ _ _
  | .soh | .stx | .etx | .tokenMarco | .tokenPolo | .tokenOk | .tokenError | .tokenUnknown _ => false

/-- The operation initialises ring `b` (it has no role, R42). -/
def initialises (i : Instr) (b : RingSel) : Bool := i == .rbInit b

/-- The context an operation is executed in: INJECT from the injector in ENG's, "INJECT (executed in ENG's context)"; whatever
else an agent issues, in its own (20_memory R39, 70 R201). -/
def executedIn (who : Agent) (i : Instr) : Agent :=
  match who, i with
  | .inj, .inject _ => .eng
  | a, _ => a

/-- The context and the operation of an input (`none` for reset and for a malformed command). -/
def issuedBy : Input → Option (Agent × Instr)
  | .reset => none
  | .issue who i => some (executedIn who i, i)
  | .command who bytes =>
    match decodeCommand bytes with
    | .ok i => some (executedIn who i, i)
    | .error _ => none

/-- The contexts that issue operations satisfying `p`, in order. -/
def contextsOf (p : Instr → Bool) (l : List Input) : List Agent :=
  (l.filterMap issuedBy).filterMap fun x => if p x.2 then some x.1 else none

/-- A schedule keeps the ownership rule: per ring at most one producer and at most one consumer context (70 R199). -/
abbrev singleProducerConsumer (l : List Input) : Prop :=
  ((contextsOf (fun i => produces i .inbound) l).Pairwise (· = ·) ∧
      (contextsOf (fun i => consumes i .inbound) l).Pairwise (· = ·)) ∧
    (contextsOf (fun i => produces i .outbound) l).Pairwise (· = ·) ∧
      (contextsOf (fun i => consumes i .outbound) l).Pairwise (· = ·)

/-- The injector reaches `OUT` through INJECT alone: what it issues in its own context neither puts into `OUT` nor takes from it
nor initialises it (70 R201: "must not write `OUT` directly"). -/
abbrev injectsThroughInject (l : List Input) : Prop :=
  ∀ x ∈ l.filterMap issuedBy, x.1 = .inj →
    produces x.2 .outbound = false ∧ consumes x.2 .outbound = false ∧ initialises x.2 .outbound = false

/-! ## Stall and quiescence -/

/-- Ring `b` is stalled on an oversize declared length (42 R123): ready, SOH at the head, the length field present, and a declared
length above the usable capacity. -/
abbrev State.stalled (s : State) (b : RingSel) : Prop :=
  (s.ring b).ready = true ∧ 3 ≤ s.count b ∧ s.byteAt b 0 = sohByte ∧ s.size b - 1 < declaredLength b s

/-- Nothing remains to be done (70 R211): `OUT` holds nothing, and a POLL would return INCOMPLETE having trimmed nothing, which
takes both rings ready (43 R147; PK_LOCATE answers INCOMPLETE on a ready ring only). -/
abbrev State.quiescent (s : State) : Prop :=
  (s.ring .outbound).ready = true ∧ s.count .outbound = 0 ∧ locate .inbound s.cfg.pktMax s = (s, .incomplete)

end Sys2Proof.Machine
end

