-- ==== Sys2Proof/Certificates/Slice0/Obligations.lean ====
section
/-! DEFINITION. The statements for the provers. Each docstring names the rules of spec/ it formalises. `fromSoh`-style lets are
written out: `p` is always what is left of a ring's contents once the bytes before the first `0x01` are trimmed. -/

open Sys2Proof
open Sys2Proof.Machine

/-! ## Encodings (30_encoding) -/

/-- R61 to R64, R50, R57: words written out from the encoding tables decode to the operations they stand for. -/
def Obligations.SpecWordsDecode : Prop :=
  decodeCommand [0x01] = .ok (.rbInit .inbound) ∧ decodeCommand [0x81] = .ok (.rbInit .outbound) ∧
  decodeCommand [0x02, 0x41] = .ok (.rbPut .inbound 0x41) ∧ decodeCommand [0x83] = .ok (.rbGet .outbound) ∧
  decodeCommand [0x04, 0x00, 0x02] = .ok (.rbPeek .inbound 2) ∧
  decodeCommand [0x08, 0x00, 0x02, 0x68, 0x69] = .ok (.crc16 [0x68, 0x69]) ∧
  decodeCommand [0x09, 0x00, 0x40, 0x00, 0x02, 0x68, 0x69] = .ok (.pkBuild 64 [0x68, 0x69]) ∧
  decodeCommand [0x8A, 0x00, 0x40] = .ok (.pkLocate .outbound 64) ∧
  decodeCommand [0x0E, 0x02] = .ok (.hsSend 2) ∧ decodeCommand [0x0F] = .ok .poll ∧
  decodeCommand [0x21] = .ok (.reservedCommand 0x21 []) ∧ decodeCommand [0x02] = .error .tooShort ∧
  decodeFrame [0x01, 0x00, 0x09, 0x02, 0x68, 0x69, 0x03, 0x4E, 0x6E] = .ok (.frame 9 [0x68, 0x69] 0x4E6E) ∧
  decodeToken false [0x6F, 0x6B] = .tokenOk

/-- Decoding an encoded well-formed operation gives it back, every operand at every value; a pseudo-operation gives its
expansion (R61, R70, R50, R57). -/
def Obligations.DecodeOfEncode : Prop :=
  ∀ (nul : Bool) (i : Instr), i.wellFormed nul = true → decodeIn nul i.space (encode nul i) = .ok i.expand

/-- Every byte string the command port's decoder accepts is the encoding of what it reads, which is well formed (R61, R62). -/
def Obligations.EncodeOfDecode : Prop :=
  ∀ (bytes : List Byte) (i : Instr) (nul : Bool), decodeCommand bytes = .ok i →
    encode nul i = bytes ∧ i.wellFormed nul = true ∧ i.space = .command ∧ i.expand = i

/-- R64: the reserved command bytes, and HS_SEND with a reserved reply id, are answered BADARG and change no state. -/
def Obligations.ReservedCommandsAnswerBadarg : Prop :=
  (∀ (c : Byte) (rest : List Byte) (s : State),
    (c.toNat % 32 = 0 ∨ 0x11 ≤ c.toNat % 32 ∨ c.getLsbD 6 = true ∨ c.getLsbD 5 = true ∨
      (c.getLsbD 7 = true ∧ c.toNat % 32 ∉ [0x01, 0x02, 0x03, 0x04, 0x05, 0x06, 0x07, 0x0A])) →
    decodeCommand (c :: rest) = .ok (.reservedCommand c rest) ∧
      exec (.reservedCommand c rest) s = .next (s.respond .badarg [])) ∧
  (∀ (r : Byte) (s : State), r ≠ 2 → r ≠ 3 → r ≠ 4 →
    decodeCommand [0x0E, r] = .ok (.hsSend r) ∧ exec (.hsSend r) s = .next (s.respond .badarg []))

/-- R62: a `u16` operand is big-endian, and a command shorter or longer than its format requires is answered BADARG with no
state change. -/
def Obligations.MalformedCommandsAnswerBadarg : Prop :=
  (∀ hi lo : Byte, (be16 hi lo).toNat = hi.toNat * 256 + lo.toNat) ∧
  ∀ (s : State) (who : Agent) (c : Byte) (operands : List Byte) (rest : List Input),
    s.inputs = .command who (c :: operands) :: rest → reservedByte c = false →
    (c :: operands).length ≠ commandLength (c :: operands) →
    step s = .next ({ s with inputs := rest }.respond .badarg [])

/-! ## Steps and reset -/

/-- R38, R60: a step performs the oldest presented input whole: the operation a command decodes to, an operation handed over as
such, BADARG for bytes no format fits, the reset event, or nothing when nothing is presented. That inputs stand in State is the
model's choice (log 5); so is BADARG for a command of no bytes, which R62 does not name (log 8). -/
def Obligations.StepRunsPresentedOperation : Prop :=
  ∀ (s : State) (rest : List Input),
    (∀ who bytes i, s.inputs = .command who bytes :: rest → decodeCommand bytes = .ok i →
      step s = exec i { s with inputs := rest }) ∧
    (∀ who i, s.inputs = .issue who i :: rest → step s = exec i { s with inputs := rest }) ∧
    (∀ who bytes e, s.inputs = .command who bytes :: rest → decodeCommand bytes = .error e →
      step s = .next ({ s with inputs := rest }.respond .badarg [])) ∧
    (s.inputs = .reset :: rest → step s = .next (resetEvent { s with inputs := rest })) ∧
    (s.inputs = [] → step s = .next s)

/-- R195, R23: reset puts both rings to `ready = 0`, `head = tail = 0`, storage unspecified, both status outputs 0; the parameters
are not affected. That storage is unspecified reads as no slot having a written byte (log 3), and that the queued inputs and the
given answers stay (log 12): these two clauses are the model's choice. -/
def Obligations.ResetEventClearsBothRings : Prop :=
  ∀ (s : State) (rest : List Input), s.inputs = .reset :: rest →
    ∃ t, step s = .next t ∧ t.cfg = s.cfg ∧ t.inputs = rest ∧ t.outputs = s.outputs ∧
      ∀ b, (t.ring b).ready = false ∧ (t.ring b).head = 0 ∧ (t.ring b).tail = 0 ∧
        (∀ x, Memory.read (t.ring b).mem x = none) ∧ t.emptyOutput b = false ∧ t.fullOutput b = false

/-- The state right after reset, in every legal configuration, satisfies the invariant (R15, R23). -/
def Obligations.ResetSatisfiesInv : Prop :=
  ∀ c : Config, (State.resetWith c).Inv ∧ ∀ b, ((State.resetWith c).ring b).ready = false ∧ (State.resetWith c).count b = 0

/-- R5, R207: exactly the configurations with `SIZE = 0`, a size above 65536, or `PKT_MAX` outside 13 to 65535 cannot be built;
one that is built has the parameters asked for, and `MSG_MAX = PKT_MAX - 6`. That a size above 65536 cannot be built is the model's
choice (log 2): R5 calls it illegal, and R207 names only `SIZE = 0` and the `PKT_MAX` bounds as refused. -/
def Obligations.OnlyIllegalConfigurationsRefused : Prop :=
  ∀ (inSize outSize pktMax : Nat) (nul : Bool),
    (Config.make inSize outSize pktMax nul = none ↔
      inSize = 0 ∨ 65536 < inSize ∨ outSize = 0 ∨ 65536 < outSize ∨ pktMax < 13 ∨ 65535 < pktMax) ∧
    ∀ c, Config.make inSize outSize pktMax nul = some c →
      c.size .inbound = inSize ∧ c.size .outbound = outSize ∧ c.pktMax = pktMax ∧ c.tokenNul = nul ∧ c.msgMax + 6 = pktMax

/-! ## RingBuffer operations (40_ringbuffer) -/

/-- R80, R24: RB_INIT always answers OK and leaves `ready = 1`, `head = tail = 0`, the ring empty, storage not written. -/
def Obligations.RbInitEmptiesTheRing : Prop :=
  ∀ (b : RingSel) (s : State), decodeCommand [commandByte b 0x01] = .ok (.rbInit b) ∧
    ∃ t, exec (.rbInit b) s = .next t ∧ s.answersOn b (.response ⟨.ok, []⟩) t ∧
      (t.ring b).ready = true ∧ (t.ring b).head = 0 ∧ (t.ring b).tail = 0 ∧ t.count b = 0 ∧
      (t.ring b).mem = (s.ring b).mem

/-- R81: RB_PUT, all of its results: BADARG, FULL, or the byte stored at `tail` and the tail advanced; every other slot, the head
and the other ring unchanged. -/
def Obligations.RbPutStoresAtTail : Prop :=
  ∀ (b : RingSel) (v : Byte) (s : State), s.ringInv b →
    decodeCommand [commandByte b 0x02, v] = .ok (.rbPut b v) ∧
    ((s.ring b).ready = false → exec (.rbPut b v) s = .next (s.respond .badarg [])) ∧
    ((s.ring b).ready = true → ((s.ring b).tail + 1) % s.size b = (s.ring b).head →
      exec (.rbPut b v) s = .next (s.respond .full [])) ∧
    ((s.ring b).ready = true → ((s.ring b).tail + 1) % s.size b ≠ (s.ring b).head →
      ∃ t, exec (.rbPut b v) s = .next t ∧ s.answersOn b (.response ⟨.ok, []⟩) t ∧ s.headKept b t ∧
        (t.ring b).tail = ((s.ring b).tail + 1) % s.size b ∧ t.count b = s.count b + 1 ∧
        ∀ x < s.size b, t.memRead b x = if x = (s.ring b).tail then v else s.memRead b x)

/-- R82: RB_GET, all of its results: BADARG, EMPTY, or the byte at `head` delivered and the head advanced; tail and storage
unchanged. -/
def Obligations.RbGetTakesFromHead : Prop :=
  ∀ (b : RingSel) (s : State), decodeCommand [commandByte b 0x03] = .ok (.rbGet b) ∧
    ((s.ring b).ready = false → exec (.rbGet b) s = .next (s.respond .badarg [])) ∧
    ((s.ring b).ready = true → (s.ring b).head = (s.ring b).tail → exec (.rbGet b) s = .next (s.respond .empty [])) ∧
    ((s.ring b).ready = true → (s.ring b).head ≠ (s.ring b).tail →
      ∃ t, exec (.rbGet b) s = .next t ∧ s.answersOn b (.response ⟨.ok, [s.memRead b (s.ring b).head]⟩) t ∧
        s.headMoved b t ∧ (t.ring b).head = ((s.ring b).head + 1) % s.size b)

/-- R83: RB_PEEK, all of its results; no state changed; the slot is `(head + off) mod SIZE`. -/
def Obligations.RbPeekReadsWithoutConsuming : Prop :=
  ∀ (b : RingSel) (off : Half) (s : State),
    decodeCommand [commandByte b 0x04, hiByte off, loByte off] = .ok (.rbPeek b off) ∧
    ((s.ring b).ready = false → exec (.rbPeek b off) s = .next (s.respond .badarg [])) ∧
    ((s.ring b).ready = true → s.count b ≤ off.toNat → exec (.rbPeek b off) s = .next (s.respond .empty [])) ∧
    ((s.ring b).ready = true → off.toNat < s.count b →
      exec (.rbPeek b off) s = .next (s.respond .ok [s.memRead b (((s.ring b).head + off.toNat) % s.size b)]))

/-- R84: RB_COUNT answers the number of occupied bytes, in its two cases, high byte first; no state changed. -/
def Obligations.RbCountAnswersOccupied : Prop :=
  ∀ (b : RingSel) (s : State), s.ringInv b → decodeCommand [commandByte b 0x05] = .ok (.rbCount b) ∧
    ((s.ring b).ready = false → exec (.rbCount b) s = .next (s.respond .badarg [])) ∧
    ((s.ring b).ready = true → ∃ hi lo : Byte, exec (.rbCount b) s = .next (s.respond .ok [hi, lo]) ∧
      hi.toNat * 256 + lo.toNat =
        if (s.ring b).head ≤ (s.ring b).tail then (s.ring b).tail - (s.ring b).head
        else s.size b - ((s.ring b).head - (s.ring b).tail))

/-- R85: RB_FREE answers `SIZE - 1 - count`, high byte first; no state changed. -/
def Obligations.RbFreeAnswersRoom : Prop :=
  ∀ (b : RingSel) (s : State), s.ringInv b → decodeCommand [commandByte b 0x06] = .ok (.rbFree b) ∧
    ((s.ring b).ready = false → exec (.rbFree b) s = .next (s.respond .badarg [])) ∧
    ((s.ring b).ready = true → ∃ hi lo : Byte, exec (.rbFree b) s = .next (s.respond .ok [hi, lo]) ∧
      hi.toNat * 256 + lo.toNat + s.count b + 1 = s.size b)

/-- R86: RB_CLEAR sets `head = tail`, discarding all occupied bytes; the tail and the storage keep their values. -/
def Obligations.RbClearSetsHeadToTail : Prop :=
  ∀ (b : RingSel) (s : State), decodeCommand [commandByte b 0x07] = .ok (.rbClear b) ∧
    ((s.ring b).ready = false → exec (.rbClear b) s = .next (s.respond .badarg [])) ∧
    ((s.ring b).ready = true →
      ∃ t, exec (.rbClear b) s = .next t ∧ s.answersOn b (.response ⟨.ok, []⟩) t ∧ s.headMoved b t ∧
        (t.ring b).head = (s.ring b).tail ∧ t.count b = 0)

/-- R87: every operation that would touch a ring that is not ready answers BADARG (dropped on the RX port, no byte on the TX
port) and changes no state. -/
def Obligations.NotReadyRingAnswersBadarg : Prop :=
  ∀ (s : State) (b : RingSel), (s.ring b).ready = false →
    (∀ (v : Byte) (off cap : Half),
      ∀ i ∈ [Instr.rbPut b v, .rbGet b, .rbPeek b off, .rbCount b, .rbFree b, .rbClear b, .pkLocate b cap, .poll],
        exec i s = .next (s.respond .badarg [])) ∧
    (b = .outbound → (∀ r, exec (.hsSend r) s = .next (s.respond .badarg [])) ∧
      (∀ data, exec (.inject data) s = .next (s.respond .badarg [])) ∧ exec .txGet s = .next (s.emit (.tx none))) ∧
    (b = .inbound → ∀ v, exec (.rxPut v) s = .next (s.emit (.rx false)))

/-- R89: `count + free` is the usable capacity, for every sound ring and after every sequence of inputs from reset. -/
def Obligations.CountPlusFreeIsUsableCapacity : Prop :=
  (∀ (s : State) (b : RingSel), s.ringInv b → s.count b + s.free b = s.size b - 1) ∧
  ∀ (c : Config) (l : List Input) (n : Nat) (t : State),
    core.run n { State.resetWith c with inputs := l } = .next t →
      ∀ b, (t.ring b).ready = true → t.count b + t.free b = c.size b - 1

/-- R90, R93: full exactly when `free = 0`, empty exactly when `count = 0`, never both for `SIZE >= 2`; and the two-case count is
`(tail - head) mod SIZE`. -/
def Obligations.FullEmptyAndCountAgree : Prop :=
  ∀ (s : State) (b : RingSel), s.ringInv b →
    (((s.ring b).tail + 1) % s.size b = (s.ring b).head ↔ s.free b = 0) ∧
    (s.free b = 0 ↔ s.count b = s.size b - 1) ∧
    ((s.ring b).head = (s.ring b).tail ↔ s.count b = 0) ∧
    (2 ≤ s.size b → ¬ (s.free b = 0 ∧ s.count b = 0)) ∧
    (s.count b : Int) = ((s.ring b).tail - (s.ring b).head : Int) % (s.size b : Int)

/-- R94: the status outputs equal the full and empty conditions of a ready ring and read 0 while it is not ready; IS_EMPTY and
IS_FULL answer them (log 19). -/
def Obligations.StatusOutputsReadTheRing : Prop :=
  ∀ (s : State) (b : RingSel), s.ringInv b →
    (s.emptyOutput b = true ↔ (s.ring b).ready = true ∧ s.count b = 0) ∧
    (s.fullOutput b = true ↔ (s.ring b).ready = true ∧ s.free b = 0) ∧
    exec (.isEmpty b) s = .next (s.emit (.status (s.emptyOutput b))) ∧
    exec (.isFull b) s = .next (s.emit (.status (s.fullOutput b)))

/-- R91, R40: N puts followed by N gets, N up to the usable capacity, return the bytes inserted, in the same order. More generally,
after any sequence of puts and gets the bytes delivered by the gets and then the bytes left in the ring are the bytes it held and
then those accepted by the puts: the `k`-th byte put is the `k`-th byte got. -/
def Obligations.PutsThenGetsReturnTheBytes : Prop :=
  (∀ (s : State) (b : RingSel) (data : List Byte) (who : Agent) (rest : List Input),
    s.ringInv b → (s.ring b).ready = true → s.count b = 0 → data.length ≤ s.size b - 1 →
    s.inputs = data.map (fun v => Input.issue who (.rbPut b v)) ++
      List.replicate data.length (Input.issue who (.rbGet b)) ++ rest →
    ∃ t, core.run (2 * data.length) s = .next t ∧ t.inputs = rest ∧ t.count b = 0 ∧
      t.outputs = s.outputs ++ List.replicate data.length (.response ⟨.ok, []⟩) ++
        data.map fun v => Output.response ⟨.ok, [v]⟩) ∧
  ∀ (s : State) (b : RingSel) (ops : List (Agent × Option Byte)) (rest : List Input), s.ringInv b → (s.ring b).ready = true →
    s.inputs = ops.map (fun x => Input.issue x.1 (putOrGet b x.2)) ++ rest →
    ∃ t answers, core.run ops.length s = .next t ∧ t.inputs = rest ∧ answers.length = ops.length ∧
      t.outputs = s.outputs ++ answers.map Output.response ∧
      deliveredBytes (ops.map Prod.snd) answers ++ t.contents b = s.contents b ++ acceptedBytes (ops.map Prod.snd) answers

/-- R40, R91, R88: whatever the operation, RB_INIT of the ring apart, it takes `k` bytes from the front of a ring's contents, moving
the head by `k` (none, unless it is a consumer operation), and adds behind them those of the bytes it offers that fit, moving the
tail by their number: no reordering, and nothing in the ring that was not put. -/
def Obligations.ContentsMoveFirstInFirstOut : Prop :=
  ∀ (i : Instr) (s t : State) (b : RingSel), s.Inv → i ≠ .rbInit b → exec i s = .next t →
    let added := if (s.ring b).ready = true then (offered i b s).take (s.free b) else []
    ∃ k ≤ s.count b, (consumes i b = false → k = 0) ∧
      (t.ring b).head = ((s.ring b).head + k) % s.size b ∧
      (t.ring b).tail = ((s.ring b).tail + added.length) % s.size b ∧
      t.contents b = (s.contents b).drop k ++ added

/-- R96: a ring of one slot is empty and full at once. -/
def Obligations.OneSlotRingIsEmptyAndFull : Prop :=
  ∀ (s : State) (b : RingSel), s.ringInv b → s.size b = 1 →
    (s.ring b).head = 0 ∧ (s.ring b).tail = 0 ∧ s.count b = 0 ∧ s.free b = 0 ∧
    ((s.ring b).ready = true → s.emptyOutput b = true ∧ s.fullOutput b = true ∧
      (∀ v, exec (.rbPut b v) s = .next (s.respond .full [])) ∧ exec (.rbGet b) s = .next (s.respond .empty []) ∧
      ∀ off, exec (.rbPeek b off) s = .next (s.respond .empty []))

/-! ## CRC-16 (41_crc16) -/

/-- R101, R102: one round shifts left by one and XORs `0x1021` when bit 15 was set; one byte is XORed into the top byte and
followed by eight rounds. -/
def Obligations.CrcRoundAndByteUpdate : Prop :=
  (∀ a : Half, (crcRound a).toNat =
    if 0x8000 ≤ a.toNat then (a.toNat * 2 % 65536) ^^^ 0x1021 else a.toNat * 2 % 65536) ∧
  ∀ (a : Half) (d : Byte), crcUpdate a d =
    crcRound (crcRound (crcRound (crcRound (crcRound (crcRound (crcRound (crcRound
      (a ^^^ (d.setWidth 16 * 256)))))))))

/-- R103: CRC16 answers OK with the checksum, high byte first, folding the bytes in order from `0x0000`; no state. -/
def Obligations.Crc16AnswersChecksum : Prop :=
  (∀ (data : List Byte) (s : State), exec (.crc16 data) s =
    .next (s.respond .ok [hiByte (data.foldl crcUpdate 0x0000), loByte (data.foldl crcUpdate 0x0000)])) ∧
  ∀ data : List Byte, data.length ≤ 65535 →
    decodeCommand (0x08 :: be16Bytes (BitVec.ofNat 16 data.length) ++ data) = .ok (.crc16 data)

/-- R104: the checksum of nothing and of zero bytes is `0x0000`, and leading zero bytes do not change a checksum. -/
def Obligations.LeadingZerosKeepChecksum : Prop :=
  ∀ (n : Nat) (data : List Byte),
    crc16 [] = 0 ∧ crc16 (List.replicate n 0x00) = 0 ∧ crc16 (List.replicate n 0x00 ++ data) = crc16 data

/-- R105: running the checksum over a sequence and two further bytes gives zero exactly when they are its checksum. -/
def Obligations.ResidueIsZeroExactlyOnMatch : Prop :=
  ∀ (m : List Byte) (hi lo : Byte), crc16 (m ++ [hi, lo]) = 0 ↔ be16 hi lo = crc16 m

/-! ## Packet codec (42_packet_codec) -/

/-- R110: PK_BUILD, all of its results; no state. -/
def Obligations.PkBuildFramesTheMessage : Prop :=
  ∀ (cap : Half) (msg : List Byte) (s : State),
    (msg.length ≤ 65535 → decodeCommand (0x09 :: be16Bytes cap ++ be16Bytes (BitVec.ofNat 16 msg.length) ++ msg) =
      .ok (.pkBuild cap msg)) ∧
    (msg.length = 0 → exec (.pkBuild cap msg) s = .next (s.respond .badarg [])) ∧
    (65535 < 7 + msg.length → exec (.pkBuild cap msg) s = .next (s.respond .badarg [])) ∧
    (1 ≤ msg.length → 7 + msg.length ≤ 65535 → cap.toNat < 7 + msg.length →
      exec (.pkBuild cap msg) s = .next (s.respond .overflow [])) ∧
    (1 ≤ msg.length → 7 + msg.length ≤ 65535 → 7 + msg.length ≤ cap.toNat →
      let len : Half := BitVec.ofNat 16 (7 + msg.length)
      let p : List Byte := [0x01, hiByte len, loByte len, 0x02] ++ msg ++ [0x03]
      exec (.pkBuild cap msg) s =
        .next (s.respond .ok ([hiByte len, loByte len] ++ (p ++ [hiByte (crc16 p), loByte (crc16 p)]))))

/-- R120: PK_VERIFY, the six checks in order, the first failing reason; no state. -/
def Obligations.PkVerifyChecksInOrder : Prop :=
  ∀ (pkt : List Byte) (s : State),
    (pkt.length ≤ 65535 → decodeCommand (0x0B :: be16Bytes (BitVec.ofNat 16 pkt.length) ++ pkt) = .ok (.pkVerify pkt)) ∧
    exec (.pkVerify pkt) s = .next (
      if pkt.length < 7 then s.respond .verifyFail [1]
      else if pkt.getD 0 0 ≠ 0x01 then s.respond .verifyFail [2]
      else if pkt.getD 3 0 ≠ 0x02 then s.respond .verifyFail [3]
      else if pkt.getD (pkt.length - 3) 0 ≠ 0x03 then s.respond .verifyFail [4]
      else if (pkt.getD 1 0).toNat * 256 + (pkt.getD 2 0).toNat ≠ pkt.length then s.respond .verifyFail [5]
      else if (crc16 (pkt.take (pkt.length - 2))).toNat ≠
          (pkt.getD (pkt.length - 2) 0).toNat * 256 + (pkt.getD (pkt.length - 1) 0).toNat then s.respond .verifyFail [6]
      else s.respond .ok [])

/-- R50, R51, R53, R120: PK_VERIFY accepts exactly the byte strings that are frames with agreeing length and checksum fields. -/
def Obligations.VerifyAcceptsExactlyFrames : Prop :=
  ∀ pkt : List Byte, verify pkt = none ↔
    ∃ (len : Half) (msg : List Byte) (crc : Half),
      (Instr.frame len msg crc).wellFormed false = true ∧ pkt = frameBytes len msg crc

/-- R121: PK_EXTRACT_MSG, all of its results; nothing is re-checked; no state. -/
def Obligations.PkExtractMsgCopiesThePayload : Prop :=
  ∀ (cap : Half) (pkt : List Byte) (s : State),
    (pkt.length ≤ 65535 → decodeCommand (0x0C :: be16Bytes cap ++ be16Bytes (BitVec.ofNat 16 pkt.length) ++ pkt) =
      .ok (.pkExtractMsg cap pkt)) ∧
    (pkt.length < 7 → exec (.pkExtractMsg cap pkt) s = .next (s.respond .badarg [])) ∧
    (7 ≤ pkt.length → cap.toNat < pkt.length - 7 + 1 → exec (.pkExtractMsg cap pkt) s = .next (s.respond .overflow [])) ∧
    (7 ≤ pkt.length → pkt.length - 7 + 1 ≤ cap.toNat →
      exec (.pkExtractMsg cap pkt) s =
        .next (s.respond .ok (be16Bytes (BitVec.ofNat 16 (pkt.length - 7)) ++ (pkt.drop 4).take (pkt.length - 7) ++ [0x00])))

/-- R124: build, then verify, then extract message, give the message back, for every length that fits the two capacities. -/
def Obligations.BuildVerifyExtractRoundTrip : Prop :=
  ∀ (cap cap' : Half) (msg : List Byte) (s : State), 1 ≤ msg.length → 7 + msg.length ≤ cap.toNat → msg.length + 1 ≤ cap'.toNat →
    ∃ pkt : List Byte, pkt.length = 7 + msg.length ∧
      exec (.pkBuild cap msg) s = .next (s.respond .ok (be16Bytes (BitVec.ofNat 16 pkt.length) ++ pkt)) ∧
      exec (.pkVerify pkt) s = .next (s.respond .ok []) ∧
      exec (.pkExtractMsg cap' pkt) s =
        .next (s.respond .ok (be16Bytes (BitVec.ofNat 16 msg.length) ++ msg ++ [0x00]))

/-- R125: flipping any single bit of a built packet makes PK_VERIFY fail, with the reason the position decides: BAD_SOH (2),
LEN_MISMATCH (5), BAD_STX (3), BAD_CRC (6), BAD_ETX (4). -/
def Obligations.SingleBitFlipFailsVerify : Prop :=
  ∀ (cap : Half) (msg pkt : List Byte) (s : State), build cap.toNat msg = .ok pkt →
    ∀ idx < pkt.length, ∀ bit < 8,
      exec (.pkVerify (pkt.set idx (pkt.getD idx 0 ^^^ BitVec.ofNat 8 (2 ^ bit)))) s = .next (s.respond .verifyFail [
        if idx = 0 then 2
        else if idx ≤ 2 then 5
        else if idx = 3 then 3
        else if idx < pkt.length - 3 then 6
        else if idx = pkt.length - 3 then 4
        else 6])

/-- R119: the table of PK_LOCATE's results, on the bytes of the ring: what is answered, what is removed, what is delivered. -/
def Obligations.PkLocateTable : Prop :=
  ∀ (b : RingSel) (cap : Half) (s : State), s.ringInv b →
    decodeCommand [commandByte b 0x0A, hiByte cap, loByte cap] = .ok (.pkLocate b cap) ∧
    ((s.ring b).ready = false ∨ cap.toNat = 0 → exec (.pkLocate b cap) s = .next (s.respond .badarg [])) ∧
    ((s.ring b).ready = true → cap.toNat ≠ 0 →
      let p := (s.contents b).dropWhile fun v => v != 0x01
      let len := (p.getD 1 0).toNat * 256 + (p.getD 2 0).toNat
      ∃ t c payload left, exec (.pkLocate b cap) s = .next t ∧ s.answersOn b (.response ⟨c, payload⟩) t ∧ s.headMoved b t ∧
        t.contents b = left ∧
        (c, payload, left) =
          if p.length < 7 then (.incomplete, [], p)
          else if p.length < len then (.incomplete, [], p)
          else if len < 3 ∨ p.getD (len - 3) 0 ≠ 0x03 then (.malformed, [], p)
          else if cap.toNat < len then (.overflow, be16Bytes (BitVec.ofNat 16 len), p.drop len)
          else (.ok, be16Bytes (BitVec.ofNat 16 len) ++ p.take len, p.drop len))

/-- R126: bytes without SOH before a built frame are discarded and the frame is returned unaffected; what follows it stays. -/
def Obligations.LocateResynchronises : Prop :=
  ∀ (b : RingSel) (cap : Half) (s : State) (garbage msg pkt rest : List Byte), s.ringInv b → (s.ring b).ready = true →
    (∀ v ∈ garbage, v ≠ 0x01) → build cap.toNat msg = .ok pkt → s.contents b = garbage ++ pkt ++ rest →
    ∃ t, exec (.pkLocate b cap) s = .next t ∧
      s.answersOn b (.response ⟨.ok, be16Bytes (BitVec.ofNat 16 pkt.length) ++ pkt⟩) t ∧ t.contents b = rest

/-- R127: a valid frame (one PK_VERIFY accepts, R120, the 7-byte frame of the empty message included) fed into an empty ring one
byte at a time: INCOMPLETE until its last byte, then the whole frame exactly once, and a further call finds an empty ring. -/
def Obligations.FrameArrivingByteByByte : Prop :=
  ∀ (s : State) (b : RingSel) (who who' : Agent) (cap : Half) (pkt : List Byte) (rest : List Input), s.ringInv b →
    (s.ring b).ready = true → s.count b = 0 → verify pkt = none → pkt.length ≤ s.size b - 1 → pkt.length ≤ cap.toNat →
    s.inputs = (pkt.flatMap fun v => [Input.issue who (.rbPut b v), .issue who' (.pkLocate b cap)]) ++
      Input.issue who' (.pkLocate b cap) :: rest →
    ∃ t, core.run (2 * pkt.length + 1) s = .next t ∧ t.inputs = rest ∧ t.contents b = [] ∧
      t.outputs = s.outputs ++ (pkt.dropLast.flatMap fun _ => [Output.response ⟨.ok, []⟩, .response ⟨.incomplete, []⟩]) ++
        [.response ⟨.ok, []⟩, .response ⟨.ok, be16Bytes (BitVec.ofNat 16 pkt.length) ++ pkt⟩, .response ⟨.incomplete, []⟩]

/-- R122: declared lengths 3 to 6, with seven or more bytes present and SOH at the head. -/
def Obligations.ShortDeclaredLengths : Prop :=
  ∀ (b : RingSel) (cap : Half) (s : State), s.ringInv b → (s.ring b).ready = true → cap.toNat ≠ 0 → 7 ≤ s.count b →
    s.byteAt b 0 = 0x01 →
    ((declaredLength b s = 3 ∨ declaredLength b s = 4 ∨ declaredLength b s = 5) →
      exec (.pkLocate b cap) s = .next (s.respond .malformed [])) ∧
    (declaredLength b s = 6 → s.byteAt b 3 ≠ 0x03 → exec (.pkLocate b cap) s = .next (s.respond .malformed [])) ∧
    (declaredLength b s = 6 → s.byteAt b 3 = 0x03 → 6 ≤ cap.toNat →
      ∃ t, exec (.pkLocate b cap) s = .next t ∧ s.answersOn b (.response ⟨.ok, [0x00, 0x06] ++ s.front b 6⟩) t ∧
        t.contents b = (s.contents b).drop 6 ∧
        exec (.pkVerify (s.front b 6)) s = .next (s.respond .verifyFail [1]))

/-- R123, R202: an SOH at the head followed by a declared length above the usable capacity stalls the ring: every PK_LOCATE and
every POLL answers INCOMPLETE and removes nothing, and no operation ends the stall but one that initialises, clears or gets
from the ring (log 20). -/
def Obligations.OversizeLengthStallsTheRing : Prop :=
  ∀ (s : State) (b : RingSel), s.Inv → s.stalled b →
    (∀ cap : Half, cap.toNat ≠ 0 → exec (.pkLocate b cap) s = .next (s.respond .incomplete [])) ∧
    (b = .inbound → (s.ring .outbound).ready = true → exec .poll s = .next (s.respond .incomplete [])) ∧
    ∀ (i : Instr) (t : State), i ≠ .rbInit b → i ≠ .rbClear b → i ≠ .rbGet b → (b = .outbound → i ≠ .txGet) →
      exec i s = .next t → t.stalled b

/-! ## Handshake, reply path, protocol cycle (43_handshake_and_link) -/

/-- R57, R58: the bytes and ids of the tokens, with one trailing `0x00` exactly when `TOKEN_NUL = 1`, as emitted and as
recognised; any other payload is UNKNOWN. -/
def Obligations.TokenPayloadBytes : Prop :=
  tokenBytes false .marco = [0x6D, 0x61, 0x72, 0x63, 0x6F] ∧ tokenBytes false .polo = [0x70, 0x6F, 0x6C, 0x6F] ∧
  tokenBytes false .ok = [0x6F, 0x6B] ∧ tokenBytes false .error = [0x65, 0x72, 0x72, 0x6F, 0x72] ∧
  tokenId .marco = 1 ∧ tokenId .polo = 2 ∧ tokenId .ok = 3 ∧ tokenId .error = 4 ∧ tokenId .unknown = 0 ∧
  (∀ t ∈ [Token.marco, .polo, .ok, .error], tokenBytes true t = tokenBytes false t ++ [0x00]) ∧
  (∀ nul, ∀ t ∈ [Token.marco, .polo, .ok, .error], recognize nul (tokenBytes nul t) = t) ∧
  ∀ nul msg, (∀ t ∈ [Token.marco, .polo, .ok, .error], msg ≠ tokenBytes nul t) → recognize nul msg = .unknown

/-- R140, R141, R143: the handshake table on every message: exact match of length and every byte, else UNKNOWN and `error`;
no state. -/
def Obligations.HandshakeTable : Prop :=
  (∀ msg : List Byte, msg.length ≤ 65535 →
    decodeCommand (0x0D :: be16Bytes (BitVec.ofNat 16 msg.length) ++ msg) = .ok (.hsOnMessage msg)) ∧
  ∀ s : State,
    exec (.hsOnMessage (tokenBytes s.cfg.tokenNul .marco)) s = .next (s.respond .ok [1, 2]) ∧
    exec (.hsOnMessage (tokenBytes s.cfg.tokenNul .polo)) s = .next (s.respond .ok [2, 3]) ∧
    exec (.hsOnMessage (tokenBytes s.cfg.tokenNul .ok)) s = .next (s.respond .ok [3, 0]) ∧
    exec (.hsOnMessage (tokenBytes s.cfg.tokenNul .error)) s = .next (s.respond .ok [4, 0]) ∧
    ∀ msg, (∀ t ∈ [Token.marco, .polo, .ok, .error], msg ≠ tokenBytes s.cfg.tokenNul t) →
      exec (.hsOnMessage msg) s = .next (s.respond .ok [0, 4])

/-- R57, R141, R144: the token rows of the table, each answered with its token id and reply id (log 11: the meaning of a token
row is the model's choice). -/
def Obligations.TokenRowsLookUpTheTable : Prop :=
  ∀ s : State,
    exec .tokenMarco s = .next (s.respond .ok [1, 2]) ∧ exec .tokenPolo s = .next (s.respond .ok [2, 3]) ∧
    exec .tokenOk s = .next (s.respond .ok [3, 0]) ∧ exec .tokenError s = .next (s.respond .ok [4, 0]) ∧
    exec (.tokenUnknown []) s = .next (s.respond .ok [0, 4]) ∧
    ∀ msg, (∀ t ∈ [Token.marco, .polo, .ok, .error], msg ≠ tokenBytes s.cfg.tokenNul t) →
      exec (.tokenUnknown msg) s = .next (s.respond .ok [0, 4])

/-- R145, R146: HS_SEND frames the reply and enqueues it into `OUT`: whole if it fits, else the bytes that fit, reported
SEND_FAILED with their number; BADARG when `OUT` is not ready or the reply id is not one. -/
def Obligations.HsSendEnqueuesTheReply : Prop :=
  ∀ (r : Byte) (s : State), s.ringInv .outbound → decodeCommand [0x0E, r] = .ok (.hsSend r) ∧
    ((s.ring .outbound).ready = false ∨ (r ≠ 2 ∧ r ≠ 3 ∧ r ≠ 4) → exec (.hsSend r) s = .next (s.respond .badarg [])) ∧
    ∀ tok : Token, (s.ring .outbound).ready = true → (r = 2 ∧ tok = .polo ∨ r = 3 ∧ tok = .ok ∨ r = 4 ∧ tok = .error) →
      ∃ pkt, build s.cfg.pktMax (tokenBytes s.cfg.tokenNul tok) = .ok pkt ∧
        (pkt.length ≤ s.free .outbound →
          ∃ t, exec (.hsSend r) s = .next t ∧
            s.answersOn .outbound (.response ⟨.ok, be16Bytes (BitVec.ofNat 16 pkt.length)⟩) t ∧ s.headKept .outbound t ∧
            t.contents .outbound = s.contents .outbound ++ pkt) ∧
        (s.free .outbound < pkt.length →
          ∃ t, exec (.hsSend r) s = .next t ∧
            s.answersOn .outbound (.response ⟨.sendFailed, be16Bytes (BitVec.ofNat 16 (s.free .outbound))⟩) t ∧
            s.headKept .outbound t ∧
            t.contents .outbound = s.contents .outbound ++ pkt.take (s.free .outbound))

/-- R147, R148, R149: the table of POLL's outcomes: what is answered, what is removed from `IN`, what is added to `OUT`. POLL
writes `IN.head`, `OUT.tail` and `OUT.mem` only. -/
def Obligations.PollTable : Prop :=
  ∀ s : State, s.Inv → decodeCommand [0x0F] = .ok .poll ∧
    ((s.ring .inbound).ready = false ∨ (s.ring .outbound).ready = false → exec .poll s = .next (s.respond .badarg [])) ∧
    ((s.ring .inbound).ready = true → (s.ring .outbound).ready = true →
      let p := (s.contents .inbound).dropWhile fun v => v != 0x01
      let len := (p.getD 1 0).toNat * 256 + (p.getD 2 0).toNat
      let tok := recognize s.cfg.tokenNul ((p.drop 4).take (len - 7))
      let reply := replyTo tok
      let pkt := match reply with
        | none => []
        | some r => frameOf (tokenBytes s.cfg.tokenNul r)
      ∃ t c payload left added, exec .poll s = .next t ∧
        t.cfg = s.cfg ∧ t.inputs = s.inputs ∧ t.outputs = s.outputs ++ [.response ⟨c, payload⟩] ∧
        s.headMoved .inbound t ∧ s.headKept .outbound t ∧
        t.contents .inbound = left ∧ t.contents .outbound = s.contents .outbound ++ added ∧
        (c, payload, left, added) =
          if p.length < 7 ∨ p.length < len then (.incomplete, [], p, [])
          else if len < 3 ∨ p.getD (len - 3) 0 ≠ 0x03 then (.malformed, [], p.drop 1, [])
          else if s.cfg.pktMax < len then (.overflow, be16Bytes (BitVec.ofNat 16 len), p.drop len, [])
          else match verify (p.take len) with
            | some reason => (.verifyFail, [reason.byte], p.drop len, [])
            | none =>
              if pkt.length ≤ s.free .outbound then (.ok, [tokenId tok, replyId reply], p.drop len, pkt)
              else (.sendFailed, [tokenId tok, replyId reply] ++ be16Bytes (BitVec.ofNat 16 (s.free .outbound)), p.drop len,
                pkt.take (s.free .outbound)))

/-- R153: the handshake scenarios, with `TOKEN_NUL = 0` and room for the reply: which frame a POLL adds to `OUT`. -/
def Obligations.HandshakeScenarios : Prop :=
  ∀ (s : State) (rest : List Byte), s.Inv → (s.ring .inbound).ready = true → (s.ring .outbound).ready = true →
    s.cfg.tokenNul = false → 12 ≤ s.free .outbound →
    ∀ x ∈ [([0x01, 0x00, 0x0C, 0x02, 0x6D, 0x61, 0x72, 0x63, 0x6F, 0x03, 0xFA, 0x96],
            [0x01, 0x00, 0x0B, 0x02, 0x70, 0x6F, 0x6C, 0x6F, 0x03, 0x7E, 0x8B]),
           ([0x01, 0x00, 0x0B, 0x02, 0x70, 0x6F, 0x6C, 0x6F, 0x03, 0x7E, 0x8B],
            [0x01, 0x00, 0x09, 0x02, 0x6F, 0x6B, 0x03, 0xAD, 0x9C]),
           ([0x01, 0x00, 0x0A, 0x02, 0x78, 0x79, 0x7A, 0x03, 0xD3, 0x8C],
            [0x01, 0x00, 0x0C, 0x02, 0x65, 0x72, 0x72, 0x6F, 0x72, 0x03, 0x1D, 0x12]),
           ([0x01, 0x00, 0x09, 0x02, 0x6F, 0x6B, 0x03, 0xAD, 0x9C], ([] : List Byte))],
      s.contents .inbound = x.1 ++ rest →
      ∃ t, exec .poll s = .next t ∧ t.contents .inbound = rest ∧ t.contents .outbound = s.contents .outbound ++ x.2

/-- R154: INJECT, all of its results: BADARG, BUSY with no state change while `OUT` is not empty, the bytes enqueued whole, or the
bytes that fit, reported SEND_FAILED with their number. -/
def Obligations.InjectOnlyWhenOutIsEmpty : Prop :=
  ∀ (data : List Byte) (s : State), s.ringInv .outbound →
    (data.length ≤ 65535 → decodeCommand (0x10 :: be16Bytes (BitVec.ofNat 16 data.length) ++ data) = .ok (.inject data)) ∧
    ((s.ring .outbound).ready = false ∨ data.length = 0 → exec (.inject data) s = .next (s.respond .badarg [])) ∧
    ((s.ring .outbound).ready = true → 1 ≤ data.length → s.count .outbound ≠ 0 →
      exec (.inject data) s = .next (s.respond .busy [])) ∧
    ((s.ring .outbound).ready = true → 1 ≤ data.length → s.count .outbound = 0 →
      ∃ t, exec (.inject data) s = .next t ∧ s.headKept .outbound t ∧
        (data.length ≤ s.size .outbound - 1 →
          s.answersOn .outbound (.response ⟨.ok, []⟩) t ∧ t.contents .outbound = data) ∧
        (s.size .outbound - 1 < data.length →
          s.answersOn .outbound (.response ⟨.sendFailed, be16Bytes (BitVec.ofNat 16 (s.size .outbound - 1))⟩) t ∧
          t.contents .outbound = data.take (s.size .outbound - 1)))

/-- R150: one transfer on the RX port puts its byte behind the contents of `IN`, or drops it. -/
def Obligations.RxTransferPutsIntoIn : Prop :=
  ∀ (v : Byte) (s : State), s.ringInv .inbound →
    ((s.ring .inbound).ready = true → s.free .inbound ≠ 0 →
      ∃ t, exec (.rxPut v) s = .next t ∧ s.answersOn .inbound (.rx true) t ∧ s.headKept .inbound t ∧
        t.contents .inbound = s.contents .inbound ++ [v]) ∧
    ((s.ring .inbound).ready = false ∨ s.free .inbound = 0 → exec (.rxPut v) s = .next (s.emit (.rx false)))

/-- R151: one transfer on the TX port takes the first byte of `OUT`, or answers that there is none. -/
def Obligations.TxTransferGetsFromOut : Prop :=
  ∀ s : State, s.ringInv .outbound →
    (∀ (v : Byte) (vs : List Byte), (s.ring .outbound).ready = true → s.contents .outbound = v :: vs →
      ∃ t, exec .txGet s = .next t ∧ s.answersOn .outbound (.tx (some v)) t ∧ s.headMoved .outbound t ∧
        t.contents .outbound = vs) ∧
    ((s.ring .outbound).ready = false ∨ s.count .outbound = 0 → exec .txGet s = .next (s.emit (.tx none)))

/-- R33, R50, R150: with room for it in `IN`, a frame arriving on the wire is accepted whole, byte by byte, behind what `IN` holds
(log 9: that a FRAME is one step is the model's choice). -/
def Obligations.FrameArrivesWhole : Prop :=
  ∀ (len : Half) (msg : List Byte) (crc : Half) (s : State), s.ringInv .inbound → (s.ring .inbound).ready = true →
    msg.length + 7 ≤ s.free .inbound →
    ∃ t, exec (.frame len msg crc) s = .next t ∧ t.cfg = s.cfg ∧ t.inputs = s.inputs ∧
      t.ring .outbound = s.ring .outbound ∧ s.headKept .inbound t ∧
      t.outputs = s.outputs ++ List.replicate (msg.length + 7) (.rx true) ∧
      t.contents .inbound = s.contents .inbound ++ ([0x01, hiByte len, loByte len, 0x02] ++ msg ++ [0x03, hiByte crc, loByte crc])

/-- R33, R39, R150: a FRAME is the RX transfers of its bytes one after another, and a marker is the RX transfer of its byte
(log 9, log 10). -/
def Obligations.WireUnitsAreRxTransfers : Prop :=
  (∀ (len : Half) (msg : List Byte) (crc : Half) (s : State) (rest : List Input),
    s.inputs = (frameBytes len msg crc).map (fun v => Input.issue .rx (.rxPut v)) ++ rest →
    ∃ t, core.run (msg.length + 7) s = .next t ∧ exec (.frame len msg crc) { s with inputs := rest } = .next t) ∧
  ∀ s : State, s.ringInv .inbound →
    ∀ x ∈ [(Instr.soh, (0x01 : Byte)), (.stx, 0x02), (.etx, 0x03)],
      ((s.ring .inbound).ready = true → s.free .inbound ≠ 0 →
        ∃ t, exec x.1 s = .next t ∧ s.answersOn .inbound (.rx true) t ∧ s.headKept .inbound t ∧
          t.contents .inbound = s.contents .inbound ++ [x.2]) ∧
      ((s.ring .inbound).ready = false ∨ s.free .inbound = 0 → exec x.1 s = .next (s.emit (.rx false)))

/-- R70: the pseudo-operations add nothing to their expansions: RX_PUT and TX_GET leave the rings as RB_PUT IN and RB_GET OUT do
and answer by their results; IS_EMPTY and IS_FULL are RB_COUNT and RB_FREE compared with 0. -/
def Obligations.PseudoOperationsAreTheirExpansions : Prop :=
  ∀ (s : State) (v : Byte) (b : RingSel), s.ringInv b →
    (∃ t t' c, exec (.rxPut v) s = .next t ∧ exec (.rbPut .inbound v) s = .next t' ∧
      (∀ b', t.ring b' = t'.ring b') ∧ t'.outputs = s.outputs ++ [.response ⟨c, []⟩] ∧
      t.outputs = s.outputs ++ [.rx (c == .ok)]) ∧
    (∃ t t' c p, exec .txGet s = .next t ∧ exec (.rbGet .outbound) s = .next t' ∧
      (∀ b', t.ring b' = t'.ring b') ∧ t'.outputs = s.outputs ++ [.response ⟨c, p⟩] ∧
      t.outputs = s.outputs ++ [.tx p.head?]) ∧
    (exec (.isEmpty b) s = .next (s.emit (.status true)) ↔ exec (.rbCount b) s = .next (s.respond .ok [0x00, 0x00])) ∧
    (exec (.isFull b) s = .next (s.emit (.status true)) ↔ exec (.rbFree b) s = .next (s.respond .ok [0x00, 0x00]))

/-! ## The whole machine -/

/-- R170, R182, R5: every operation, in every state, ends in a next state with at least one more answer, the parameters and the
presented inputs as they were; no step ever stops the block. -/
def Obligations.EveryOperationCompletes : Prop :=
  (∀ (i : Instr) (s : State), ∃ t, exec i s = .next t ∧ t.cfg = s.cfg ∧ t.inputs = s.inputs ∧ t.resets = s.resets ∧
    ∃ o, o ≠ [] ∧ t.outputs = s.outputs ++ o) ∧
  ∀ s : State, ∃ t, step s = .next t ∧ t.cfg = s.cfg

/-- R15, R97: every step, from every sound state, leaves a sound state: cursors in range, storage canonical and within the ring,
every occupied slot written since reset. -/
def Obligations.StepKeepsInv : Prop :=
  ∀ s t : State, s.Inv → step s = .next t → t.Inv

/-- R11, R12, R42: per ring, only producer operations write the tail or the storage, only consumer operations write the head,
and RB_INIT alone writes both. -/
def Obligations.RolesWriteTheirOwnRegisters : Prop :=
  ∀ (i : Instr) (s t : State) (b : RingSel), s.Inv → exec i s = .next t → initialises i b = false →
    (produces i b = false → (t.ring b).tail = (s.ring b).tail ∧ (t.ring b).mem = (s.ring b).mem) ∧
    (consumes i b = false → (t.ring b).head = (s.ring b).head)

/-- R14, R95: storage is written at the tail only: when an operation advances the tail by `k` slots, every slot outside those `k`
reads as before (all of storage, where `k = 0`). -/
def Obligations.StoresOnlyAtTheTail : Prop :=
  ∀ (i : Instr) (s t : State) (b : RingSel), s.Inv → exec i s = .next t →
    ∀ k < s.size b, (t.ring b).tail = ((s.ring b).tail + k) % s.size b →
      ∀ x < s.size b, (∀ j < k, x ≠ ((s.ring b).tail + j) % s.size b) → t.memRead b x = s.memRead b x

/-- R42, R199: in a schedule with one producer and one consumer context per ring, two inputs whose operations can move the same
cursor of a ring (RB_INIT apart) are issued in one context. R39, R201: INJECT from the injector is in ENG's context, and where the
injector reaches `OUT` through INJECT alone, nothing it issues in its own context changes `OUT`. -/
def Obligations.OneContextPerCursor : Prop :=
  (∀ (l : List Input) (x y : Input) (wx wy : Agent) (i j : Instr) (b : RingSel), singleProducerConsumer l →
    x ∈ l → y ∈ l → issuedBy x = some (wx, i) → issuedBy y = some (wy, j) →
    initialises i b = false → initialises j b = false →
    ((∃ s t, s.Inv ∧ exec i s = .next t ∧ (t.ring b).tail ≠ (s.ring b).tail) →
      (∃ s t, s.Inv ∧ exec j s = .next t ∧ (t.ring b).tail ≠ (s.ring b).tail) → wx = wy) ∧
    ((∃ s t, s.Inv ∧ exec i s = .next t ∧ (t.ring b).head ≠ (s.ring b).head) →
      (∃ s t, s.Inv ∧ exec j s = .next t ∧ (t.ring b).head ≠ (s.ring b).head) → wx = wy)) ∧
  (∀ data, issuedBy (.issue .inj (.inject data)) = some (.eng, .inject data)) ∧
  (∀ who i, (who ≠ .inj ∨ ∀ data, i ≠ .inject data) → issuedBy (.issue who i) = some (who, i)) ∧
  (∀ who bytes i, decodeCommand bytes = .ok i → issuedBy (.command who bytes) = issuedBy (.issue who i)) ∧
  ∀ (l : List Input) (x : Input) (i : Instr) (s t : State), injectsThroughInject l → x ∈ l → issuedBy x = some (.inj, i) →
    s.Inv → exec i s = .next t → t.ring .outbound = s.ring .outbound

/-- R13: only RB_INIT sets a ring's ready bit and only reset clears it; while it is 0 every other operation leaves the ring as it
is. -/
def Obligations.ReadyBitSetByInitOnly : Prop :=
  (∀ (i : Instr) (s t : State) (b : RingSel), exec i s = .next t →
    ((s.ring b).ready = true → (t.ring b).ready = true) ∧
    ((s.ring b).ready = false → i ≠ .rbInit b → t.ring b = s.ring b)) ∧
  ∀ (s t : State) (b : RingSel), step s = .next t → (s.ring b).ready = true → (t.ring b).ready = false →
    s.inputs.head? = some .reset

/-- R14, R22: bytes outside the occupied region are not observable: from two sound states that agree on parameters, ports, ring
registers and occupied bytes, one step leaves two states that agree on them, answers included. -/
def Obligations.StaleBytesAreNotObservable : Prop :=
  ∀ s s' t t' : State, s.Inv → s'.Inv → s.sameView s' → step s = .next t → step s' = .next t' → t.sameView t'

/-- R37: the operations that read a ring or none change nothing but give their one answer. -/
def Obligations.ReadingOperationsOnlyAnswer : Prop :=
  ∀ (i : Instr) (s t : State), (∀ b, produces i b = false) → (∀ b, initialises i b = false) →
    (∀ b, i ≠ .rbGet b ∧ i ≠ .rbClear b ∧ ∀ cap, i ≠ .pkLocate b cap) → i ≠ .txGet → exec i s = .next t →
    ∃ o, t = s.emit o

/-- R37, R180, for these codes: an operation that answers FULL, EMPTY, BUSY or BADARG changes no ring at all, nor do PK_VERIFY,
PK_BUILD and PK_EXTRACT_MSG whatever they answer; INCOMPLETE and MALFORMED from PK_LOCATE remove only the noise before the first
SOH. (OVERFLOW of PK_LOCATE, SEND_FAILED and the outcomes of POLL do change rings: PkLocateTable, HsSendEnqueuesTheReply,
InjectOnlyWhenOutIsEmpty, PollTable.) -/
def Obligations.FullEmptyBusyBadargChangeNoRing : Prop :=
  (∀ (i : Instr) (s t : State) (c : Code) (payload : List Byte), s.Inv → exec i s = .next t →
    t.outputs = s.outputs ++ [.response ⟨c, payload⟩] → c ∈ [Code.full, .empty, .busy, .badarg] →
    ∀ b, t.ring b = s.ring b) ∧
  (∀ (cap : Half) (p : List Byte) (s t : State), ∀ i ∈ [Instr.pkVerify p, .pkBuild cap p, .pkExtractMsg cap p],
    exec i s = .next t → ∀ b, t.ring b = s.ring b) ∧
  ∀ (b : RingSel) (cap : Half) (s t : State) (c : Code), s.ringInv b → exec (.pkLocate b cap) s = .next t →
    t.outputs = s.outputs ++ [.response ⟨c, []⟩] → c = .incomplete ∨ c = .malformed →
    t.contents b = (s.contents b).dropWhile fun v => v != 0x01

/-- R211: nothing remains to be done exactly when `OUT` is empty and a POLL answers INCOMPLETE having changed no ring; then a TX
transfer yields no byte, and `IN` is empty or holds only the beginning of one frame starting with SOH. -/
def Obligations.QuiescentPollAnswersIncomplete : Prop :=
  ∀ s : State, s.Inv →
    (s.quiescent ↔ s.count .outbound = 0 ∧ exec .poll s = .next (s.respond .incomplete [])) ∧
    (s.quiescent → exec .txGet s = .next (s.emit (.tx none)) ∧
      (s.count .inbound = 0 ∨
        s.byteAt .inbound 0 = 0x01 ∧ (s.count .inbound < 7 ∨ s.count .inbound < declaredLength .inbound s)))
end

