-- ==== Sys2Proof/Laws/Crc.lean ====
section
/-! SUPPORT. Laws of the checksum (41_crc16): it is linear over XOR, and no round loses a bit. -/

namespace Sys2Proof.Machine

@[simp] theorem crc16_nil : crc16 [] = 0 := rfl

theorem crc16_append_singleton (m : List Byte) (d : Byte) : crc16 (m ++ [d]) = crcUpdate (crc16 m) d := by
  simp [crc16]

theorem crc16_append (m p : List Byte) : crc16 (m ++ p) = p.foldl crcUpdate (crc16 m) := by
  simp [crc16]

/-- One round is linear (R101). -/
theorem crcRound_xor (a b : Half) : crcRound (a ^^^ b) = crcRound a ^^^ crcRound b := by
  unfold crcRound
  rw [BitVec.getLsbD_xor, BitVec.shiftLeft_xor_distrib]
  cases a.getLsbD 15 <;> cases b.getLsbD 15 <;> simp only [Bool.xor_false, Bool.xor_true, Bool.not_false,
    Bool.not_true, if_true, if_false, Bool.false_eq_true]
  · rw [BitVec.xor_assoc]
  · rw [BitVec.xor_assoc, BitVec.xor_assoc]; congr 1; rw [BitVec.xor_comm]
  · rw [show a <<< 1 ^^^ crcPoly ^^^ (b <<< 1 ^^^ crcPoly) = (a <<< 1 ^^^ b <<< 1) ^^^ (crcPoly ^^^ crcPoly) by ac_rfl,
      BitVec.xor_self, BitVec.xor_zero]

@[simp] theorem crcRound_zero : crcRound 0#16 = 0#16 := by decide

/-- Only the zero accumulator rounds to zero. -/
theorem crcRound_eq_zero {a : Half} (h : crcRound a = 0#16) : a = 0#16 := by
  unfold crcRound at h
  split at h
  · have := congrArg (fun x : Half => x.getLsbD 0) h
    simp [crcPoly] at this
  · rename_i h15
    apply BitVec.eq_of_getLsbD_eq
    intro i hi
    rcases Nat.lt_or_ge i 15 with h' | h'
    · have := congrArg (fun x : Half => x.getLsbD (i + 1)) h
      simp only [BitVec.getLsbD_shiftLeft] at this
      have e : i + 1 < 16 := by omega
      simpa [e] using this
    · have : i = 15 := by omega
      subst this
      simpa using h15

theorem crcRounds_xor (k : Nat) (a b : Half) : crcRounds k (a ^^^ b) = crcRounds k a ^^^ crcRounds k b := by
  induction k generalizing a b with
  | zero => rfl
  | succ k ih => simp only [crcRounds, crcRound_xor, ih]

@[simp] theorem crcRounds_zero (k : Nat) : crcRounds k 0#16 = 0#16 := by
  induction k with
  | zero => rfl
  | succ k ih => rw [crcRounds, crcRound_zero, ih]

theorem crcRounds_eq_zero {k : Nat} {a : Half} (h : crcRounds k a = 0#16) : a = 0#16 := by
  induction k generalizing a with
  | zero => exact h
  | succ k ih => exact crcRound_eq_zero (ih h)

/-- No round loses a bit: different accumulators stay different. -/
theorem crcRounds_inj {k : Nat} {a b : Half} (h : crcRounds k a = crcRounds k b) : a = b := by
  have : crcRounds k (a ^^^ b) = 0#16 := by rw [crcRounds_xor, h, BitVec.xor_self]
  exact BitVec.xor_eq_zero_iff.mp (crcRounds_eq_zero this)

/-- Different accumulators stay different through the same bytes. -/
theorem foldl_crcUpdate_inj {a b : Half} (p : List Byte) (h : p.foldl crcUpdate a = p.foldl crcUpdate b) : a = b := by
  induction p generalizing a b with
  | nil => exact h
  | cons d p ih => exact (BitVec.xor_left_inj _).mp (crcRounds_inj (ih h))

/-- Different bytes on the same accumulator give different results. -/
theorem crcUpdate_inj_byte {a : Half} {d e : Byte} (h : crcUpdate a d = crcUpdate a e) : d = e := by
  have h4 : be16 d 0x00 = be16 e 0x00 := (BitVec.xor_right_inj _).mp (crcRounds_inj h)
  apply BitVec.eq_of_getLsbD_eq
  intro i hi
  have := congrArg (fun x : Half => x.getLsbD (i + 8)) h4
  simp only [be16, BitVec.getLsbD_append] at this
  simpa using this

end Sys2Proof.Machine
end

