-- ==== Sys2Proof/Laws/Memory.lean ====
section
/-! SUPPORT. Laws of storage: a read after a write, and the canonical form every write keeps. -/

namespace Sys2Proof.Machine

theorem Memory.read_write_self (m : Memory) (i : Nat) (v : Byte) : Memory.read (Memory.write m i v) i = some v := by
  induction m with
  | nil => simp [Memory.write, Memory.read]
  | cons c m ih =>
    obtain ⟨a, w⟩ := c
    unfold Memory.write
    split
    · simp [Memory.read]
    · split
      · simp [Memory.read]
      · rename_i h1 h2
        rw [Memory.read, if_neg (fun h => h2 h.symm), ih]

theorem Memory.read_write_ne (m : Memory) {i j : Nat} (v : Byte) (h : j ≠ i) :
    Memory.read (Memory.write m i v) j = Memory.read m j := by
  induction m with
  | nil => simp [Memory.write, Memory.read, h.symm]
  | cons c m ih =>
    obtain ⟨a, w⟩ := c
    unfold Memory.write
    split
    · rw [Memory.read, if_neg (fun e => h e.symm)]
    · split
      · rename_i h1 h2
        subst h2
        rw [Memory.read, if_neg (fun e => h e.symm), Memory.read, if_neg (fun e => h e.symm)]
      · rw [Memory.read, Memory.read, ih]

/-- A slot of the list after a write is the written slot or was listed before. -/
theorem Memory.mem_write {m : Memory} {i : Nat} {v : Byte} {c : Host.Cell} (h : c ∈ Memory.write m i v) :
    c = (i, v) ∨ c ∈ m := by
  induction m with
  | nil => exact .inl (by simpa [Memory.write] using h)
  | cons d m ih =>
    obtain ⟨a, w⟩ := d
    unfold Memory.write at h
    split at h
    · simpa using h
    · split at h
      · rcases List.mem_cons.mp h with h | h
        · exact .inl h
        · exact .inr (List.mem_cons_of_mem _ h)
      · rcases List.mem_cons.mp h with h | h
        · exact .inr (h ▸ List.mem_cons_self)
        · exact (ih h).imp_right (List.mem_cons_of_mem _)

/-- A write keeps the canonical form. -/
theorem Memory.wf_write {m : Memory} (i : Nat) (v : Byte) (h : Memory.wf m) : Memory.wf (Memory.write m i v) := by
  induction m with
  | nil => simp [Memory.write, Memory.wf]
  | cons d m ih =>
    obtain ⟨a, w⟩ := d
    obtain ⟨hd, hm⟩ := List.pairwise_cons.mp h
    unfold Memory.write
    split
    · rename_i hi
      refine List.pairwise_cons.mpr ⟨?_, h⟩
      intro c hc
      rcases List.mem_cons.mp hc with rfl | hc
      · exact hi
      · exact Nat.lt_trans hi (hd c hc)
    · split
      · rename_i hi
        subst hi
        exact List.pairwise_cons.mpr ⟨hd, hm⟩
      · rename_i h1 h2
        refine List.pairwise_cons.mpr ⟨?_, ih hm⟩
        intro c hc
        rcases Memory.mem_write hc with rfl | hc
        · show a < i
          omega
        · exact hd c hc

/-- A write within a ring keeps every listed slot within it. -/
theorem Memory.bound_write {m : Memory} {n i : Nat} (v : Byte) (hi : i < n) (h : ∀ c ∈ m, c.1 < n) :
    ∀ c ∈ Memory.write m i v, c.1 < n := by
  intro c hc
  rcases Memory.mem_write hc with rfl | hc
  · exact hi
  · exact h c hc

/-- Two canonical memories that read the same everywhere are equal. -/
theorem Memory.ext {m n : Memory} (hm : Memory.wf m) (hn : Memory.wf n)
    (h : ∀ i, Memory.read m i = Memory.read n i) : m = n := by
  have low : ∀ {l : Memory} {i : Nat}, (∀ c ∈ l, i < c.1) → Memory.read l i = none := by
    intro l
    induction l with
    | nil => intro i _; rfl
    | cons c l ih =>
      intro i hl
      have := hl c List.mem_cons_self
      rw [Memory.read, if_neg (by omega)]
      exact ih fun d hd => hl d (List.mem_cons_of_mem _ hd)
  induction m generalizing n with
  | nil =>
    cases n with
    | nil => rfl
    | cons d n => have := h d.1; simp [Memory.read] at this
  | cons c m ih =>
    obtain ⟨hc, hm⟩ := List.pairwise_cons.mp hm
    cases n with
    | nil => have := h c.1; simp [Memory.read] at this
    | cons d n =>
      obtain ⟨hd, hn⟩ := List.pairwise_cons.mp hn
      have hcd : c.1 = d.1 := by
        rcases Nat.lt_trichotomy c.1 d.1 with hlt | heq | hgt
        · have := h c.1
          rw [Memory.read, if_pos rfl, low (l := d :: n) (i := c.1)] at this
          · simp at this
          · intro e he
            rcases List.mem_cons.mp he with rfl | he
            · exact hlt
            · exact Nat.lt_trans hlt (hd e he)
        · exact heq
        · have := h d.1
          rw [Memory.read.eq_def (d :: n), low (l := c :: m) (i := d.1)] at this
          · simp at this
          · intro e he
            rcases List.mem_cons.mp he with rfl | he
            · exact hgt
            · exact Nat.lt_trans hgt (hc e he)
      have hv : c.2 = d.2 := by
        have := h c.1
        rw [Memory.read, if_pos rfl, Memory.read, if_pos hcd.symm] at this
        exact Option.some.inj this
      have hmn : m = n := by
        refine ih hm hn fun i => ?_
        by_cases hi : c.1 = i
        · subst hi
          rw [low hc, low (fun e he => hcd ▸ hd e he)]
        · have := h i
          rwa [Memory.read, if_neg hi, Memory.read, if_neg (hcd ▸ hi)] at this
      rw [Prod.ext hcd hv, hmn]

end Sys2Proof.Machine
end

