-- ==== Sys2Proof/Laws/State.lean ====
section
/-! SUPPORT. One lemma per field per update of the state, so that no later proof unfolds a record update. -/

namespace Sys2Proof.Machine

/-! ## setRing -/

@[simp] theorem State.ring_setRing_self (s : State) (b : RingSel) (r : Ring) : (s.setRing b r).ring b = r := by
  cases b <;> rfl

theorem State.ring_setRing_ne (s : State) {b b' : RingSel} (r : Ring) (h : b' ≠ b) :
    (s.setRing b r).ring b' = s.ring b' := by
  cases b <;> cases b' <;> first | rfl | exact absurd rfl h

@[simp] theorem State.setRing_ring (s : State) (b : RingSel) : s.setRing b (s.ring b) = s := by
  cases b <;> rfl

@[simp] theorem State.setRing_setRing (s : State) (b : RingSel) (r r' : Ring) :
    (s.setRing b r).setRing b r' = s.setRing b r' := by
  cases b <;> rfl

@[simp] theorem State.cfg_setRing (s : State) (b : RingSel) (r : Ring) : (s.setRing b r).cfg = s.cfg := by
  cases b <;> rfl

@[simp] theorem State.resets_setRing (s : State) (b : RingSel) (r : Ring) : (s.setRing b r).resets = s.resets := by
  cases b <;> rfl

@[simp] theorem State.inputs_setRing (s : State) (b : RingSel) (r : Ring) : (s.setRing b r).inputs = s.inputs := by
  cases b <;> rfl

@[simp] theorem State.outputs_setRing (s : State) (b : RingSel) (r : Ring) : (s.setRing b r).outputs = s.outputs := by
  cases b <;> rfl

@[simp] theorem State.size_setRing (s : State) (b b' : RingSel) (r : Ring) : (s.setRing b r).size b' = s.size b' := by
  cases b <;> rfl

@[simp] theorem State.slot_setRing (s : State) (b b' : RingSel) (r : Ring) (x : Nat) :
    (s.setRing b r).slot b' x = s.slot b' x := by
  cases b <;> rfl

theorem State.setRing_emit (s : State) (b : RingSel) (r : Ring) (o : Output) :
    (s.setRing b r).emit o = (s.emit o).setRing b r := by
  cases b <;> rfl

/-! ## emit -/

@[simp] theorem State.cfg_emit (s : State) (o : Output) : (s.emit o).cfg = s.cfg := rfl

@[simp] theorem State.inRing_emit (s : State) (o : Output) : (s.emit o).inRing = s.inRing := rfl

@[simp] theorem State.outRing_emit (s : State) (o : Output) : (s.emit o).outRing = s.outRing := rfl

@[simp] theorem State.resets_emit (s : State) (o : Output) : (s.emit o).resets = s.resets := rfl

@[simp] theorem State.inputs_emit (s : State) (o : Output) : (s.emit o).inputs = s.inputs := rfl

@[simp] theorem State.outputs_emit (s : State) (o : Output) : (s.emit o).outputs = s.outputs ++ [o] := rfl

@[simp] theorem State.ring_emit (s : State) (o : Output) (b : RingSel) : (s.emit o).ring b = s.ring b := by
  cases b <;> rfl

@[simp] theorem State.size_emit (s : State) (o : Output) (b : RingSel) : (s.emit o).size b = s.size b := by
  cases b <;> rfl

@[simp] theorem State.slot_emit (s : State) (o : Output) (b : RingSel) (x : Nat) : (s.emit o).slot b x = s.slot b x := by
  cases b <;> rfl

@[simp] theorem State.memRead_emit (s : State) (o : Output) (b : RingSel) (x : Nat) : (s.emit o).memRead b x = s.memRead b x := by
  cases b <;> rfl

@[simp] theorem State.count_emit (s : State) (o : Output) (b : RingSel) : (s.emit o).count b = s.count b := by
  cases b <;> rfl

@[simp] theorem State.free_emit (s : State) (o : Output) (b : RingSel) : (s.emit o).free b = s.free b := by
  cases b <;> rfl

@[simp] theorem State.byteAt_emit (s : State) (o : Output) (b : RingSel) (k : Nat) : (s.emit o).byteAt b k = s.byteAt b k := by
  cases b <;> rfl

@[simp] theorem State.front_emit (s : State) (o : Output) (b : RingSel) (n : Nat) : (s.emit o).front b n = s.front b n := by
  cases b <;> rfl

@[simp] theorem State.contents_emit (s : State) (o : Output) (b : RingSel) : (s.emit o).contents b = s.contents b := by
  cases b <;> rfl

@[simp] theorem State.ringFull_emit (s : State) (o : Output) (b : RingSel) : (s.emit o).ringFull b = s.ringFull b := by
  cases b <;> rfl

@[simp] theorem State.ringEmpty_emit (s : State) (o : Output) (b : RingSel) : (s.emit o).ringEmpty b = s.ringEmpty b := by
  cases b <;> rfl

/-! ## respond -/

@[simp] theorem State.cfg_respond (s : State) (c : Code) (p : List Byte) : (s.respond c p).cfg = s.cfg := rfl

@[simp] theorem State.inRing_respond (s : State) (c : Code) (p : List Byte) : (s.respond c p).inRing = s.inRing := rfl

@[simp] theorem State.outRing_respond (s : State) (c : Code) (p : List Byte) : (s.respond c p).outRing = s.outRing := rfl

@[simp] theorem State.resets_respond (s : State) (c : Code) (p : List Byte) : (s.respond c p).resets = s.resets := rfl

@[simp] theorem State.inputs_respond (s : State) (c : Code) (p : List Byte) : (s.respond c p).inputs = s.inputs := rfl

@[simp] theorem State.outputs_respond (s : State) (c : Code) (p : List Byte) : (s.respond c p).outputs = s.outputs ++ [.response ⟨c, p⟩] := rfl

@[simp] theorem State.ring_respond (s : State) (c : Code) (p : List Byte) (b : RingSel) : (s.respond c p).ring b = s.ring b := by
  cases b <;> rfl

@[simp] theorem State.size_respond (s : State) (c : Code) (p : List Byte) (b : RingSel) : (s.respond c p).size b = s.size b := by
  cases b <;> rfl

@[simp] theorem State.slot_respond (s : State) (c : Code) (p : List Byte) (b : RingSel) (x : Nat) : (s.respond c p).slot b x = s.slot b x := by
  cases b <;> rfl

@[simp] theorem State.memRead_respond (s : State) (c : Code) (p : List Byte) (b : RingSel) (x : Nat) : (s.respond c p).memRead b x = s.memRead b x := by
  cases b <;> rfl

@[simp] theorem State.count_respond (s : State) (c : Code) (p : List Byte) (b : RingSel) : (s.respond c p).count b = s.count b := by
  cases b <;> rfl

@[simp] theorem State.free_respond (s : State) (c : Code) (p : List Byte) (b : RingSel) : (s.respond c p).free b = s.free b := by
  cases b <;> rfl

@[simp] theorem State.byteAt_respond (s : State) (c : Code) (p : List Byte) (b : RingSel) (k : Nat) : (s.respond c p).byteAt b k = s.byteAt b k := by
  cases b <;> rfl

@[simp] theorem State.front_respond (s : State) (c : Code) (p : List Byte) (b : RingSel) (n : Nat) : (s.respond c p).front b n = s.front b n := by
  cases b <;> rfl

@[simp] theorem State.contents_respond (s : State) (c : Code) (p : List Byte) (b : RingSel) : (s.respond c p).contents b = s.contents b := by
  cases b <;> rfl

@[simp] theorem State.ringFull_respond (s : State) (c : Code) (p : List Byte) (b : RingSel) : (s.respond c p).ringFull b = s.ringFull b := by
  cases b <;> rfl

@[simp] theorem State.ringEmpty_respond (s : State) (c : Code) (p : List Byte) (b : RingSel) : (s.respond c p).ringEmpty b = s.ringEmpty b := by
  cases b <;> rfl

/-! ## takeInput -/

@[simp] theorem State.cfg_takeInput (s : State) : (s.takeInput).cfg = s.cfg := rfl

@[simp] theorem State.inRing_takeInput (s : State) : (s.takeInput).inRing = s.inRing := rfl

@[simp] theorem State.outRing_takeInput (s : State) : (s.takeInput).outRing = s.outRing := rfl

@[simp] theorem State.resets_takeInput (s : State) : (s.takeInput).resets = s.resets := rfl

@[simp] theorem State.outputs_takeInput (s : State) : (s.takeInput).outputs = s.outputs := rfl

@[simp] theorem State.inputs_takeInput (s : State) : (s.takeInput).inputs = s.inputs.tail := rfl

@[simp] theorem State.ring_takeInput (s : State) (b : RingSel) : (s.takeInput).ring b = s.ring b := by
  cases b <;> rfl

@[simp] theorem State.size_takeInput (s : State) (b : RingSel) : (s.takeInput).size b = s.size b := by
  cases b <;> rfl

@[simp] theorem State.slot_takeInput (s : State) (b : RingSel) (x : Nat) : (s.takeInput).slot b x = s.slot b x := by
  cases b <;> rfl

@[simp] theorem State.memRead_takeInput (s : State) (b : RingSel) (x : Nat) : (s.takeInput).memRead b x = s.memRead b x := by
  cases b <;> rfl

@[simp] theorem State.count_takeInput (s : State) (b : RingSel) : (s.takeInput).count b = s.count b := by
  cases b <;> rfl

@[simp] theorem State.free_takeInput (s : State) (b : RingSel) : (s.takeInput).free b = s.free b := by
  cases b <;> rfl

@[simp] theorem State.byteAt_takeInput (s : State) (b : RingSel) (k : Nat) : (s.takeInput).byteAt b k = s.byteAt b k := by
  cases b <;> rfl

@[simp] theorem State.front_takeInput (s : State) (b : RingSel) (n : Nat) : (s.takeInput).front b n = s.front b n := by
  cases b <;> rfl

@[simp] theorem State.contents_takeInput (s : State) (b : RingSel) : (s.takeInput).contents b = s.contents b := by
  cases b <;> rfl

@[simp] theorem State.ringFull_takeInput (s : State) (b : RingSel) : (s.takeInput).ringFull b = s.ringFull b := by
  cases b <;> rfl

@[simp] theorem State.ringEmpty_takeInput (s : State) (b : RingSel) : (s.takeInput).ringEmpty b = s.ringEmpty b := by
  cases b <;> rfl

/-! ## presentCommand -/

@[simp] theorem State.cfg_presentCommand (s : State) (p : List Byte) : (s.presentCommand p).cfg = s.cfg := rfl

@[simp] theorem State.inRing_presentCommand (s : State) (p : List Byte) : (s.presentCommand p).inRing = s.inRing := rfl

@[simp] theorem State.outRing_presentCommand (s : State) (p : List Byte) : (s.presentCommand p).outRing = s.outRing := rfl

@[simp] theorem State.resets_presentCommand (s : State) (p : List Byte) : (s.presentCommand p).resets = s.resets := rfl

@[simp] theorem State.outputs_presentCommand (s : State) (p : List Byte) : (s.presentCommand p).outputs = s.outputs := rfl

@[simp] theorem State.inputs_presentCommand (s : State) (p : List Byte) : (s.presentCommand p).inputs = .command .eng p :: s.inputs := rfl

@[simp] theorem State.ring_presentCommand (s : State) (p : List Byte) (b : RingSel) : (s.presentCommand p).ring b = s.ring b := by
  cases b <;> rfl

@[simp] theorem State.size_presentCommand (s : State) (p : List Byte) (b : RingSel) : (s.presentCommand p).size b = s.size b := by
  cases b <;> rfl

@[simp] theorem State.slot_presentCommand (s : State) (p : List Byte) (b : RingSel) (x : Nat) : (s.presentCommand p).slot b x = s.slot b x := by
  cases b <;> rfl

@[simp] theorem State.memRead_presentCommand (s : State) (p : List Byte) (b : RingSel) (x : Nat) : (s.presentCommand p).memRead b x = s.memRead b x := by
  cases b <;> rfl

@[simp] theorem State.count_presentCommand (s : State) (p : List Byte) (b : RingSel) : (s.presentCommand p).count b = s.count b := by
  cases b <;> rfl

@[simp] theorem State.free_presentCommand (s : State) (p : List Byte) (b : RingSel) : (s.presentCommand p).free b = s.free b := by
  cases b <;> rfl

@[simp] theorem State.byteAt_presentCommand (s : State) (p : List Byte) (b : RingSel) (k : Nat) : (s.presentCommand p).byteAt b k = s.byteAt b k := by
  cases b <;> rfl

@[simp] theorem State.front_presentCommand (s : State) (p : List Byte) (b : RingSel) (n : Nat) : (s.presentCommand p).front b n = s.front b n := by
  cases b <;> rfl

@[simp] theorem State.contents_presentCommand (s : State) (p : List Byte) (b : RingSel) : (s.presentCommand p).contents b = s.contents b := by
  cases b <;> rfl

@[simp] theorem State.ringFull_presentCommand (s : State) (p : List Byte) (b : RingSel) : (s.presentCommand p).ringFull b = s.ringFull b := by
  cases b <;> rfl

@[simp] theorem State.ringEmpty_presentCommand (s : State) (p : List Byte) (b : RingSel) : (s.presentCommand p).ringEmpty b = s.ringEmpty b := by
  cases b <;> rfl

@[simp] theorem declaredLength_emit (b : RingSel) (s : State) (o : Output) :
    declaredLength b (s.emit o) = declaredLength b s := by
  cases b <;> rfl

/-! ## setHead, setTail, consume, memWrite: one ring each -/

@[simp] theorem State.cfg_setHead (s : State) (b : RingSel) (x : Nat) : (s.setHead b x).cfg = s.cfg := by
  cases b <;> rfl

@[simp] theorem State.resets_setHead (s : State) (b : RingSel) (x : Nat) : (s.setHead b x).resets = s.resets := by
  cases b <;> rfl

@[simp] theorem State.inputs_setHead (s : State) (b : RingSel) (x : Nat) : (s.setHead b x).inputs = s.inputs := by
  cases b <;> rfl

@[simp] theorem State.outputs_setHead (s : State) (b : RingSel) (x : Nat) : (s.setHead b x).outputs = s.outputs := by
  cases b <;> rfl

@[simp] theorem State.size_setHead (s : State) (b b' : RingSel) (x : Nat) : (s.setHead b x).size b' = s.size b' := by
  cases b <;> rfl

@[simp] theorem State.slot_setHead (s : State) (b b' : RingSel) (x : Nat) (y : Nat) :
    (s.setHead b x).slot b' y = s.slot b' y := by
  cases b <;> rfl

theorem State.ring_setHead_ne (s : State) {b b' : RingSel} (x : Nat) (h : b' ≠ b) :
    (s.setHead b x).ring b' = s.ring b' := State.ring_setRing_ne s _ h

@[simp] theorem State.cfg_setTail (s : State) (b : RingSel) (x : Nat) : (s.setTail b x).cfg = s.cfg := by
  cases b <;> rfl

@[simp] theorem State.resets_setTail (s : State) (b : RingSel) (x : Nat) : (s.setTail b x).resets = s.resets := by
  cases b <;> rfl

@[simp] theorem State.inputs_setTail (s : State) (b : RingSel) (x : Nat) : (s.setTail b x).inputs = s.inputs := by
  cases b <;> rfl

@[simp] theorem State.outputs_setTail (s : State) (b : RingSel) (x : Nat) : (s.setTail b x).outputs = s.outputs := by
  cases b <;> rfl

@[simp] theorem State.size_setTail (s : State) (b b' : RingSel) (x : Nat) : (s.setTail b x).size b' = s.size b' := by
  cases b <;> rfl

@[simp] theorem State.slot_setTail (s : State) (b b' : RingSel) (x : Nat) (y : Nat) :
    (s.setTail b x).slot b' y = s.slot b' y := by
  cases b <;> rfl

theorem State.ring_setTail_ne (s : State) {b b' : RingSel} (x : Nat) (h : b' ≠ b) :
    (s.setTail b x).ring b' = s.ring b' := State.ring_setRing_ne s _ h

@[simp] theorem State.cfg_consume (s : State) (b : RingSel) (x : Nat) : (s.consume b x).cfg = s.cfg := by
  cases b <;> rfl

@[simp] theorem State.resets_consume (s : State) (b : RingSel) (x : Nat) : (s.consume b x).resets = s.resets := by
  cases b <;> rfl

@[simp] theorem State.inputs_consume (s : State) (b : RingSel) (x : Nat) : (s.consume b x).inputs = s.inputs := by
  cases b <;> rfl

@[simp] theorem State.outputs_consume (s : State) (b : RingSel) (x : Nat) : (s.consume b x).outputs = s.outputs := by
  cases b <;> rfl

@[simp] theorem State.size_consume (s : State) (b b' : RingSel) (x : Nat) : (s.consume b x).size b' = s.size b' := by
  cases b <;> rfl

@[simp] theorem State.slot_consume (s : State) (b b' : RingSel) (x : Nat) (y : Nat) :
    (s.consume b x).slot b' y = s.slot b' y := by
  cases b <;> rfl

theorem State.ring_consume_ne (s : State) {b b' : RingSel} (x : Nat) (h : b' ≠ b) :
    (s.consume b x).ring b' = s.ring b' := State.ring_setRing_ne s _ h

@[simp] theorem State.cfg_memWrite (s : State) (b : RingSel) (x : Nat) (v : Byte) : (s.memWrite b x v).cfg = s.cfg := by
  cases b <;> rfl

@[simp] theorem State.resets_memWrite (s : State) (b : RingSel) (x : Nat) (v : Byte) : (s.memWrite b x v).resets = s.resets := by
  cases b <;> rfl

@[simp] theorem State.inputs_memWrite (s : State) (b : RingSel) (x : Nat) (v : Byte) : (s.memWrite b x v).inputs = s.inputs := by
  cases b <;> rfl

@[simp] theorem State.outputs_memWrite (s : State) (b : RingSel) (x : Nat) (v : Byte) : (s.memWrite b x v).outputs = s.outputs := by
  cases b <;> rfl

@[simp] theorem State.size_memWrite (s : State) (b b' : RingSel) (x : Nat) (v : Byte) : (s.memWrite b x v).size b' = s.size b' := by
  cases b <;> rfl

@[simp] theorem State.slot_memWrite (s : State) (b b' : RingSel) (x : Nat) (v : Byte) (y : Nat) :
    (s.memWrite b x v).slot b' y = s.slot b' y := by
  cases b <;> rfl

theorem State.ring_memWrite_ne (s : State) {b b' : RingSel} (x : Nat) (v : Byte) (h : b' ≠ b) :
    (s.memWrite b x v).ring b' = s.ring b' := State.ring_setRing_ne s _ h

@[simp] theorem State.head_setHead (s : State) (b : RingSel) (x : Nat) : ((s.setHead b x).ring b).head = x := by
  cases b <;> rfl

@[simp] theorem State.tail_setHead (s : State) (b : RingSel) (x : Nat) : ((s.setHead b x).ring b).tail = (s.ring b).tail := by
  cases b <;> rfl

@[simp] theorem State.ready_setHead (s : State) (b : RingSel) (x : Nat) : ((s.setHead b x).ring b).ready = (s.ring b).ready := by
  cases b <;> rfl

@[simp] theorem State.mem_setHead (s : State) (b : RingSel) (x : Nat) : ((s.setHead b x).ring b).mem = (s.ring b).mem := by
  cases b <;> rfl

@[simp] theorem State.head_setTail (s : State) (b : RingSel) (x : Nat) : ((s.setTail b x).ring b).head = (s.ring b).head := by
  cases b <;> rfl

@[simp] theorem State.tail_setTail (s : State) (b : RingSel) (x : Nat) : ((s.setTail b x).ring b).tail = x := by
  cases b <;> rfl

@[simp] theorem State.ready_setTail (s : State) (b : RingSel) (x : Nat) : ((s.setTail b x).ring b).ready = (s.ring b).ready := by
  cases b <;> rfl

@[simp] theorem State.mem_setTail (s : State) (b : RingSel) (x : Nat) : ((s.setTail b x).ring b).mem = (s.ring b).mem := by
  cases b <;> rfl

@[simp] theorem State.head_consume (s : State) (b : RingSel) (x : Nat) : ((s.consume b x).ring b).head = ((s.ring b).head + x) % s.size b := by
  cases b <;> rfl

@[simp] theorem State.tail_consume (s : State) (b : RingSel) (x : Nat) : ((s.consume b x).ring b).tail = (s.ring b).tail := by
  cases b <;> rfl

@[simp] theorem State.ready_consume (s : State) (b : RingSel) (x : Nat) : ((s.consume b x).ring b).ready = (s.ring b).ready := by
  cases b <;> rfl

@[simp] theorem State.mem_consume (s : State) (b : RingSel) (x : Nat) : ((s.consume b x).ring b).mem = (s.ring b).mem := by
  cases b <;> rfl

@[simp] theorem State.head_memWrite (s : State) (b : RingSel) (x : Nat) (v : Byte) : ((s.memWrite b x v).ring b).head = (s.ring b).head := by
  cases b <;> rfl

@[simp] theorem State.tail_memWrite (s : State) (b : RingSel) (x : Nat) (v : Byte) : ((s.memWrite b x v).ring b).tail = (s.ring b).tail := by
  cases b <;> rfl

@[simp] theorem State.ready_memWrite (s : State) (b : RingSel) (x : Nat) (v : Byte) : ((s.memWrite b x v).ring b).ready = (s.ring b).ready := by
  cases b <;> rfl

@[simp] theorem State.mem_memWrite (s : State) (b : RingSel) (x : Nat) (v : Byte) : ((s.memWrite b x v).ring b).mem = Memory.write (s.ring b).mem (s.slot b x) v := by
  cases b <;> rfl

/-! ## resetEvent and reset -/

@[simp] theorem resetEvent_ring (s : State) (b : RingSel) : (resetEvent s).ring b = Ring.reset := by
  cases b <;> rfl

@[simp] theorem resetEvent_cfg (s : State) : (resetEvent s).cfg = s.cfg := rfl

@[simp] theorem resetEvent_size (s : State) (b : RingSel) : (resetEvent s).size b = s.size b := by
  cases b <;> rfl

@[simp] theorem resetEvent_inputs (s : State) : (resetEvent s).inputs = s.inputs := rfl

@[simp] theorem resetEvent_outputs (s : State) : (resetEvent s).outputs = s.outputs := rfl

@[simp] theorem resetEvent_resets (s : State) : (resetEvent s).resets = s.resets + 1 := rfl

@[simp] theorem resetWith_ring (c : Config) (b : RingSel) : (State.resetWith c).ring b = Ring.reset := by
  cases b <;> rfl

/-! ## Sizes -/

/-- Every ring has at least one slot (00_scope R5). -/
theorem State.size_pos (s : State) (b : RingSel) : 0 < s.size b := by
  cases b
  · exact s.cfg.inSize_pos
  · exact s.cfg.outSize_pos

/-- No ring has more than 65536 slots (00_scope R5). -/
theorem State.size_le (s : State) (b : RingSel) : s.size b ≤ 65536 := by
  cases b
  · exact s.cfg.inSize_le
  · exact s.cfg.outSize_le

theorem State.slot_lt (s : State) (b : RingSel) (x : Nat) : s.slot b x < s.size b :=
  Nat.mod_lt _ (s.size_pos b)

theorem State.slot_of_lt (s : State) {b : RingSel} {x : Nat} (h : x < s.size b) : s.slot b x = x :=
  Nat.mod_eq_of_lt h

/-- Both rings' invariants, by name. -/
theorem State.Inv.ring {s : State} (h : s.Inv) (b : RingSel) : s.ringInv b := by
  cases b
  · exact h.1
  · exact h.2

theorem State.inv_of_rings {s : State} (h : ∀ b, s.ringInv b) : s.Inv := ⟨h .inbound, h .outbound⟩

end Sys2Proof.Machine
end

