-- ==== Sys2Proof/Laws/Ring.lean ====
section
/-! SUPPORT. What the shared ring operations do (40_ringbuffer R80 to R97): said once here, cited by every later proof. -/

namespace Sys2Proof.Machine

/-! ## Ring arithmetic -/

/-- A value below twice the modulus, reduced. -/
theorem mod_of_lt_two {x n : Nat} (h : x < 2 * n) : x % n = if x < n then x else x - n := by
  split
  · exact Nat.mod_eq_of_lt ‹_›
  · rename_i hx
    rw [Nat.mod_eq_sub_mod (by omega), Nat.mod_eq_of_lt (by omega)]

variable {s : State} {b : RingSel}

theorem State.count_lt (h : s.ringInv b) : s.count b < s.size b := by
  obtain ⟨⟨hh, ht, -⟩, -⟩ := h
  unfold State.count
  split <;> omega

/-- The occupied region ends where the tail is (10_state R15). -/
theorem State.slot_count (h : s.ringInv b) : s.slot b ((s.ring b).head + s.count b) = (s.ring b).tail := by
  obtain ⟨⟨hh, ht, -⟩, -⟩ := h
  unfold State.slot State.count
  split
  · rw [Nat.mod_eq_of_lt (by omega)]; omega
  · rw [mod_of_lt_two (by omega), if_neg (by omega)]; omega

theorem State.ringFull_iff (h : s.ringInv b) : s.ringFull b = true ↔ s.count b = s.size b - 1 := by
  obtain ⟨⟨hh, ht, -⟩, -⟩ := h
  have := s.size_pos b
  simp only [State.ringFull, beq_iff_eq, State.count]
  rw [mod_of_lt_two (by omega)]
  split <;> split <;> omega

theorem State.ringEmpty_iff (h : s.ringInv b) : s.ringEmpty b = true ↔ s.count b = 0 := by
  obtain ⟨⟨hh, ht, -⟩, -⟩ := h
  simp only [State.ringEmpty, beq_iff_eq, State.count]
  split <;> omega

/-- A ring that is not ready is empty. -/
theorem State.count_of_not_ready (h : s.ringInv b) (hr : (s.ring b).ready = false) : s.count b = 0 := by
  obtain ⟨h0, h1⟩ := h.1.2.2.2.2 hr
  simp [State.count, h0, h1]

/-! ## Reading -/

theorem State.memRead_congr {s t : State} {b : RingSel} (hm : (t.ring b).mem = (s.ring b).mem)
    (hc : t.cfg = s.cfg) (hr : t.resets = s.resets) (x : Nat) : t.memRead b x = s.memRead b x := by
  simp [State.memRead, State.slot, State.size, hm, hc, hr]

@[simp] theorem State.memRead_consume (s : State) (b : RingSel) (k x : Nat) :
    (s.consume b k).memRead b x = s.memRead b x := State.memRead_congr (by simp) (by simp) (by simp) x

@[simp] theorem State.memRead_setTail (s : State) (b : RingSel) (k x : Nat) :
    (s.setTail b k).memRead b x = s.memRead b x := State.memRead_congr (by simp) (by simp) (by simp) x

theorem State.memRead_memWrite_self (s : State) (b : RingSel) (x : Nat) (v : Byte) :
    (s.memWrite b x v).memRead b x = v := by
  simp [State.memRead, Memory.read_write_self]

theorem State.memRead_memWrite_ne (s : State) (b : RingSel) {x y : Nat} (v : Byte) (h : s.slot b y ≠ s.slot b x) :
    (s.memWrite b x v).memRead b y = s.memRead b y := by
  simp [State.memRead, Memory.read_write_ne _ _ h]

/-- Reading after `k` bytes were consumed is reading `k` further on. -/
@[simp] theorem State.byteAt_consume (s : State) (b : RingSel) (k j : Nat) :
    (s.consume b k).byteAt b j = s.byteAt b (k + j) := by
  simp only [State.byteAt, State.memRead_consume, State.head_consume]
  simp only [State.memRead, State.slot, Nat.mod_add_mod, Nat.add_assoc]

@[simp] theorem State.length_front (s : State) (b : RingSel) (n : Nat) : (s.front b n).length = n := by
  simp [State.front]

@[simp] theorem State.length_contents (s : State) (b : RingSel) : (s.contents b).length = s.count b := by
  simp [State.contents]

theorem State.getElem_contents (s : State) (b : RingSel) (k : Nat) (h : k < (s.contents b).length) :
    (s.contents b)[k] = s.byteAt b k := by
  simp [State.contents, State.front]

theorem State.getD_contents (s : State) (b : RingSel) (d : Byte) {k : Nat} (h : k < s.count b) :
    (s.contents b).getD k d = s.byteAt b k := by
  rw [List.getD_eq_getElem _ _ (by simpa using h), State.getElem_contents]

theorem State.front_eq_take (s : State) (b : RingSel) {n : Nat} (h : n ≤ s.count b) :
    s.front b n = (s.contents b).take n := by
  apply List.ext_getElem
  · simp [h]
  · intro i h1 h2
    simp [State.contents, State.front]

/-- Contents depend on the registers, the storage, the parameters and the reset count only. -/
theorem State.contents_congr {s t : State} {b : RingSel} (hring : t.ring b = s.ring b) (hc : t.cfg = s.cfg)
    (hr : t.resets = s.resets) : t.contents b = s.contents b := by
  have h : ∀ k, t.byteAt b k = s.byteAt b k := fun k => by
    simp [State.byteAt, State.memRead, State.slot, State.size, hring, hc, hr]
  have hn : t.count b = s.count b := by simp [State.count, State.size, hring, hc]
  simp [State.contents, State.front, hn, h]

/-! ## Consuming -/

/-- `k` occupied bytes consumed: the count falls by `k` (R88). -/
theorem State.count_consume (h : s.ringInv b) {k : Nat} (hk : k ≤ s.count b) :
    (s.consume b k).count b = s.count b - k := by
  obtain ⟨⟨hh, ht, -⟩, -⟩ := h
  have := s.size_pos b
  unfold State.count at *
  simp only [State.head_consume, State.tail_consume, State.size_consume]
  rw [mod_of_lt_two (by split at hk <;> omega)]
  split at hk <;> (split <;> split <;> omega)

/-- `k` occupied bytes consumed leave the bytes after them. -/
theorem State.contents_consume (h : s.ringInv b) {k : Nat} (hk : k ≤ s.count b) :
    (s.consume b k).contents b = (s.contents b).drop k := by
  apply List.ext_getElem
  · simp [State.count_consume h hk]
  · intro i h1 h2
    rw [State.getElem_contents, List.getElem_drop, State.getElem_contents, State.byteAt_consume]

/-- Consuming occupied bytes keeps the ring invariant (R97). -/
theorem State.ringInv_consume (h : s.ringInv b) {k : Nat} (hk : k ≤ s.count b) : (s.consume b k).ringInv b := by
  have hc := State.count_consume h hk
  have hlt := State.count_lt h
  have hpos := s.size_pos b
  obtain ⟨⟨hh, ht, hw, hb, hn⟩, ho⟩ := h
  refine ⟨⟨?_, ?_, ?_, ?_, ?_⟩, ?_⟩
  · simpa using Nat.mod_lt _ hpos
  · simpa using ht
  · simpa using hw
  · simpa using hb
  · intro hr
    have hr' : (s.ring b).ready = false := by simpa using hr
    obtain ⟨h0, h1⟩ := hn hr'
    have hz : s.count b = 0 := by simp [State.count, h0, h1]
    have hk0 : k = 0 := by omega
    simp [h0, h1, hk0]
  · intro j hj
    rw [hc] at hj
    have := ho (k + j) (by omega)
    simpa [State.slot, Nat.mod_add_mod, Nat.add_assoc] using this

/-- An operation on ring `b` leaves the other ring's invariant. -/
theorem State.ringInv_congr {s t : State} {b : RingSel} (hring : t.ring b = s.ring b) (hc : t.cfg = s.cfg)
    (h : s.ringInv b) : t.ringInv b := by
  have hs : t.size b = s.size b := by simp [State.size, hc]
  have hn : t.count b = s.count b := by simp [State.count, hs, hring]
  obtain ⟨h1, h2⟩ := h
  refine ⟨by rw [hring, hs]; exact h1, ?_⟩
  intro k hk
  have := h2 k (by omega)
  simpa [hring, State.slot, hs] using this

/-! ## Putting one byte (R81) -/

/-- Everything a put can do. -/
theorem putByte_cases (b : RingSel) (v : Byte) (s : State) :
    ((s.ring b).ready = false ∧ putByte b v s = (s, .badarg)) ∨
    ((s.ring b).ready = true ∧ s.ringFull b = true ∧ putByte b v s = (s, .full)) ∨
    ((s.ring b).ready = true ∧ s.ringFull b = false ∧ putByte b v s =
      ((s.memWrite b (s.ring b).tail v).setTail b (((s.ring b).tail + 1) % s.size b), .ok)) := by
  unfold putByte
  cases hr : (s.ring b).ready <;> cases hf : s.ringFull b <;> simp

/-- A ready ring with room: the state after the put. -/
theorem putByte_of_room {v : Byte} (hr : (s.ring b).ready = true) (hf : s.ringFull b = false) :
    putByte b v s = ((s.memWrite b (s.ring b).tail v).setTail b (((s.ring b).tail + 1) % s.size b), .ok) := by
  simp [putByte, hr, hf]

/-- The state after an accepted put. -/
abbrev State.put (s : State) (b : RingSel) (v : Byte) : State :=
  (s.memWrite b (s.ring b).tail v).setTail b (((s.ring b).tail + 1) % s.size b)

theorem State.count_put (h : s.ringInv b) (hf : s.ringFull b = false) (v : Byte) :
    (s.put b v).count b = s.count b + 1 := by
  have hne : s.count b ≠ s.size b - 1 := fun e => by simp [(State.ringFull_iff h).mpr e] at hf
  obtain ⟨⟨hh, ht, -⟩, -⟩ := h
  have := s.size_pos b
  unfold State.count at *
  simp only [State.put, State.head_setTail, State.tail_setTail, State.head_memWrite, State.size_setTail,
    State.size_memWrite]
  rw [mod_of_lt_two (by omega)]
  split at hne <;> (split <;> split <;> omega)

/-- The slot a put writes lies outside the occupied region (R95). -/
theorem State.slot_tail_ne (h : s.ringInv b) {k : Nat} (hk : k < s.count b) :
    s.slot b ((s.ring b).head + k) ≠ s.slot b (s.ring b).tail := by
  have hlt := State.count_lt h
  obtain ⟨⟨hh, ht, -⟩, -⟩ := h
  unfold State.slot State.count at *
  rw [mod_of_lt_two (by omega), Nat.mod_eq_of_lt ht]
  split at hk <;> split <;> omega

theorem State.byteAt_put (h : s.ringInv b) (v : Byte) {k : Nat} (hk : k < s.count b) :
    (s.put b v).byteAt b k = s.byteAt b k := by
  simp only [State.byteAt, State.put, State.memRead_setTail, State.head_setTail, State.head_memWrite]
  exact State.memRead_memWrite_ne s b v (State.slot_tail_ne h hk)

theorem State.byteAt_put_last (h : s.ringInv b) (v : Byte) : (s.put b v).byteAt b (s.count b) = v := by
  simp only [State.byteAt, State.put, State.memRead_setTail, State.head_setTail, State.head_memWrite]
  have : s.slot b ((s.ring b).head + s.count b) = s.slot b (s.ring b).tail := by
    rw [State.slot_count h, State.slot_of_lt s h.1.2.1]
  simp only [State.memRead, State.slot_memWrite, this, State.mem_memWrite, Memory.read_write_self, Option.getD_some]

/-- An accepted put adds its byte at the end (R91). -/
theorem State.contents_put (h : s.ringInv b) (hf : s.ringFull b = false) (v : Byte) :
    (s.put b v).contents b = s.contents b ++ [v] := by
  have hc := State.count_put h hf v
  apply List.ext_getElem
  · simp only [State.length_contents, List.length_append, List.length_singleton, hc]
  · intro i h1 h2
    rw [State.getElem_contents]
    have hi : i < s.count b + 1 := by simpa [hc] using h1
    rcases Nat.lt_or_ge i (s.count b) with hlt | hge
    · rw [State.byteAt_put h v hlt, List.getElem_append_left (by simpa using hlt), State.getElem_contents]
    · have : i = s.count b := by omega
      subst this
      rw [State.byteAt_put_last h v]
      simp

/-- An accepted put keeps the ring invariant (R97). -/
theorem State.ringInv_put (h : s.ringInv b) (hr : (s.ring b).ready = true) (hf : s.ringFull b = false) (v : Byte) :
    (s.put b v).ringInv b := by
  have hc := State.count_put h hf v
  have hlast := State.slot_count h
  have hne := fun k => State.slot_tail_ne h (k := k)
  have hpos := s.size_pos b
  obtain ⟨⟨hh, ht, hw, hb, hn⟩, ho⟩ := h
  refine ⟨⟨?_, ?_, ?_, ?_, ?_⟩, ?_⟩
  · simpa using hh
  · simpa using Nat.mod_lt _ hpos
  · simpa using Memory.wf_write _ v hw
  · simpa using Memory.bound_write v (s.slot_lt b _) hb
  · intro h0
    simp [hr] at h0
  · intro k hk
    rw [hc] at hk
    have hs : s.slot b (s.ring b).tail = (s.ring b).tail := State.slot_of_lt s ht
    simp only [State.put, State.mem_setTail, State.mem_memWrite, State.slot_setTail, State.slot_memWrite,
      State.head_setTail, State.head_memWrite]
    rcases Nat.lt_or_ge k (s.count b) with hlt | hge
    · rw [Memory.read_write_ne _ _ (hne k hlt)]
      exact ho k hlt
    · have : k = s.count b := by omega
      subst this
      rw [hlast, hs, Memory.read_write_self]
      rfl

/-- What a put never touches, whatever it answers. -/
theorem putByte_frame (b : RingSel) (v : Byte) (s : State) :
    (putByte b v s).1.cfg = s.cfg ∧ (putByte b v s).1.resets = s.resets ∧ (putByte b v s).1.inputs = s.inputs ∧
    (putByte b v s).1.outputs = s.outputs ∧ (∀ b', b' ≠ b → (putByte b v s).1.ring b' = s.ring b') ∧
    ((putByte b v s).1.ring b).head = (s.ring b).head ∧ ((putByte b v s).1.ring b).ready = (s.ring b).ready := by
  rcases putByte_cases b v s with ⟨-, h⟩ | ⟨-, -, h⟩ | ⟨-, -, h⟩ <;> simp only [h]
  · simp
  · simp
  · refine ⟨by simp, by simp, by simp, by simp, ?_, by simp, by simp⟩
    intro b' hb
    rw [State.ring_setTail_ne _ _ hb, State.ring_memWrite_ne _ _ _ hb]

/-- A put keeps the invariant of its ring. -/
theorem ringInv_putByte (h : s.ringInv b) (v : Byte) : (putByte b v s).1.ringInv b := by
  rcases putByte_cases b v s with ⟨-, e⟩ | ⟨-, -, e⟩ | ⟨hr, hf, e⟩ <;> simp only [e]
  · exact h
  · exact h
  · exact State.ringInv_put h hr hf v

/-! ## Getting one byte (R82) -/

/-- Everything a get can do. -/
theorem getByte_cases (b : RingSel) (s : State) :
    ((s.ring b).ready = false ∧ getByte b s = (s, .error .badarg)) ∨
    ((s.ring b).ready = true ∧ s.ringEmpty b = true ∧ getByte b s = (s, .error .empty)) ∨
    ((s.ring b).ready = true ∧ s.ringEmpty b = false ∧ getByte b s = (s.consume b 1, .ok (s.byteAt b 0))) := by
  unfold getByte
  cases hr : (s.ring b).ready <;> cases hf : s.ringEmpty b <;> simp [State.byteAt]

/-- A get takes the first byte of the contents (R82, R91). -/
theorem getByte_of_contents (h : s.ringInv b) (hr : (s.ring b).ready = true) {v : Byte} {vs : List Byte}
    (hc : s.contents b = v :: vs) :
    getByte b s = (s.consume b 1, .ok v) ∧ (s.consume b 1).contents b = vs := by
  have hn : s.count b = vs.length + 1 := by rw [← State.length_contents, hc]; rfl
  have he : s.ringEmpty b = false := by
    cases e : s.ringEmpty b
    · rfl
    · have := (State.ringEmpty_iff h).mp e; omega
  have hv : s.byteAt b 0 = v := by
    rw [← State.getElem_contents s b 0 (by simp [hn])]; simp [hc]
  refine ⟨?_, ?_⟩
  · rcases getByte_cases b s with ⟨h0, -⟩ | ⟨-, h0, -⟩ | ⟨-, -, e⟩
    · simp [hr] at h0
    · simp [he] at h0
    · rw [e, hv]
  · rw [State.contents_consume h (by omega), hc]; rfl

/-- What a get never touches, whatever it answers. -/
theorem getByte_frame (b : RingSel) (s : State) :
    (getByte b s).1.cfg = s.cfg ∧ (getByte b s).1.resets = s.resets ∧ (getByte b s).1.inputs = s.inputs ∧
    (getByte b s).1.outputs = s.outputs ∧ (∀ b', b' ≠ b → (getByte b s).1.ring b' = s.ring b') ∧
    ((getByte b s).1.ring b).tail = (s.ring b).tail ∧ ((getByte b s).1.ring b).mem = (s.ring b).mem ∧
    ((getByte b s).1.ring b).ready = (s.ring b).ready := by
  rcases getByte_cases b s with ⟨-, h⟩ | ⟨-, -, h⟩ | ⟨-, -, h⟩ <;> simp only [h]
  · simp
  · simp
  · exact ⟨by simp, by simp, by simp, by simp, fun b' hb => State.ring_consume_ne _ _ hb, by simp, by simp, by simp⟩

/-- A get keeps the invariant of its ring. -/
theorem ringInv_getByte (h : s.ringInv b) : (getByte b s).1.ringInv b := by
  rcases getByte_cases b s with ⟨-, e⟩ | ⟨-, -, e⟩ | ⟨-, hf, e⟩ <;> simp only [e]
  · exact h
  · exact h
  · refine State.ringInv_consume h ?_
    rcases Nat.eq_zero_or_pos (s.count b) with h0 | h0
    · simp [(State.ringEmpty_iff h).mpr h0] at hf
    · omega

/-! ## Sending several bytes (43 R145, R146, R154) -/

/-- What `sendBytes` never touches. -/
theorem sendBytes_frame (b : RingSel) (vs : List Byte) (s : State) :
    (sendBytes b vs s).1.cfg = s.cfg ∧ (sendBytes b vs s).1.resets = s.resets ∧
    (sendBytes b vs s).1.inputs = s.inputs ∧ (sendBytes b vs s).1.outputs = s.outputs ∧
    (∀ b', b' ≠ b → (sendBytes b vs s).1.ring b' = s.ring b') ∧
    ((sendBytes b vs s).1.ring b).head = (s.ring b).head ∧ ((sendBytes b vs s).1.ring b).ready = (s.ring b).ready := by
  induction vs generalizing s with
  | nil => simp [sendBytes]
  | cons v vs ih =>
    obtain ⟨f1, f2, f3, f4, f5, f6, f7⟩ := putByte_frame b v s
    rcases putByte_cases b v s with ⟨-, h⟩ | ⟨-, -, h⟩ | ⟨-, -, h⟩ <;> rw [h] at f1 f2 f3 f4 f5 f6 f7 <;>
      simp only [sendBytes, h]
    · simp
    · simp
    · obtain ⟨g1, g2, g3, g4, g5, g6, g7⟩ := ih (s.put b v)
      exact ⟨g1.trans f1, g2.trans f2, g3.trans f3, g4.trans f4, fun b' hb => (g5 b' hb).trans (f5 b' hb),
        g6.trans f6, g7.trans f7⟩

/-- Sending bytes into a ready ring: as many as fit go in, in order, after what was there; the invariant stays. -/
theorem sendBytes_spec (vs : List Byte) (h : s.ringInv b) (hr : (s.ring b).ready = true) :
    (sendBytes b vs s).2 = min vs.length (s.free b) ∧
    (sendBytes b vs s).1.contents b = s.contents b ++ vs.take (sendBytes b vs s).2 ∧
    (sendBytes b vs s).1.ringInv b := by
  induction vs generalizing s with
  | nil => exact ⟨by simp [sendBytes], by simp [sendBytes], h⟩
  | cons v vs ih =>
    have hlt := State.count_lt h
    rcases putByte_cases b v s with ⟨h0, -⟩ | ⟨-, hf, e⟩ | ⟨-, hf, e⟩
    · simp [hr] at h0
    · have hfull := (State.ringFull_iff h).mp hf
      simp only [sendBytes, e]
      exact ⟨by simp [State.free, hfull], by simp, h⟩
    · have hne : s.count b ≠ s.size b - 1 := fun e => by simp [(State.ringFull_iff h).mpr e] at hf
      have hsz : (s.put b v).size b = s.size b := by simp
      have hcnt := State.count_put h hf v
      obtain ⟨i1, i2, i3⟩ := ih (State.ringInv_put h hr hf v) (by simpa using hr)
      simp only [sendBytes, e]
      refine ⟨?_, ?_, i3⟩
      · rw [i1]
        simp only [State.free, hsz, hcnt, List.length_cons]
        omega
      · rw [i2, State.contents_put h hf v]
        simp

/-- Sending into a ring that is not ready does nothing (R87). -/
theorem sendBytes_of_not_ready (vs : List Byte) (hr : (s.ring b).ready = false) : sendBytes b vs s = (s, 0) := by
  cases vs <;> simp [sendBytes, putByte, hr]

/-- `sendBytes` keeps the invariant of its ring. -/
theorem ringInv_sendBytes (vs : List Byte) (h : s.ringInv b) : (sendBytes b vs s).1.ringInv b := by
  cases hr : (s.ring b).ready
  · rw [sendBytes_of_not_ready vs hr]; exact h
  · exact (sendBytes_spec vs h hr).2.2

end Sys2Proof.Machine
end

