-- ==== Sys2Proof/Laws/Codec.lean ====
section
/-! SUPPORT. What the shared codec operations do (42_packet_codec R110 to R122): trim and extract on the occupied bytes, the
frame's layout, verify and extract message. -/

namespace Sys2Proof.Machine

variable {s : State} {b : RingSel}

/-! ## Byte order -/

theorem be16_toNat (h l : Byte) : (be16 h l).toNat = h.toNat * 256 + l.toNat := by
  unfold be16
  rw [BitVec.toNat_append]
  have := l.isLt
  rw [Nat.shiftLeft_eq, Nat.mul_comm, ← Nat.two_pow_add_eq_or_of_lt this]

@[simp] theorem be16_hi_lo (v : Half) : be16 (hiByte v) (loByte v) = v := by
  apply BitVec.eq_of_getLsbD_eq
  intro i hi
  simp only [be16, hiByte, loByte, BitVec.getLsbD_append, BitVec.getLsbD_extractLsb']
  split
  · simp [*]
  · rename_i h
    have : i - 8 < 8 := by omega
    simp [this]; congr 1; omega

@[simp] theorem hiByte_be16 (h l : Byte) : hiByte (be16 h l) = h := by
  apply BitVec.eq_of_getLsbD_eq
  intro i hi
  rw [hiByte, be16, BitVec.getLsbD_extractLsb', BitVec.getLsbD_append]
  simp [hi]

@[simp] theorem loByte_be16 (h l : Byte) : loByte (be16 h l) = l := by
  apply BitVec.eq_of_getLsbD_eq
  intro i hi
  rw [loByte, be16, BitVec.getLsbD_extractLsb', BitVec.getLsbD_append]
  simp [hi]

/-! ## Trim (R113) -/

theorem State.consume_consume (s : State) (b : RingSel) (j k : Nat) :
    (s.consume b j).consume b k = s.consume b (j + k) := by
  cases b <;> simp [State.consume, State.setHead, State.setRing, State.ring, State.size, Nat.mod_add_mod, Nat.add_assoc]

theorem State.consume_zero (h : s.ringInv b) : s.consume b 0 = s := by
  have : ((s.ring b).head + 0) % s.size b = (s.ring b).head := Nat.mod_eq_of_lt h.1.1
  unfold State.consume State.setHead
  rw [this]
  exact State.setRing_ring s b

/-- The bytes the trim discards: those before the first SOH (R113). -/
abbrev noise (p : List Byte) : List Byte := p.takeWhile fun v => v != sohByte

/-- The bytes the trim leaves: from the first SOH on (R113). -/
abbrev fromSoh (p : List Byte) : List Byte := p.dropWhile fun v => v != sohByte

theorem fromSoh_eq_drop (p : List Byte) : fromSoh p = p.drop (noise p).length := by
  induction p with
  | nil => rfl
  | cons v p ih =>
    by_cases h : v = sohByte
    · simp [fromSoh, noise, h]
    · have h' : (v != sohByte) = true := by simpa using h
      simp only [fromSoh, noise, List.dropWhile_cons, List.takeWhile_cons, h', if_true, List.length_cons,
        List.drop_succ_cons] at *
      exact ih

theorem length_noise_le (p : List Byte) : (noise p).length ≤ p.length :=
  (List.takeWhile_prefix _).length_le

theorem trimLoop_eq (k : Nat) (h : s.ringInv b) (hk : s.count b ≤ k) :
    trimLoop b k s = s.consume b (noise (s.contents b)).length := by
  induction k generalizing s with
  | zero =>
    have h0 : s.contents b = [] := List.eq_nil_of_length_eq_zero (by simp; omega)
    simp only [trimLoop, h0, noise, List.takeWhile_nil, List.length_nil]
    exact (State.consume_zero h).symm
  | succ k ih =>
    have hlen := State.length_contents s b
    cases hc : s.contents b with
    | nil =>
      rw [hc] at hlen
      have h0 : s.count b = 0 := by simpa using hlen.symm
      simp only [trimLoop, h0, Nat.lt_irrefl, false_and, if_false, noise, List.takeWhile_nil, List.length_nil]
      exact (State.consume_zero h).symm
    | cons v vs =>
      rw [hc] at hlen
      have hn : s.count b = vs.length + 1 := by simpa using hlen.symm
      have hv : s.byteAt b 0 = v := by
        rw [← State.getElem_contents s b 0 (by simp [hn])]; simp [hc]
      by_cases hs : v = sohByte
      · have : noise (v :: vs) = [] := by simp [noise, hs]
        rw [trimLoop, if_neg (by simp [hv, hs]), this]
        exact (State.consume_zero h).symm
      · have hnoise : noise (v :: vs) = v :: noise vs := by simp [noise, hs]
        rw [trimLoop, if_pos ⟨by omega, by rwa [hv]⟩]
        have h1 := State.ringInv_consume h (k := 1) (by omega)
        have hcnt := State.count_consume h (k := 1) (by omega)
        have hcon := State.contents_consume h (k := 1) (by omega)
        rw [ih h1 (by omega), hcon, hc, State.consume_consume, hnoise]
        simp [Nat.add_comm]

/-- The trim consumes exactly the noise before the first SOH (R113). -/
theorem trim_eq (h : s.ringInv b) : trim b s = s.consume b (noise (s.contents b)).length :=
  trimLoop_eq _ h (Nat.le_refl _)

theorem contents_trim (h : s.ringInv b) : (trim b s).contents b = fromSoh (s.contents b) := by
  rw [trim_eq h, State.contents_consume h (by simpa using length_noise_le (s.contents b)), fromSoh_eq_drop]

theorem ringInv_trim (h : s.ringInv b) : (trim b s).ringInv b := by
  rw [trim_eq h]
  exact State.ringInv_consume h (by simpa using length_noise_le (s.contents b))

/-! ## Locate (R112 to R119) -/

/-- The declared length of the bytes from an SOH on (R115). -/
abbrev lengthField (p : List Byte) : Nat := (be16 (p.getD 1 0) (p.getD 2 0)).toNat

theorem declaredLength_eq (h : 3 ≤ s.count b) : declaredLength b s = lengthField (s.contents b) := by
  rw [declaredLength, lengthField, State.getD_contents s b 0 (by omega), State.getD_contents s b 0 (by omega)]

/-- What extraction answers on the bytes from the SOH on, and how many of them it consumes (R114 to R118). -/
def extractBytes (cap : Nat) (p : List Byte) : Nat × Located :=
  if p.length < 7 then (0, .incomplete)
  else if p.length < lengthField p then (0, .incomplete)
  else if lengthField p < 3 then (0, .malformed)
  else if p.getD (lengthField p - 3) 0 ≠ etxByte then (0, .malformed)
  else if cap < lengthField p then (lengthField p, .overflow (lengthField p))
  else (lengthField p, .ok (p.take (lengthField p)))

theorem extractBytes_le (cap : Nat) (p : List Byte) : (extractBytes cap p).1 ≤ p.length := by
  unfold extractBytes
  repeat' split
  all_goals simp <;> omega

/-- Extraction from the ring is extraction from its occupied bytes. -/
theorem extract_eq (cap : Nat) (h : s.ringInv b) :
    extract b cap s = (s.consume b (extractBytes cap (s.contents b)).1, (extractBytes cap (s.contents b)).2) := by
  have hz := State.consume_zero h
  unfold extract extractBytes
  rw [State.length_contents]
  by_cases h7 : s.count b < 7
  · simp [h7, hz]
  rw [if_neg h7, if_neg h7, declaredLength_eq (by omega)]
  by_cases hL : s.count b < lengthField (s.contents b)
  · simp only [if_pos hL, hz]
  rw [if_neg hL, if_neg hL]
  by_cases h3 : lengthField (s.contents b) < 3
  · simp only [if_pos h3, hz]
  rw [if_neg h3, if_neg h3, State.getD_contents s b 0 (by omega)]
  by_cases he : s.byteAt b (lengthField (s.contents b) - 3) ≠ etxByte
  · simp only [if_pos he, hz]
  rw [if_neg he, if_neg he, State.front_eq_take s b (by omega)]
  by_cases hc : cap < lengthField (s.contents b)
  · simp only [if_pos hc]
  · simp only [if_neg hc]

/-- How many bytes PK_LOCATE removes from a ready ring that holds `p` (R119: `g`, or `g + L`). -/
def locateCount (cap : Nat) (p : List Byte) : Nat := (noise p).length + (extractBytes cap (fromSoh p)).1

theorem locateCount_le (cap : Nat) (p : List Byte) : locateCount cap p ≤ p.length := by
  have h1 := extractBytes_le cap (fromSoh p)
  have h2 := length_noise_le p
  rw [fromSoh_eq_drop, List.length_drop] at h1
  unfold locateCount
  rw [fromSoh_eq_drop]
  omega

/-- PK_LOCATE on a ready ring: its answer is that of the extractor on the bytes from the first SOH on, and it consumes the
noise and what the extractor consumes (R112, R119). -/
theorem locate_eq (cap : Nat) (h : s.ringInv b) (hr : (s.ring b).ready = true) (hcap : cap ≠ 0) :
    locate b cap s = (s.consume b (locateCount cap (s.contents b)),
      (extractBytes cap (fromSoh (s.contents b))).2) := by
  rw [locate, if_neg (by simp [hr, hcap]), extract_eq cap (ringInv_trim h), contents_trim h, trim_eq h,
    State.consume_consume]
  rfl

/-- PK_LOCATE's argument checks (R112, R87). -/
theorem locate_badarg {cap : Nat} (h : (s.ring b).ready = false ∨ cap = 0) : locate b cap s = (s, .badarg) := by
  rw [locate, if_pos h]

/-- Everything PK_LOCATE can do to a sound state: nothing, or consume occupied bytes of its ring. -/
theorem locate_cases (b : RingSel) (cap : Nat) (h : s.ringInv b) :
    ((s.ring b).ready = false ∨ cap = 0) ∧ locate b cap s = (s, .badarg) ∨
    ((s.ring b).ready = true ∧ cap ≠ 0) ∧ ∃ k ≤ s.count b, (locate b cap s).1 = s.consume b k ∧
      (s.consume b k).contents b = (s.contents b).drop k := by
  by_cases hb : (s.ring b).ready = false ∨ cap = 0
  · exact .inl ⟨hb, locate_badarg hb⟩
  · have hr : (s.ring b).ready = true := by
      cases e : (s.ring b).ready
      · exact absurd (.inl e) hb
      · rfl
    have hcap : cap ≠ 0 := fun e => hb (.inr e)
    have hle : locateCount cap (s.contents b) ≤ s.count b := by
      simpa using locateCount_le cap (s.contents b)
    exact .inr ⟨⟨hr, hcap⟩, _, hle, by rw [locate_eq cap h hr hcap], State.contents_consume h hle⟩

/-! ## The frame's bytes (R50) -/

theorem length_frameHead (len : Half) (msg : List Byte) : (frameHead len msg).length = msg.length + 5 := by
  simp [frameHead]

theorem length_frameBytes (len : Half) (msg : List Byte) (crc : Half) :
    (frameBytes len msg crc).length = msg.length + 7 := by
  simp [frameBytes, length_frameHead, be16Bytes]

theorem length_frameOf (msg : List Byte) : (frameOf msg).length = 7 + msg.length := by
  rw [frameOf, length_frameBytes]; omega

/-- Building succeeds exactly with room for a framed non-empty message (R110). -/
theorem build_ok {cap : Nat} {msg : List Byte} (h1 : 1 ≤ msg.length) (h2 : 7 + msg.length ≤ 65535)
    (h3 : 7 + msg.length ≤ cap) : build cap msg = .ok (frameOf msg) := by
  rw [build, if_neg (by omega), if_neg (by omega), if_neg (by omega)]

theorem length_tokenBytes (nul : Bool) (t : Token) : (tokenBytes nul t).length ≤ 6 := by
  cases nul <;> cases t <;> decide

theorem length_tokenBytes_pos (nul : Bool) {t : Token} (h : t ≠ .unknown) : 1 ≤ (tokenBytes nul t).length := by
  cases nul <;> cases t <;> first | decide | exact absurd rfl h

/-- A reply can always be framed: "cannot fail" (R145). -/
theorem build_token (c : Config) {t : Token} (h : t ≠ .unknown) :
    build c.pktMax (tokenBytes c.tokenNul t) = .ok (frameOf (tokenBytes c.tokenNul t)) := by
  have h1 := length_tokenBytes c.tokenNul t
  have h2 := length_tokenBytes_pos c.tokenNul h
  have h3 := c.pktMax_ge
  exact build_ok h2 (by omega) (by omega)

end Sys2Proof.Machine
end

