-- ==== Sys2Proof/Laws/Handshake.lean ====
section
/-! SUPPORT. What the reply path, the protocol cycle and the ports do (43_handshake_and_link R145 to R154), said once. -/

namespace Sys2Proof.Machine

variable {s : State}

/-! ## Sending a reply (R145, R146) -/

theorem replyOfId_replyId {t u : Token} (h : replyTo t = some u) : replyOfId (replyId (some u)) = some u := by
  cases t <;> simp [replyTo] at h <;> subst h <;> decide

theorem replyTo_ne_unknown {t u : Token} (h : replyTo t = some u) : u ≠ .unknown := by
  cases t <;> simp [replyTo] at h <;> subst h <;> decide

theorem replyOfId_ne_unknown {r : Byte} {t : Token} (h : replyOfId r = some t) : t ≠ .unknown := by
  unfold replyOfId at h
  repeat' split at h
  all_goals first | cases h; decide | cases h

/-- Everything sending a reply token can do: as many bytes of its frame as fit go into `OUT` (R145, R146). -/
theorem sendReply_eq {t : Token} (h : t ≠ .unknown) (s : State) :
    sendReply t s = ((sendBytes .outbound (frameOf (tokenBytes s.cfg.tokenNul t)) s).1,
      if (sendBytes .outbound (frameOf (tokenBytes s.cfg.tokenNul t)) s).2 = (frameOf (tokenBytes s.cfg.tokenNul t)).length
      then .ok (frameOf (tokenBytes s.cfg.tokenNul t)).length
      else .failed (sendBytes .outbound (frameOf (tokenBytes s.cfg.tokenNul t)) s).2) := by
  rw [sendReply, build_token s.cfg h]
  dsimp only
  split <;> rfl

/-- HS_SEND's body on a ready `OUT` with a reply id. -/
theorem send_eq {r : Byte} {t : Token} (hr : (s.ring .outbound).ready = true) (ht : replyOfId r = some t) :
    send r s = sendReply t s := by
  rw [send, if_neg (by simp [hr]), ht]

/-- HS_SEND's body where it is refused (R145). -/
theorem send_refused {r : Byte} (h : (s.ring .outbound).ready = false ∨ replyOfId r = none) :
    send r s = (s, .refused .badarg) := by
  unfold send
  split
  · rfl
  · rcases h with h | h
    · contradiction
    · rw [h]

/-! ## Reacting to a message and to a candidate (R147) -/

/-- POLL's reaction on a ready `OUT`: the table's answer, and the bytes of the reply frame that fit (R147). -/
theorem react_eq (msg : List Byte) (hr : (s.ring .outbound).ready = true) :
    react msg s = match replyTo (recognize s.cfg.tokenNul msg) with
      | none => s.respond .ok [tokenId (recognize s.cfg.tokenNul msg), 0]
      | some u =>
        if (sendBytes .outbound (frameOf (tokenBytes s.cfg.tokenNul u)) s).2 = (frameOf (tokenBytes s.cfg.tokenNul u)).length
        then (sendBytes .outbound (frameOf (tokenBytes s.cfg.tokenNul u)) s).1.respond .ok
          [tokenId (recognize s.cfg.tokenNul msg), tokenId u]
        else (sendBytes .outbound (frameOf (tokenBytes s.cfg.tokenNul u)) s).1.respond .sendFailed
          (tokenId (recognize s.cfg.tokenNul msg) :: tokenId u ::
            u16 (sendBytes .outbound (frameOf (tokenBytes s.cfg.tokenNul u)) s).2) := by
  unfold react
  dsimp only
  cases hu : replyTo (recognize s.cfg.tokenNul msg) with
  | none => rfl
  | some u =>
    dsimp only
    rw [send_eq hr (replyOfId_replyId hu), sendReply_eq (replyTo_ne_unknown hu)]
    split <;> rename_i h <;> simp only [Prod.mk.injEq] at h <;> obtain ⟨h1, h2⟩ := h
    · split at h2
      · rename_i hk; rw [if_pos hk, ← h1]; rfl
      · cases h2
    · split at h2
      · cases h2
      · rename_i hk
        cases h2
        rw [if_neg hk, ← h1]
        rfl
    · split at h2 <;> cases h2

/-- The bytes PK_VERIFY accepts are at least seven. -/
theorem length_of_verify {pkt : List Byte} (h : verify pkt = none) : 7 ≤ pkt.length := by
  unfold verify at h
  split at h
  · cases h
  · omega

/-- A candidate no longer than `PKT_MAX` (R147: extractMessage "cannot fail"). -/
theorem handleFrame_eq {pkt : List Byte} (hlen : pkt.length ≤ s.cfg.pktMax) :
    handleFrame pkt s = match verify pkt with
      | some r => s.respond .verifyFail [r.byte]
      | none => react (span pkt 4 (pkt.length - 3)) s := by
  unfold handleFrame
  cases hv : verify pkt with
  | some r => rfl
  | none =>
    have h7 := length_of_verify hv
    have hm : ¬ s.cfg.msgMax < pkt.length - 7 + 1 := by unfold Config.msgMax; omega
    dsimp only
    rw [extractMessage, if_neg (by omega), if_neg hm]

/-! ## The protocol cycle (R147, R148) -/

/-- POLL refused (R147). -/
theorem pollCycle_badarg (h : (s.ring .inbound).ready = false ∨ (s.ring .outbound).ready = false) :
    pollCycle s = s.respond .badarg [] := by
  rw [pollCycle, if_pos h]

/-- What the extractor answers is one of four: it never refuses its arguments. -/
theorem extractBytes_ne_badarg (cap : Nat) (p : List Byte) : (extractBytes cap p).2 ≠ .badarg := by
  unfold extractBytes
  repeat' split
  all_goals simp

theorem extractBytes_ok {cap : Nat} {p pkt : List Byte} (h : (extractBytes cap p).2 = .ok pkt) :
    (extractBytes cap p).1 = pkt.length ∧ pkt = p.take pkt.length ∧ pkt.length = lengthField p ∧ pkt.length ≤ cap := by
  unfold extractBytes at h ⊢
  repeat' split at h
  all_goals first
    | (simp at h; done)
    | skip
  rename_i h7 hL h3 he hc
  rw [if_neg h7, if_neg hL, if_neg h3, if_neg he, if_neg hc]
  simp only [Located.ok.injEq] at h
  subst h
  have : lengthField p ≤ p.length := by omega
  simp [this]
  omega

theorem extractBytes_malformed {cap : Nat} {p : List Byte} (h : (extractBytes cap p).2 = .malformed) :
    (extractBytes cap p).1 = 0 ∧ 7 ≤ p.length := by
  unfold extractBytes at h ⊢
  repeat' split at h
  all_goals first
    | (simp at h; done)
    | skip
  · rename_i h7 hL h3
    rw [if_neg h7, if_neg hL, if_pos h3]; exact ⟨rfl, by omega⟩
  · rename_i h7 hL h3 he
    rw [if_neg h7, if_neg hL, if_neg h3, if_pos he]; exact ⟨rfl, by omega⟩

/-- POLL on two ready rings, in terms of what the extractor answers on the occupied bytes from the first SOH on (R147). -/
theorem pollCycle_eq (h : s.ringInv .inbound) (hi : (s.ring .inbound).ready = true) (ho : (s.ring .outbound).ready = true) :
    pollCycle s =
      match (extractBytes s.cfg.pktMax (fromSoh (s.contents .inbound))).2 with
      | .badarg => s.respond .badarg []
      | .incomplete => (s.consume .inbound (locateCount s.cfg.pktMax (s.contents .inbound))).respond .incomplete []
      | .malformed => (s.consume .inbound (locateCount s.cfg.pktMax (s.contents .inbound) + 1)).respond .malformed []
      | .overflow len => (s.consume .inbound (locateCount s.cfg.pktMax (s.contents .inbound))).respond .overflow (u16 len)
      | .ok pkt => handleFrame pkt (s.consume .inbound (locateCount s.cfg.pktMax (s.contents .inbound))) := by
  have hcap : s.cfg.pktMax ≠ 0 := by have := s.cfg.pktMax_ge; omega
  have hle : locateCount s.cfg.pktMax (s.contents .inbound) ≤ s.count .inbound := by
    simpa using locateCount_le s.cfg.pktMax (s.contents .inbound)
  rw [pollCycle, if_neg (by simp [hi, ho]), locate_eq _ h hi hcap]
  cases hx : (extractBytes s.cfg.pktMax (fromSoh (s.contents .inbound))).2 with
  | badarg => exact absurd hx (extractBytes_ne_badarg _ _)
  | incomplete => rfl
  | overflow len => rfl
  | ok pkt => rfl
  | malformed =>
    dsimp only
    obtain ⟨h0, h7⟩ := extractBytes_malformed hx
    have hc := State.contents_consume h hle
    have hk : locateCount s.cfg.pktMax (s.contents .inbound) = (noise (s.contents .inbound)).length := by
      rw [locateCount, h0, Nat.add_zero]
    rw [hk, ← fromSoh_eq_drop] at hc
    have hinv := State.ringInv_consume h (k := (noise (s.contents .inbound)).length) (by omega)
    cases hp : fromSoh (s.contents .inbound) with
    | nil => rw [hp] at h7; simp at h7
    | cons v vs =>
      rw [hp] at hc
      obtain ⟨hg, -⟩ := getByte_of_contents hinv (by simpa using hi) hc
      rw [hk, hg, State.consume_consume]

/-! ## Ports (R150, R151) -/

/-- An RX transfer that is dropped (R150). -/
theorem rxTransfer_dropped {v : Byte} (h : (s.ring .inbound).ready = false ∨ s.ringFull .inbound = true) :
    rxTransfer v s = s.emit (.rx false) := by
  unfold rxTransfer
  rcases putByte_cases .inbound v s with ⟨-, e⟩ | ⟨-, -, e⟩ | ⟨hr, hf, -⟩
  · rw [e]; rfl
  · rw [e]; rfl
  · rcases h with h | h
    · simp [hr] at h
    · simp [hf] at h

/-- An RX transfer that is accepted (R150). -/
theorem rxTransfer_accepted {v : Byte} (hr : (s.ring .inbound).ready = true) (hf : s.ringFull .inbound = false) :
    rxTransfer v s = (s.put .inbound v).emit (.rx true) := by
  unfold rxTransfer
  rw [putByte_of_room hr hf]
  rfl

/-- Everything an RX transfer can do. -/
theorem rxTransfer_cases (v : Byte) (s : State) :
    rxTransfer v s = s.emit (.rx false) ∨
    ((s.ring .inbound).ready = true ∧ s.ringFull .inbound = false ∧ rxTransfer v s = (s.put .inbound v).emit (.rx true)) := by
  cases hr : (s.ring .inbound).ready
  · exact .inl (rxTransfer_dropped (.inl hr))
  · cases hf : s.ringFull .inbound
    · exact .inr ⟨rfl, rfl, rxTransfer_accepted hr hf⟩
    · exact .inl (rxTransfer_dropped (.inr hf))

@[simp] theorem rxTransfers_nil (s : State) : rxTransfers [] s = s := rfl

@[simp] theorem rxTransfers_cons (v : Byte) (vs : List Byte) (s : State) :
    rxTransfers (v :: vs) s = rxTransfers vs (rxTransfer v s) := rfl

/-- Everything a TX transfer can do (R151). -/
theorem txTransfer_cases (s : State) :
    (((s.ring .outbound).ready = false ∨ s.ringEmpty .outbound = true) ∧ txTransfer s = s.emit (.tx none)) ∨
    ((s.ring .outbound).ready = true ∧ s.ringEmpty .outbound = false ∧
      txTransfer s = (s.consume .outbound 1).emit (.tx (some (s.byteAt .outbound 0)))) := by
  unfold txTransfer
  rcases getByte_cases .outbound s with ⟨h, e⟩ | ⟨-, h, e⟩ | ⟨hr, h, e⟩ <;> rw [e]
  · exact .inl ⟨.inl h, rfl⟩
  · exact .inl ⟨.inr h, rfl⟩
  · exact .inr ⟨hr, h, rfl⟩

/-! ## Fetching and steps -/

/-- A step on an operation handed over as such. -/
theorem step_issue {who : Agent} {i : Instr} {rest : List Input} (h : s.inputs = .issue who i :: rest) :
    step s = exec i s.takeInput := by
  simp [step, fetched, h]

/-- A step on a command that decodes. -/
theorem step_command {who : Agent} {bytes : List Byte} {i : Instr} {rest : List Input}
    (h : s.inputs = .command who bytes :: rest) (hd : decodeCommand bytes = .ok i) : step s = exec i s.takeInput := by
  simp [step, fetched, h, hd]

/-- A step on a command no format fits. -/
theorem step_malformed {who : Agent} {bytes : List Byte} {e : Reject} {rest : List Input}
    (h : s.inputs = .command who bytes :: rest) (hd : decodeCommand bytes = .error e) :
    step s = .next (rejectCommand s.takeInput) := by
  simp [step, fetched, h, hd]

/-! ## Offered bytes and contexts (Safety) -/

/-- An operation that is no producer of a ring offers it nothing. -/
theorem offered_eq_nil {i : Instr} {b : RingSel} (h : produces i b = false) (s : State) : offered i b s = [] := by
  cases i <;> cases b <;> simp_all [offered, produces]

@[simp] theorem executedIn_inject (data : List Byte) : executedIn .inj (.inject data) = .eng := rfl

/-- Every agent but the injector acts in its own context. -/
theorem executedIn_of_ne {who : Agent} (h : who ≠ .inj) (i : Instr) : executedIn who i = who := by
  cases who <;> first | rfl | exact absurd rfl h

end Sys2Proof.Machine
end

