-- ==== Sys2Proof/Laws/PerInstr.lean ====
section
/-! SUPPORT. Statements made per operation, one lemma per constructor of Instr. -/

namespace Sys2Proof

/-- The length operand of a data string that fits `u16` counts it exactly. -/
theorem toNat_dataLength {data : List Byte} (h : fitsU16 data = true) : (dataLength data).toNat = data.length := by
  have h : data.length ≤ 65535 := by simpa [fitsU16] using h
  simp only [dataLength, BitVec.toNat_ofNat]
  omega

/-- The command bytes of R61 are not reserved and carry the operation they name, for either ring where the ring is used. -/
theorem opOfCommand_commandByte (b : RingSel) : ∀ op ∈ [1#8, 2#8, 3#8, 4#8, 5#8, 6#8, 7#8, 10#8],
    reservedByte (commandByte b op) = false ∧ opOfCommand (commandByte b op) = op.toNat := by
  cases b <;> decide

/-- A command with layout `CD` is as long as its length operand says. -/
theorem commandLength_dataCommand {c : Byte} {data : List Byte} (hc : c ∈ [(0x08 : Byte), 0x0B, 0x0D, 0x10])
    (h : fitsU16 data = true) : commandLength (c :: be16Bytes (dataLength data) ++ data) = 3 + data.length := by
  have hr : reservedByte c = false ∧ (opOfCommand c = 0x08 ∨ opOfCommand c = 0x0B ∨ opOfCommand c = 0x0D ∨ opOfCommand c = 0x10) := by
    revert c; decide
  obtain ⟨hr, ho⟩ := hr
  rcases ho with ho | ho | ho | ho <;>
    simp [commandLength, hr, ho, be16Bytes, Machine.be16_hi_lo, toNat_dataLength h]

/-- A command with layout `CCD` is as long as its second `u16` operand says. -/
theorem commandLength_capDataCommand {c : Byte} {cap : Half} {data : List Byte} (hc : c ∈ [(0x09 : Byte), 0x0C])
    (h : fitsU16 data = true) :
    commandLength (c :: be16Bytes cap ++ be16Bytes (dataLength data) ++ data) = 5 + data.length := by
  have hr : reservedByte c = false ∧ (opOfCommand c = 0x09 ∨ opOfCommand c = 0x0C) := by
    revert c; decide
  obtain ⟨hr, ho⟩ := hr
  rcases ho with ho | ho <;>
    simp [commandLength, hr, ho, be16Bytes, Machine.be16_hi_lo, toNat_dataLength h]

end Sys2Proof

namespace Sys2Proof.Laws.EncodedLength

/-- The bytes of a well-formed operation are as many as its encoding declares: on the command port what the command byte and the
length operands announce (R61, R62); on the wire one byte for a marker, the declared length for a frame (R51); and a token
payload fits a `u16`. -/
def Statement (i : Instr) : Prop :=
  ∀ nul : Bool, i.wellFormed nul = true →
    match i.space with
    | .command => commandLength (encode nul i) = (encode nul i).length
    | .marker => (encode nul i).length = 1
    | .frame => (be16 ((encode nul i).getD 1 0) ((encode nul i).getD 2 0)).toNat = (encode nul i).length
    | .token => (encode nul i).length ≤ 65535

theorem rbInit (b : RingSel) : Statement (.rbInit b) := by
  intro nul _
  simp [Instr.space, encode, commandLength, opOfCommand_commandByte b 1#8 (by decide)]

theorem rbPut (b : RingSel) (v : Byte) : Statement (.rbPut b v) := by
  intro nul _
  simp [Instr.space, encode, commandLength, opOfCommand_commandByte b 2#8 (by decide)]

theorem rbGet (b : RingSel) : Statement (.rbGet b) := by
  intro nul _
  simp [Instr.space, encode, commandLength, opOfCommand_commandByte b 3#8 (by decide)]

theorem rbPeek (b : RingSel) (off : Half) : Statement (.rbPeek b off) := by
  intro nul _
  simp [Instr.space, encode, commandLength, be16Bytes, opOfCommand_commandByte b 4#8 (by decide)]

theorem rbCount (b : RingSel) : Statement (.rbCount b) := by
  intro nul _
  simp [Instr.space, encode, commandLength, opOfCommand_commandByte b 5#8 (by decide)]

theorem rbFree (b : RingSel) : Statement (.rbFree b) := by
  intro nul _
  simp [Instr.space, encode, commandLength, opOfCommand_commandByte b 6#8 (by decide)]

theorem rbClear (b : RingSel) : Statement (.rbClear b) := by
  intro nul _
  simp [Instr.space, encode, commandLength, opOfCommand_commandByte b 7#8 (by decide)]

theorem crc16 (data : List Byte) : Statement (.crc16 data) := fun nul h =>
  (commandLength_dataCommand (by decide) h).trans (by simp [encode, be16Bytes]; omega)

theorem pkBuild (cap : Half) (msg : List Byte) : Statement (.pkBuild cap msg) := fun nul h =>
  (commandLength_capDataCommand (by decide) h).trans (by simp [encode, be16Bytes]; omega)

theorem pkLocate (b : RingSel) (cap : Half) : Statement (.pkLocate b cap) := by
  intro nul _
  simp [Instr.space, encode, commandLength, be16Bytes, opOfCommand_commandByte b 10#8 (by decide)]

theorem pkVerify (pkt : List Byte) : Statement (.pkVerify pkt) := fun nul h =>
  (commandLength_dataCommand (by decide) h).trans (by simp [encode, be16Bytes]; omega)

theorem pkExtractMsg (cap : Half) (pkt : List Byte) : Statement (.pkExtractMsg cap pkt) := fun nul h =>
  (commandLength_capDataCommand (by decide) h).trans (by simp [encode, be16Bytes]; omega)

theorem hsOnMessage (msg : List Byte) : Statement (.hsOnMessage msg) := fun nul h =>
  (commandLength_dataCommand (by decide) h).trans (by simp [encode, be16Bytes]; omega)

theorem hsSend (r : Byte) : Statement (.hsSend r) := by
  intro nul _
  have h : reservedByte 14#8 = false ∧ opOfCommand 14#8 = 14 := by decide
  simp [Instr.space, encode, commandLength, h.1, h.2]

theorem poll : Statement .poll := by
  intro nul _
  have h : reservedByte 15#8 = false ∧ opOfCommand 15#8 = 15 := by decide
  simp [Instr.space, encode, commandLength, h.1, h.2]

theorem inject (data : List Byte) : Statement (.inject data) := fun nul h =>
  (commandLength_dataCommand (by decide) h).trans (by simp [encode, be16Bytes]; omega)

theorem reservedCommand (c : Byte) (rest : List Byte) : Statement (.reservedCommand c rest) := by
  intro nul h
  have h : reservedByte c = true := h
  simp [Instr.space, encode, commandLength, h]

theorem rxPut (v : Byte) : Statement (.rxPut v) := by
  intro nul _
  simp [Instr.space, encode, commandLength, opOfCommand_commandByte .inbound 2#8 (by decide)]

theorem txGet : Statement .txGet := by
  intro nul _
  simp [Instr.space, encode, commandLength, opOfCommand_commandByte .outbound 3#8 (by decide)]

theorem isEmpty (b : RingSel) : Statement (.isEmpty b) := by
  intro nul _
  simp [Instr.space, encode, commandLength, opOfCommand_commandByte b 5#8 (by decide)]

theorem isFull (b : RingSel) : Statement (.isFull b) := by
  intro nul _
  simp [Instr.space, encode, commandLength, opOfCommand_commandByte b 6#8 (by decide)]

theorem frame (len : Half) (msg : List Byte) (crc : Half) : Statement (.frame len msg crc) := by
  intro nul h
  have h := (Bool.and_eq_true_iff.mp h).1
  have h : len.toNat = 7 + msg.length := by simpa using h
  simp [Instr.space, encode, frameBytes, frameHead, be16Bytes, Machine.be16_hi_lo, h]
  omega

theorem soh : Statement .soh := by intro nul _; show List.length _ = _; rfl

theorem stx : Statement .stx := by intro nul _; show List.length _ = _; rfl

theorem etx : Statement .etx := by intro nul _; show List.length _ = _; rfl

theorem tokenMarco : Statement .tokenMarco := by intro nul _; cases nul <;> (show List.length _ ≤ 65535) <;> decide

theorem tokenPolo : Statement .tokenPolo := by intro nul _; cases nul <;> (show List.length _ ≤ 65535) <;> decide

theorem tokenOk : Statement .tokenOk := by intro nul _; cases nul <;> (show List.length _ ≤ 65535) <;> decide

theorem tokenError : Statement .tokenError := by intro nul _; cases nul <;> (show List.length _ ≤ 65535) <;> decide

theorem tokenUnknown (msg : List Byte) : Statement (.tokenUnknown msg) := by
  intro nul h
  have h := (Bool.and_eq_true_iff.mp h).1
  show msg.length ≤ 65535
  exact of_decide_eq_true h

end Sys2Proof.Laws.EncodedLength
end

