-- ==== Sys2Proof/Tests/Slice0.lean ====
section
/-! SUPPORT. The model's own tests: well-formedness, words written out from the encoding tables of spec/30_encoding.md, one step
of each operation against a vector of spec/95_test_vectors.md, and for each statement with hypotheses a state that meets them. -/

namespace Sys2Proof.Tests

open Sys2Proof.Machine

/-! ## Helpers -/

/-- A ready ring of `size` slots whose occupied bytes are `bytes`, the oldest in slot `head`. -/
def ringOf (size head : Nat) (bytes : List Byte) : Ring :=
  { head := head, tail := (head + bytes.length) % size, ready := true,
    mem := bytes.zipIdx.foldl (fun m x => Memory.write m ((head + x.2) % size) x.1) [] }

def cfg1 : Config := { inSize := 1, outSize := 1, pktMax := 13, tokenNul := false }
def cfg8 : Config := { inSize := 8, outSize := 8, pktMax := 13, tokenNul := false }
def cfg16 : Config := { inSize := 16, outSize := 16, pktMax := 64, tokenNul := false }

/-- Both rings ready with the given contents, from the given slots on. -/
def stateOf (c : Config) (ih : Nat) (i : List Byte) (oh : Nat) (o : List Byte) : State :=
  { State.resetWith c with inRing := ringOf c.inSize ih i, outRing := ringOf c.outSize oh o }

/-- The reference configuration, `IN` and `OUT` filled from slot 0. -/
def ref (i o : List Byte) : State := stateOf Config.reference 0 i 0 o

/-- The same state with inputs presented. -/
def presenting (l : List Input) (s : State) : State := { s with inputs := l }

/-- The state an outcome goes on with (the reset state where it stops, which no test expects). -/
def nextOf : Host.Outcome State Fault Refusal → State
  | .next t => t
  | .fault _ => State.reset
  | .refused _ => State.reset

/-- The state after an operation. -/
def after (i : Instr) (s : State) : State := nextOf (exec i s)

/-- The bytes of the last response on the command port. -/
def answer (i : Instr) (s : State) : List Byte :=
  match (after i s).outputs.getLast? with
  | some (.response r) => r.bytes
  | _ => []

/-- `head/tail/count` of a ring, as spec/95 writes it. -/
def cursors (b : RingSel) (s : State) : Nat × Nat × Nat := ((s.ring b).head, (s.ring b).tail, s.count b)

def garbage : List Byte := [0x67, 0x61, 0x72, 0x62, 0x61, 0x67, 0x65]
def frameHi : List Byte := [0x01, 0x00, 0x09, 0x02, 0x68, 0x69, 0x03, 0x4E, 0x6E]
def frameMarco : List Byte := [0x01, 0x00, 0x0C, 0x02, 0x6D, 0x61, 0x72, 0x63, 0x6F, 0x03, 0xFA, 0x96]
def framePolo : List Byte := [0x01, 0x00, 0x0B, 0x02, 0x70, 0x6F, 0x6C, 0x6F, 0x03, 0x7E, 0x8B]
def frameOk : List Byte := [0x01, 0x00, 0x09, 0x02, 0x6F, 0x6B, 0x03, 0xAD, 0x9C]
def frameXyz : List Byte := [0x01, 0x00, 0x0A, 0x02, 0x78, 0x79, 0x7A, 0x03, 0xD3, 0x8C]
def frameEmpty : List Byte := [0x01, 0x00, 0x07, 0x02, 0x03, 0x79, 0xC0]
def frameBadEtx : List Byte := [0x01, 0x00, 0x09, 0x02, 0x68, 0x69, 0xFF, 0x4E, 0x6E]
def frameBadCrc : List Byte := [0x01, 0x00, 0x09, 0x02, 0x68, 0x69, 0x03, 0x4E, 0x6F]
def marco : List Byte := [0x6D, 0x61, 0x72, 0x63, 0x6F]

/-! ## Well-formedness: an ill-formed term for each check -/

theorem test_wellFormed_refuses_long_data (nul : Bool) :
    (Instr.crc16 (List.replicate 65536 0)).wellFormed nul = false ∧
    (Instr.pkBuild 64 (List.replicate 65536 0)).wellFormed nul = false ∧
    (Instr.pkVerify (List.replicate 65536 0)).wellFormed nul = false ∧
    (Instr.pkExtractMsg 64 (List.replicate 65536 0)).wellFormed nul = false ∧
    (Instr.hsOnMessage (List.replicate 65536 0)).wellFormed nul = false ∧
    (Instr.inject (List.replicate 65536 0)).wellFormed nul = false ∧
    (Instr.tokenUnknown (List.replicate 65536 0)).wellFormed nul = false := by
  have h : fitsU16 (List.replicate 65536 0) = false := by unfold fitsU16; rw [List.length_replicate]; decide
  exact ⟨h, h, h, h, h, h, by simp only [Instr.wellFormed, h, Bool.false_and]⟩

theorem test_wellFormed_refuses_used_command_byte : (Instr.reservedCommand 0x01 []).wellFormed false = false := by decide +kernel

theorem test_wellFormed_refuses_frame_length : (Instr.frame 8 [0x68, 0x69] 0x4E6E).wellFormed false = false := by decide

theorem test_wellFormed_refuses_frame_checksum : (Instr.frame 9 [0x68, 0x69] 0x4E6F).wellFormed false = false := by decide +kernel

theorem test_wellFormed_refuses_known_token :
    (Instr.tokenUnknown marco).wellFormed false = false ∧ (Instr.tokenUnknown (marco ++ [0])).wellFormed true = false := by
  decide

/-! ## Decoding: words from R61's table (command byte = bsel, 00, op), R50 and R57 -/

theorem test_decode_rbInit :
    decodeCommand [0b00000001] = .ok (.rbInit .inbound) ∧ decodeCommand [0b10000001] = .ok (.rbInit .outbound) := by decide
theorem test_decode_rbPut : decodeCommand [0b10000010, 0xA5] = .ok (.rbPut .outbound 0xA5) := by decide
theorem test_decode_rbGet : decodeCommand [0b00000011] = .ok (.rbGet .inbound) := by decide
theorem test_decode_rbPeek : decodeCommand [0b10000100, 0x12, 0x34] = .ok (.rbPeek .outbound 0x1234) := by decide
theorem test_decode_rbCount : decodeCommand [0b00000101] = .ok (.rbCount .inbound) := by decide
theorem test_decode_rbFree : decodeCommand [0b10000110] = .ok (.rbFree .outbound) := by decide
theorem test_decode_rbClear : decodeCommand [0b00000111] = .ok (.rbClear .inbound) := by decide
theorem test_decode_crc16 : decodeCommand [0b00001000, 0x00, 0x03, 1, 2, 3] = .ok (.crc16 [1, 2, 3]) := by decide
theorem test_decode_pkBuild : decodeCommand [0b00001001, 0x12, 0x34, 0x00, 0x01, 7] = .ok (.pkBuild 0x1234 [7]) := by decide
theorem test_decode_pkLocate : decodeCommand [0b00001010, 0x01, 0x02] = .ok (.pkLocate .inbound 0x0102) := by decide
theorem test_decode_pkVerify : decodeCommand [0b00001011, 0x00, 0x00] = .ok (.pkVerify []) := by decide
theorem test_decode_pkExtractMsg :
    decodeCommand [0b00001100, 0x00, 0x3A, 0x00, 0x02, 8, 9] = .ok (.pkExtractMsg 58 [8, 9]) := by decide
theorem test_decode_hsOnMessage : decodeCommand [0b00001101, 0x00, 0x02, 0x6F, 0x6B] = .ok (.hsOnMessage [0x6F, 0x6B]) := by
  decide
theorem test_decode_hsSend : decodeCommand [0b00001110, 0x04] = .ok (.hsSend 4) := by decide
theorem test_decode_poll : decodeCommand [0b00001111] = .ok .poll := by decide
theorem test_decode_inject : decodeCommand [0b00010000, 0x00, 0x01, 0xFF] = .ok (.inject [0xFF]) := by decide
theorem test_decode_reserved :
    decodeCommand [0b00000000] = .ok (.reservedCommand 0x00 []) ∧
    decodeCommand [0b00010001] = .ok (.reservedCommand 0x11 []) ∧
    decodeCommand [0b00011111] = .ok (.reservedCommand 0x1F []) ∧
    decodeCommand [0b01000001] = .ok (.reservedCommand 0x41 []) ∧
    decodeCommand [0b00100001, 5] = .ok (.reservedCommand 0x21 [5]) ∧
    decodeCommand [0b10001111] = .ok (.reservedCommand 0x8F []) := by decide
theorem test_decode_malformed :
    decodeCommand [] = .error .emptyCommand ∧ decodeCommand [0x01, 0x00] = .error .tooLong ∧
    decodeCommand [0x0F, 0x00] = .error .tooLong ∧ decodeCommand [0x08, 0x00, 0x02, 0x01] = .error .tooShort ∧
    decodeCommand [0x09, 0x00, 0x02, 0x00] = .error .tooShort := by decide
theorem test_decode_markers :
    decodeMarker [0b00000001] = .ok .soh ∧ decodeMarker [0b00000010] = .ok .stx ∧ decodeMarker [0b00000011] = .ok .etx ∧
    decodeMarker [0x04] = .error .notMarker := by decide
theorem test_decode_frame :
    decodeFrame [0x01, 0x00, 0x09, 0x02, 0x68, 0x69, 0x03, 0x4E, 0x6E] = .ok (.frame 9 [0x68, 0x69] 0x4E6E) ∧
    decodeFrame [0x01, 0x00, 0x07, 0x02, 0x03, 0x79, 0xC0] = .ok (.frame 7 [] 0x79C0) ∧
    decodeFrame [0x01, 0x00, 0x02, 0x02, 0x68, 0x69, 0x03, 0xA2, 0x91] = .error .notFrame := by decide
theorem test_decode_tokens :
    decodeToken false [0x6D, 0x61, 0x72, 0x63, 0x6F] = .tokenMarco ∧ decodeToken false [0x70, 0x6F, 0x6C, 0x6F] = .tokenPolo ∧
    decodeToken false [0x6F, 0x6B] = .tokenOk ∧ decodeToken false [0x65, 0x72, 0x72, 0x6F, 0x72] = .tokenError ∧
    decodeToken true [0x6F, 0x6B, 0x00] = .tokenOk ∧ decodeToken true [0x6F, 0x6B] = .tokenUnknown [0x6F, 0x6B] := by decide
/-- Two words numbered as spec/opcode_table.json numbers them: byte 0 in bits 7:0. -/
theorem test_decodeTableWord :
    decodeTableWord 16 0x4102 = some (.rbPut .inbound 0x41) ∧ decodeTableWord 24 0x400004 = some (.rbPeek .inbound 0x40) := by
  decide
/-- The first step after reset runs the word. -/
theorem test_withFetchWord : (nextOf (step (State.reset.withFetchWord 8 0x81))).outRing.ready = true := by decide

/-! ## One step each (vectors of spec/95_test_vectors.md) -/

/-- V-RB-1 row 3 and V-RB-1 row 23. -/
theorem test_rbInit : cursors .inbound (after (.rbInit .inbound) (stateOf cfg8 1 [] 0 [])) = (0, 0, 0) := by decide
/-- V-RB-3: the wrap of the tail. -/
theorem test_rbPut_wraps : cursors .inbound (after (.rbPut .inbound 0x0B) (stateOf cfg8 6 [0x0A] 0 [])) = (6, 0, 2) := by decide
/-- V-RB-2: the eighth put. -/
theorem test_rbPut_full : answer (.rbPut .inbound 0x07) (stateOf cfg8 0 [0, 1, 2, 3, 4, 5, 6] 0 []) = [0x05] := by decide
/-- R82's example shape: head at the last slot. -/
theorem test_rbGet_wraps :
    answer (.rbGet .inbound) (stateOf cfg8 7 [0x44] 0 []) = [0x00, 0x44] ∧
    cursors .inbound (after (.rbGet .inbound) (stateOf cfg8 7 [0x44] 0 [])) = (0, 0, 0) := by decide
/-- V-RB-1 row 18. -/
theorem test_rbGet_empty : answer (.rbGet .inbound) (stateOf cfg8 0 [] 0 []) = [0x06] := by decide
/-- V-RB-3: `RB_PEEK 2 -> OK 0C`. -/
theorem test_rbPeek_wrapped : answer (.rbPeek .inbound 2) (stateOf cfg8 6 [0x0A, 0x0B, 0x0C, 0x0D] 0 []) = [0x00, 0x0C] := by
  decide
/-- V-RB-3: `RB_PEEK 4 -> EMPTY`. -/
theorem test_rbPeek_bound : answer (.rbPeek .inbound 4) (stateOf cfg8 6 [0x0A, 0x0B, 0x0C, 0x0D] 0 []) = [0x06] := by decide
/-- V-RB-3: count 4. -/
theorem test_rbCount_wrapped : answer (.rbCount .inbound) (stateOf cfg8 6 [0x0A, 0x0B, 0x0C, 0x0D] 0 []) = [0, 0, 4] := by decide
/-- V-RB-3: free 3. -/
theorem test_rbFree_wrapped : answer (.rbFree .inbound) (stateOf cfg8 6 [0x0A, 0x0B, 0x0C, 0x0D] 0 []) = [0, 0, 3] := by decide
/-- V-RB-3: `RB_CLEAR` gives 2/2/0. -/
theorem test_rbClear : cursors .inbound (after (.rbClear .inbound) (stateOf cfg8 6 [0x0A, 0x0B, 0x0C, 0x0D] 0 [])) = (2, 2, 0) := by
  decide
/-- V-CRC-11. -/
theorem test_crc16_check :
    answer (.crc16 [0x31, 0x32, 0x33, 0x34, 0x35, 0x36, 0x37, 0x38, 0x39]) State.reset = [0x00, 0x31, 0xC3] := by decide +kernel
/-- R108: one byte, the eight rounds. -/
theorem test_crcUpdate : crcUpdate 0x0000 0x80 = 0x9188 ∧ crcUpdate 0x0000 0xFF = 0x1EF0 := by decide
/-- V-PK-2. -/
theorem test_pkBuild_hi : answer (.pkBuild 9 [0x68, 0x69]) State.reset = [0x00, 0x00, 0x09] ++ frameHi := by decide +kernel
/-- V-PK-3 and V-PK-5. -/
theorem test_pkBuild_refuses :
    answer (.pkBuild 8 [0x68, 0x69]) State.reset = [0x03] ∧ answer (.pkBuild 0 []) State.reset = [0x04] := by decide
/-- V-LO-31: the frame wraps inside its length field. -/
theorem test_pkLocate_wrapped :
    answer (.pkLocate .inbound 64) (stateOf cfg16 14 frameHi 0 []) = [0x00, 0x00, 0x09] ++ frameHi ∧
    cursors .inbound (after (.pkLocate .inbound 64) (stateOf cfg16 14 frameHi 0 [])) = (7, 7, 0) := by decide
/-- V-LO-9: two bytes of noise stay discarded. -/
theorem test_pkLocate_incomplete :
    answer (.pkLocate .inbound 64) (ref [0x55, 0x66, 0x01, 0x00, 0x09, 0x02, 0x68] []) = [0x01] ∧
    cursors .inbound (after (.pkLocate .inbound 64) (ref [0x55, 0x66, 0x01, 0x00, 0x09, 0x02, 0x68] [])) = (2, 7, 5) := by decide
/-- V-PK-18 (reason 5) and V-PK-24 (reason 4). -/
theorem test_pkVerify_reasons :
    answer (.pkVerify [0x01, 0x00, 0x02, 0x02, 0x68, 0x69, 0x03, 0xA2, 0x91]) State.reset = [0x08, 5] ∧
    answer (.pkVerify [0x01, 0x00, 0x09, 0x02, 0x68, 0x69, 0x03, 0x4E]) State.reset = [0x08, 4] := by decide
/-- V-PK-25. -/
theorem test_pkVerify_empty : answer (.pkVerify [0x01, 0x00, 0x07, 0x02, 0x03, 0x79, 0xC0]) State.reset = [0x00] := by decide +kernel
/-- V-PK-31. -/
theorem test_pkExtractMsg : answer (.pkExtractMsg 3 frameHi) State.reset = [0x00, 0x00, 0x02, 0x68, 0x69, 0x00] := by decide
/-- V-PK-32 and V-PK-34. -/
theorem test_pkExtractMsg_refuses :
    answer (.pkExtractMsg 2 frameHi) State.reset = [0x03] ∧ answer (.pkExtractMsg 58 (frameHi.take 6)) State.reset = [0x04] := by
  decide
/-- V-HS-1 and V-HS-8. -/
theorem test_hsOnMessage :
    answer (.hsOnMessage marco) State.reset = [0x00, 1, 2] ∧ answer (.hsOnMessage (marco ++ [0x20])) State.reset = [0x00, 0, 4] := by
  decide
/-- V-SE-1. -/
theorem test_hsSend_polo :
    answer (.hsSend 2) (ref [] []) = [0x00, 0x00, 0x0B] ∧ (after (.hsSend 2) (ref [] [])).contents .outbound = framePolo := by
  decide +kernel
/-- V-SE-4. -/
theorem test_hsSend_cut :
    answer (.hsSend 2) (stateOf cfg8 0 [] 0 []) = [0x07, 0x00, 0x07] ∧
    (after (.hsSend 2) (stateOf cfg8 0 [] 0 [])).contents .outbound = framePolo.take 7 := by decide
/-- V-PO-9. -/
theorem test_poll_marco :
    answer .poll (ref (garbage ++ frameMarco) []) = [0x00, 1, 2] ∧
    (after .poll (ref (garbage ++ frameMarco) [])).contents .outbound = framePolo := by decide +kernel
/-- V-PO-12's shape: a wrong trailer, one byte discarded. -/
theorem test_poll_malformed :
    answer .poll (ref frameBadEtx []) = [0x02] ∧ cursors .inbound (after .poll (ref frameBadEtx [])) = (1, 9, 8) := by decide
/-- R154's example: OK, and BUSY when repeated. -/
theorem test_inject :
    answer (.inject frameHi) (ref [] []) = [0x00] ∧ answer (.inject frameHi) (after (.inject frameHi) (ref [] [])) = [0x09] := by
  decide
/-- R64. -/
theorem test_reservedCommand : answer (.reservedCommand 0x21 []) (ref [] []) = [0x04] := by decide
/-- R150: accepted, and dropped while not ready (R87). -/
theorem test_rxPut :
    (after (.rxPut 0x41) (ref [] [])).outputs = [.rx true] ∧ (after (.rxPut 0x41) State.reset).outputs = [.rx false] := by decide
/-- R151: a byte, and no byte. -/
theorem test_txGet :
    (after .txGet (ref [] [0x41])).outputs = [.tx (some 0x41)] ∧ (after .txGet (ref [] [])).outputs = [.tx none] := by decide
/-- V-RB-4: a one-slot ring is empty and full. -/
theorem test_isEmpty : (after (.isEmpty .inbound) (stateOf cfg1 0 [] 0 [])).outputs = [.status true] := by decide
theorem test_isFull : (after (.isFull .inbound) (stateOf cfg1 0 [] 0 [])).outputs = [.status true] := by decide
/-- R33: offset 0 first. -/
theorem test_frame : (after (.frame 9 [0x68, 0x69] 0x4E6E) (ref [] [])).contents .inbound = frameHi := by decide
theorem test_markers :
    (after .soh (ref [] [])).contents .inbound = [0x01] ∧ (after .stx (ref [] [])).contents .inbound = [0x02] ∧
    (after .etx (ref [] [])).contents .inbound = [0x03] := by decide
/-- R141's rows. -/
theorem test_tokens :
    answer .tokenMarco State.reset = [0, 1, 2] ∧ answer .tokenPolo State.reset = [0, 2, 3] ∧ answer .tokenOk State.reset = [0, 3, 0] ∧
    answer .tokenError State.reset = [0, 4, 0] ∧ answer (.tokenUnknown []) State.reset = [0, 0, 4] := by decide

/-! ## Witnesses: states and operands that meet the hypotheses of each statement, clause by clause -/

theorem test_witness_DecodeOfEncode :
    (Instr.rbPeek .outbound 0xFFFF).wellFormed false = true ∧ Instr.soh.wellFormed true = true ∧
    (Instr.frame 9 [0x68, 0x69] 0x4E6E).wellFormed false = true ∧ (Instr.tokenUnknown []).wellFormed true = true := by decide +kernel

theorem test_witness_EncodeOfDecode : decodeCommand [0x8A, 0xFF, 0xFF] = .ok (.pkLocate .outbound 0xFFFF) := by decide

theorem test_witness_ReservedCommandsAnswerBadarg :
    (0x00 : Byte).toNat % 32 = 0 ∧ 0x11 ≤ (0x11 : Byte).toNat % 32 ∧ (0x41 : Byte).getLsbD 6 = true ∧
    (0x21 : Byte).getLsbD 5 = true ∧
    ((0x88 : Byte).getLsbD 7 = true ∧ (0x88 : Byte).toNat % 32 ∉ [0x01, 0x02, 0x03, 0x04, 0x05, 0x06, 0x07, 0x0A]) ∧
    (∀ r ∈ [(1 : Byte), 5], r ≠ 2 ∧ r ≠ 3 ∧ r ≠ 4) := by decide

theorem test_witness_MalformedCommandsAnswerBadarg :
    (presenting [.command .eng [0x02]] State.reset).inputs = .command .eng [0x02] :: [] ∧ reservedByte 0x02 = false ∧
    ([0x02] : List Byte).length ≠ commandLength [0x02] ∧ ([0x02, 1, 2] : List Byte).length ≠ commandLength [0x02, 1, 2] := by decide

theorem test_witness_StepRunsPresentedOperation :
    (presenting [.command .eng [0x0F]] State.reset).inputs = .command .eng [0x0F] :: [] ∧ decodeCommand [0x0F] = .ok .poll ∧
    (presenting [.issue .tx .txGet] State.reset).inputs = .issue .tx .txGet :: [] ∧
    (presenting [.command .eng []] State.reset).inputs = .command .eng [] :: [] ∧ decodeCommand [] = .error .emptyCommand ∧
    (presenting [.reset] State.reset).inputs = .reset :: [] ∧ State.reset.inputs = [] := by decide

theorem test_witness_ResetEventClearsBothRings : (presenting [.reset] (ref frameHi [])).inputs = .reset :: [] := by decide

theorem test_witness_OnlyIllegalConfigurationsRefused :
    Config.make 1 65536 13 true = some { inSize := 1, outSize := 65536, pktMax := 13, tokenNul := true } ∧
    Config.make 0 64 64 false = none ∧ Config.make 64 65537 64 false = none ∧ Config.make 64 64 12 false = none := by decide

/-- Sound states: a ring not ready; ready and empty; ready, wrapped and full. -/
theorem test_sound_states :
    (State.reset.Inv ∧ (stateOf cfg8 7 [] 0 []).Inv) ∧ (stateOf cfg8 6 [0, 1, 2, 3, 4, 5, 6] 3 [9]).Inv ∧
      (stateOf cfg1 0 [] 0 []).Inv := ⟨by decide, by decide⟩

theorem test_witness_RbPutStoresAtTail :
    (State.reset.ringInv .inbound ∧ (State.reset.ring .inbound).ready = false) ∧
    (let s := stateOf cfg8 6 [0, 1, 2, 3, 4, 5, 6] 0 []
     s.ringInv .inbound ∧ (s.ring .inbound).ready = true ∧
      ((s.ring .inbound).tail + 1) % s.size .inbound = (s.ring .inbound).head) ∧
    (let s := stateOf cfg8 2 [0, 1, 2, 3, 4] 0 []
     s.ringInv .inbound ∧ (s.ring .inbound).ready = true ∧ (s.ring .inbound).tail = 7 ∧
      ((s.ring .inbound).tail + 1) % s.size .inbound ≠ (s.ring .inbound).head) := by decide

theorem test_witness_RbGetTakesFromHead :
    (State.reset.ring .outbound).ready = false ∧
    (let s := stateOf cfg8 0 [] 7 []
     (s.ring .outbound).ready = true ∧ (s.ring .outbound).head = (s.ring .outbound).tail) ∧
    (let s := stateOf cfg8 0 [] 7 [5]
     (s.ring .outbound).ready = true ∧ (s.ring .outbound).head ≠ (s.ring .outbound).tail) := by decide

theorem test_witness_RbPeekReadsWithoutConsuming :
    (State.reset.ring .inbound).ready = false ∧
    (let s := stateOf cfg8 7 [5, 6] 0 []
     (s.ring .inbound).ready = true ∧ s.count .inbound ≤ (2 : Half).toNat ∧ (1 : Half).toNat < s.count .inbound) := by decide

theorem test_witness_RbCountAnswersOccupied :
    (State.reset.ringInv .inbound ∧ (State.reset.ring .inbound).ready = false) ∧
    (let s := stateOf cfg8 6 [0, 1, 2] 0 []
     s.ringInv .inbound ∧ (s.ring .inbound).ready = true ∧ ¬ (s.ring .inbound).head ≤ (s.ring .inbound).tail) ∧
    (let s := stateOf cfg8 6 [] 0 []
     s.ringInv .inbound ∧ (s.ring .inbound).ready = true ∧ (s.ring .inbound).head ≤ (s.ring .inbound).tail) := by decide

theorem test_witness_RbFreeAnswersRoom :
    (State.reset.ringInv .outbound ∧ (State.reset.ring .outbound).ready = false) ∧
    (stateOf cfg1 0 [] 0 []).ringInv .outbound ∧ ((stateOf cfg1 0 [] 0 []).ring .outbound).ready = true := by decide

theorem test_witness_RbClearSetsHeadToTail :
    (State.reset.ring .inbound).ready = false ∧ ((stateOf cfg8 6 [0, 1, 2] 0 []).ring .inbound).ready = true := by decide

theorem test_witness_NotReadyRingAnswersBadarg :
    (State.reset.ring .inbound).ready = false ∧ (State.reset.ring .outbound).ready = false := by decide

theorem test_witness_CountPlusFreeIsUsableCapacity :
    ∃ t, core.run 1 (presenting [.command .eng [0x01]] (State.resetWith cfg8)) = .next t ∧
      (t.ring .inbound).ready = true := ⟨_, rfl, by decide⟩

theorem test_witness_FullEmptyAndCountAgree :
    (stateOf cfg8 6 [0, 1, 2] 0 []).ringInv .inbound ∧ 2 ≤ (stateOf cfg8 6 [0, 1, 2] 0 []).size .inbound ∧
    (stateOf cfg1 0 [] 0 []).ringInv .inbound := by decide

/-- The usable capacity's worth of bytes, put across the end of storage. -/
theorem test_witness_PutsThenGetsReturnTheBytes :
    let data : List Byte := [0, 1, 2, 3, 4, 5, 6]
    let s := presenting (data.map (fun v => Input.issue .rx (.rbPut .inbound v)) ++
      List.replicate data.length (Input.issue .rx (.rbGet .inbound)) ++ []) (stateOf cfg8 5 [] 0 [])
    s.ringInv .inbound ∧ (s.ring .inbound).ready = true ∧ s.count .inbound = 0 ∧ data.length ≤ s.size .inbound - 1 ∧
    s.inputs = data.map (fun v => Input.issue .rx (.rbPut .inbound v)) ++
      List.replicate data.length (Input.issue .rx (.rbGet .inbound)) ++ [] := by decide

/-- Puts and gets interleaved, from a ring with one free slot: a put refused (FULL), and one that wraps. -/
theorem test_witness_interleaved_puts_and_gets :
    let ops : List (Agent × Option Byte) := [(.rx, some 7), (.rx, some 8), (.eng, none), (.rx, some 9)]
    let s := presenting (ops.map (fun x => Input.issue x.1 (putOrGet .inbound x.2)) ++ [.reset]) (stateOf cfg8 1 [1, 2, 3, 4, 5, 6] 0 [])
    s.ringInv .inbound ∧ (s.ring .inbound).ready = true ∧
    s.inputs = ops.map (fun x => Input.issue x.1 (putOrGet .inbound x.2)) ++ [.reset] := by decide

/-- A POLL that takes from `IN` and puts into `OUT`: sound before, and it goes on. Meets the hypotheses of
ContentsMoveFirstInFirstOut and, with `initialises` false, of RolesWriteTheirOwnRegisters. -/
theorem test_witness_exec_poll :
    (ref frameMarco []).Inv ∧ (∃ t, exec .poll (ref frameMarco []) = .next t) ∧ initialises .poll .inbound = false ∧
    produces .poll .inbound = false ∧ consumes .poll .outbound = false := ⟨by decide, ⟨_, rfl⟩, by decide, by decide, by decide⟩

/-- What POLL offers to `OUT`: the frame of `polo` for `marco`, no bytes for `ok`; and an INJECT only while `OUT` is empty. -/
theorem test_offered :
    offered .poll .outbound (ref frameMarco []) = framePolo ∧ offered .poll .outbound (ref frameOk []) = [] ∧
    offered (.inject [1]) .outbound (ref [] []) = [1] ∧ offered (.inject [1]) .outbound (ref [] [9]) = [] := by decide +kernel

theorem test_witness_OneSlotRingIsEmptyAndFull :
    let s := stateOf cfg1 0 [] 0 []
    s.ringInv .inbound ∧ s.size .inbound = 1 ∧ (s.ring .inbound).ready = true := by decide

theorem test_witness_data_lengths :
    (List.replicate 65535 (0 : Byte)).length ≤ 65535 ∧ 65535 < 7 + (List.replicate 65529 (0 : Byte)).length ∧
    7 + (List.replicate 65528 (0 : Byte)).length ≤ 65535 := by
  simp only [List.length_replicate]; omega

theorem test_witness_PkBuildFramesTheMessage :
    ([] : List Byte).length = 0 ∧ 1 ≤ [(0x68 : Byte), 0x69].length ∧ 7 + [(0x68 : Byte), 0x69].length ≤ 65535 ∧
    (8 : Half).toNat < 7 + [(0x68 : Byte), 0x69].length ∧ 7 + [(0x68 : Byte), 0x69].length ≤ (9 : Half).toNat := by decide

theorem test_witness_PkExtractMsgCopiesThePayload :
    (frameHi.take 6).length < 7 ∧ 7 ≤ (frameHi.take 7).length ∧ (0 : Half).toNat < (frameHi.take 7).length - 7 + 1 ∧
    (frameHi.take 7).length - 7 + 1 ≤ (1 : Half).toNat := by decide

theorem test_witness_BuildVerifyExtractRoundTrip :
    1 ≤ [(0x41 : Byte)].length ∧ 7 + [(0x41 : Byte)].length ≤ (8 : Half).toNat ∧ [(0x41 : Byte)].length + 1 ≤ (2 : Half).toNat := by
  decide

theorem test_witness_SingleBitFlipFailsVerify :
    build (9 : Half).toNat [0x68, 0x69] = .ok frameHi ∧ (0 < frameHi.length ∧ 8 < frameHi.length) ∧ 7 < 8 := by decide +kernel

/-- One ring content for each row of the table of PK_LOCATE, in the table's order. -/
theorem test_witness_PkLocateTable :
    (State.reset.ringInv .inbound ∧ (State.reset.ring .inbound).ready = false) ∧ (0 : Half).toNat = 0 ∧
    ((∀ p ∈ [frameHi.take 6, frameHi.take 8, [0x01, 0x00, 0x02, 0x02, 0x68, 0x69, 0x03], frameBadEtx, frameHi],
      (ref p []).ringInv .inbound ∧ ((ref p []).ring .inbound).ready = true) ∧ (8 : Half).toNat ≠ 0 ∧ (9 : Half).toNat ≠ 0) ∧
    [frameHi.take 6, frameHi.take 8, [0x01, 0x00, 0x02, 0x02, 0x68, 0x69, 0x03], frameBadEtx, frameHi].map
      (fun p => (answer (.pkLocate .inbound 8) (ref p [])).head?) = [some 1, some 1, some 2, some 2, some 3] ∧
    (answer (.pkLocate .inbound 9) (ref frameHi [])).head? = some 0 := by decide

theorem test_witness_LocateResynchronises :
    let s := stateOf Config.reference 60 (garbage ++ frameHi ++ [0xAA, 0x01]) 0 []
    s.ringInv .inbound ∧ (s.ring .inbound).ready = true ∧ (∀ v ∈ garbage, v ≠ 0x01) ∧
    build (64 : Half).toNat [0x68, 0x69] = .ok frameHi ∧ s.contents .inbound = garbage ++ frameHi ++ [0xAA, 0x01] := by decide +kernel

/-- Frames that just fit the capacity and the ring: a built one, and that of the empty message (V-PK-25). -/
theorem test_witness_FrameArrivingByteByByte :
    (let s := presenting ((frameHi.flatMap fun v => [Input.issue .rx (.rbPut .inbound v), .issue .eng (.pkLocate .inbound 9)]) ++
      Input.issue .eng (.pkLocate .inbound 9) :: []) (stateOf cfg16 11 [] 0 [])
     s.ringInv .inbound ∧ (s.ring .inbound).ready = true ∧ s.count .inbound = 0 ∧ verify frameHi = none ∧
      frameHi.length ≤ s.size .inbound - 1 ∧ frameHi.length ≤ (9 : Half).toNat) ∧
    (let s := presenting ((frameEmpty.flatMap fun v => [Input.issue .rx (.rbPut .outbound v), .issue .eng (.pkLocate .outbound 7)]) ++
      Input.issue .eng (.pkLocate .outbound 7) :: []) (stateOf cfg8 0 [] 3 [])
     s.ringInv .outbound ∧ (s.ring .outbound).ready = true ∧ s.count .outbound = 0 ∧ verify frameEmpty = none ∧
      frameEmpty.length ≤ s.size .outbound - 1 ∧ frameEmpty.length ≤ (7 : Half).toNat) := by decide +kernel

/-- R122's four cases: lengths 3, 5, 6 without and 6 with `0x03` at offset 3 (V-LO-13, 15, 16, 17). -/
theorem test_witness_ShortDeclaredLengths :
    (∀ p ∈ [[(0x01 : Byte), 0x00, 0x03, 0x02, 0x68, 0x69, 0x03], [0x01, 0x00, 0x05, 0x02, 0x68, 0x69, 0x03],
        [0x01, 0x00, 0x06, 0x02, 0x68, 0x69, 0x03], [0x01, 0x00, 0x06, 0x03, 0xAA, 0xBB, 0xCC]],
      (ref p []).ringInv .inbound ∧ ((ref p []).ring .inbound).ready = true ∧ 7 ≤ (ref p []).count .inbound ∧
        (ref p []).byteAt .inbound 0 = 0x01) ∧
    declaredLength .inbound (ref [0x01, 0x00, 0x03, 0x02, 0x68, 0x69, 0x03] []) = 3 ∧
    declaredLength .inbound (ref [0x01, 0x00, 0x05, 0x02, 0x68, 0x69, 0x03] []) = 5 ∧
    declaredLength .inbound (ref [0x01, 0x00, 0x06, 0x02, 0x68, 0x69, 0x03] []) = 6 ∧
    (ref [0x01, 0x00, 0x06, 0x02, 0x68, 0x69, 0x03] []).byteAt .inbound 3 ≠ 0x03 ∧
    declaredLength .inbound (ref [0x01, 0x00, 0x06, 0x03, 0xAA, 0xBB, 0xCC] []) = 6 ∧
    (ref [0x01, 0x00, 0x06, 0x03, 0xAA, 0xBB, 0xCC] []).byteAt .inbound 3 = 0x03 ∧ 6 ≤ (6 : Half).toNat := by decide

/-- An 8-slot ring whose declared length is 8: one above its usable capacity. -/
theorem test_witness_OversizeLengthStallsTheRing :
    let s := stateOf cfg8 6 [0x01, 0x00, 0x08] 0 []
    s.Inv ∧ s.stalled .inbound ∧ (s.ring .outbound).ready = true ∧ (1 : Half).toNat ≠ 0 ∧
    (∀ i ∈ [Instr.poll, .rxPut 7, .rbClear .outbound, .txGet], i ≠ .rbInit .inbound ∧ i ≠ .rbClear .inbound ∧ i ≠ .rbGet .inbound) ∧
    (stateOf cfg8 0 [] 6 [0x01, 0x00, 0x08]).stalled .outbound := by decide

theorem test_witness_unknown_messages :
    ∀ msg ∈ [([] : List Byte), [0x4D, 0x61, 0x72, 0x63, 0x6F], marco ++ [0x00], [0x6F]],
      ∀ t ∈ [Token.marco, .polo, .ok, .error], msg ≠ tokenBytes State.reset.cfg.tokenNul t := by decide

/-- `OUT` not ready; a reply id that is none; room for exactly the frame of `ok`; room for one byte less. -/
theorem test_witness_HsSendEnqueuesTheReply :
    (State.reset.ringInv .outbound ∧ (State.reset.ring .outbound).ready = false) ∧
    ((1 : Byte) ≠ 2 ∧ (1 : Byte) ≠ 3 ∧ (1 : Byte) ≠ 4) ∧
    (let s := stateOf cfg16 0 [] 3 [0xAA, 0xAA, 0xAA, 0xAA, 0xAA, 0xAA]
     s.ringInv .outbound ∧ (s.ring .outbound).ready = true ∧ frameOk.length ≤ s.free .outbound) ∧
    (let s := stateOf cfg16 0 [] 3 [0xAA, 0xAA, 0xAA, 0xAA, 0xAA, 0xAA, 0xAA]
     s.ringInv .outbound ∧ (s.ring .outbound).ready = true ∧ s.free .outbound < frameOk.length) ∧
    ((2 : Byte) = 2 ∧ Token.polo = .polo ∧ (3 : Byte) = 3 ∧ Token.ok = .ok ∧ (4 : Byte) = 4 ∧ Token.error = .error) := by decide

/-- One `IN` content for each row of the table of POLL, and the code it answers with. -/
theorem test_witness_PollTable :
    (State.reset.Inv ∧ (State.reset.ring .inbound).ready = false) ∧
    ((∀ p ∈ [frameHi.take 8, frameBadEtx, frameBadCrc, frameOk, frameXyz],
      (ref p []).Inv ∧ ((ref p []).ring .inbound).ready = true ∧ ((ref p []).ring .outbound).ready = true)) ∧
    [frameHi.take 8, frameBadEtx, frameBadCrc, frameOk, frameXyz].map (fun p => (answer .poll (ref p [])).head?) =
      [some 1, some 2, some 8, some 0, some 0] := by decide +kernel

/-- POLL's OVERFLOW row (a frame of 14 bytes, `PKT_MAX = 13`) and its SEND_FAILED row. -/
theorem test_witness_PollTable_limits :
    (let s : State := { State.resetWith { inSize := 16, outSize := 8, pktMax := 13, tokenNul := false } with
      inRing := ringOf 16 9 [0x01, 0x00, 0x0E, 0x02, 1, 2, 3, 4, 5, 6, 7, 0x03, 0, 0], outRing := ringOf 8 0 [] }
     s.Inv ∧ (answer .poll s) = [0x03, 0x00, 0x0E]) ∧
    (let s : State := { State.resetWith { inSize := 16, outSize := 8, pktMax := 13, tokenNul := false } with
      inRing := ringOf 16 9 frameMarco, outRing := ringOf 8 5 [1, 2] }
     s.Inv ∧ (answer .poll s) = [0x07, 1, 2, 0x00, 0x05]) := by decide +kernel

theorem test_witness_HandshakeScenarios :
    ∀ f ∈ [frameMarco, framePolo, frameXyz, frameOk],
      (ref (f ++ [0xAA]) []).Inv ∧ ((ref (f ++ [0xAA]) []).ring .inbound).ready = true ∧
      ((ref (f ++ [0xAA]) []).ring .outbound).ready = true ∧ (ref (f ++ [0xAA]) []).cfg.tokenNul = false ∧
      12 ≤ (ref (f ++ [0xAA]) []).free .outbound ∧ (ref (f ++ [0xAA]) []).contents .inbound = f ++ [0xAA] := by decide

/-- `OUT` of 8 slots: not ready; busy with one byte; empty, seven bytes fit and eight do not. -/
theorem test_witness_InjectOnlyWhenOutIsEmpty :
    (State.reset.ringInv .outbound ∧ (State.reset.ring .outbound).ready = false) ∧
    (let s := stateOf cfg8 0 [] 7 [1]
     s.ringInv .outbound ∧ (s.ring .outbound).ready = true ∧ 1 ≤ frameHi.length ∧ s.count .outbound ≠ 0) ∧
    (let s := stateOf cfg8 0 [] 7 []
     s.ringInv .outbound ∧ (s.ring .outbound).ready = true ∧ s.count .outbound = 0 ∧
      (frameHi.take 7).length ≤ s.size .outbound - 1 ∧ s.size .outbound - 1 < (frameHi.take 8).length) := by decide

theorem test_witness_RxTransferPutsIntoIn :
    (let s := stateOf cfg8 6 [1, 2, 3, 4, 5, 6] 0 []
     s.ringInv .inbound ∧ (s.ring .inbound).ready = true ∧ s.free .inbound ≠ 0) ∧
    (let s := stateOf cfg8 6 [1, 2, 3, 4, 5, 6, 7] 0 []
     s.ringInv .inbound ∧ s.free .inbound = 0) ∧
    State.reset.ringInv .inbound ∧ (State.reset.ring .inbound).ready = false := by decide

theorem test_witness_TxTransferGetsFromOut :
    (let s := stateOf cfg8 0 [] 7 [1, 2]
     s.ringInv .outbound ∧ (s.ring .outbound).ready = true ∧ s.contents .outbound = 1 :: [2]) ∧
    (let s := stateOf cfg8 0 [] 7 []
     s.ringInv .outbound ∧ s.count .outbound = 0) ∧
    State.reset.ringInv .outbound ∧ (State.reset.ring .outbound).ready = false := by decide

/-- Room for exactly the nine bytes. -/
theorem test_witness_FrameArrivesWhole :
    let s := stateOf cfg16 12 [1, 2, 3, 4, 5, 6] 0 []
    s.ringInv .inbound ∧ (s.ring .inbound).ready = true ∧ [(0x68 : Byte), 0x69].length + 7 ≤ s.free .inbound := by decide

theorem test_witness_WireUnitsAreRxTransfers :
    (presenting ((frameBytes 9 [0x68, 0x69] 0x4E6E).map (fun v => Input.issue .rx (.rxPut v)) ++ []) State.reset).inputs =
      (frameBytes 9 [0x68, 0x69] 0x4E6E).map (fun v => Input.issue .rx (.rxPut v)) ++ [] := by decide

theorem test_witness_StepKeepsInv :
    (presenting [.command .eng [0x0F]] (ref frameMarco [])).Inv ∧
    ∃ t, step (presenting [.command .eng [0x0F]] (ref frameMarco [])) = .next t := ⟨by decide, ⟨_, rfl⟩⟩

/-- A put at the last slot: the tail advances by one slot, from 7 to 0, and slot 3 is outside what it stores. -/
theorem test_witness_StoresOnlyAtTheTail :
    let s := stateOf cfg8 2 [0, 1, 2, 3, 4] 0 []
    s.Inv ∧ (∃ t, exec (.rbPut .inbound 9) s = .next t) ∧ 1 < s.size .inbound ∧
    ((after (.rbPut .inbound 9) s).ring .inbound).tail = ((s.ring .inbound).tail + 1) % s.size .inbound ∧
    3 < s.size .inbound ∧ ∀ j < 1, 3 ≠ ((s.ring .inbound).tail + j) % s.size .inbound :=
  ⟨by decide, ⟨_, rfl⟩, by decide, by decide, by decide, by decide⟩

/-- The schedule of R39: RX fills `IN`, ENG polls, TX drains `OUT`; an injection runs in ENG's context. -/
theorem test_witness_OneContextPerCursor :
    let l := [Input.issue .rx (.rxPut 1), .command .eng [0x0F], .issue .inj (.inject [1]), .issue .tx .txGet, .issue .rx .soh]
    singleProducerConsumer l ∧ Input.issue .rx (.rxPut 1) ∈ l ∧ Input.issue .rx .soh ∈ l ∧
    issuedBy (.issue .rx (.rxPut 1)) = some (.rx, .rxPut 1) ∧ issuedBy (.issue .rx .soh) = some (.rx, .soh) ∧
    issuedBy (.issue .inj (.inject [1])) = some (.eng, .inject [1]) ∧
    initialises (.rxPut 1) .inbound = false ∧ initialises .soh .inbound = false := by decide

/-- R201: the injector putting into `OUT` or sending a reply itself is a second producer beside ENG's POLL, and by-passes INJECT
also where it is alone. -/
theorem test_injector_beside_engine :
    issuedBy (.issue .inj (.rbPut .outbound 1)) = some (.inj, .rbPut .outbound 1) ∧
    ¬ singleProducerConsumer [.issue .inj (.rbPut .outbound 1), .command .eng [0x0F]] ∧
    ¬ singleProducerConsumer [.command .inj [0x0E, 0x02], .command .eng [0x0F]] ∧
    ¬ injectsThroughInject [.issue .inj (.rbPut .outbound 1)] ∧
    singleProducerConsumer [.command .inj [0x10, 0x00, 0x01, 0x55], .command .eng [0x0F]] := by decide

/-- The injector may still read a status; and an operation of another agent keeps its context. -/
theorem test_witness_injectsThroughInject :
    let l := [Input.issue .inj (.inject [1]), .issue .inj (.isEmpty .outbound)]
    injectsThroughInject l ∧ Input.issue .inj (.isEmpty .outbound) ∈ l ∧
    issuedBy (.issue .inj (.isEmpty .outbound)) = some (.inj, .isEmpty .outbound) ∧ (ref [] [1]).Inv ∧
    (∃ t, exec (.isEmpty .outbound) (ref [] [1]) = .next t) ∧
    (Agent.rx ≠ .inj ∨ ∀ data, Instr.poll ≠ .inject data) ∧ decodeCommand [0x0F] = .ok .poll :=
  ⟨by decide, by decide, by decide, by decide, ⟨_, rfl⟩, .inl (by decide), by decide⟩

theorem test_witness_OneContextPerCursor_moves :
    (∀ i ∈ [Instr.rxPut 1, .soh], ∃ s t, s.Inv ∧ exec i s = .next t ∧ (t.ring .inbound).tail ≠ (s.ring .inbound).tail) ∧
    ∃ s t, s.Inv ∧ exec .poll s = .next t ∧ (t.ring .inbound).head ≠ (s.ring .inbound).head := by
  refine ⟨?_, ref frameOk [], after .poll (ref frameOk []), by decide +kernel, rfl, by decide +kernel⟩
  simp only [List.mem_cons, List.not_mem_nil, or_false, forall_eq_or_imp, forall_eq]
  exact ⟨⟨ref [] [], after (.rxPut 1) (ref [] []), by decide, rfl, by decide⟩,
    ref [] [], after .soh (ref [] []), by decide, rfl, by decide⟩

theorem test_witness_ReadyBitSetByInitOnly :
    (∃ t, exec (.rbPut .inbound 1) (ref [] []) = .next t ∧ ((ref [] []).ring .inbound).ready = true) ∧
    (∃ t, exec (.rbPut .inbound 1) State.reset = .next t ∧ (State.reset.ring .inbound).ready = false ∧
      Instr.rbPut .inbound 1 ≠ .rbInit .inbound) ∧
    ∃ t, step (presenting [.reset] (ref [] [])) = .next t ∧
      ((presenting [.reset] (ref [] [])).ring .inbound).ready = true ∧ (t.ring .inbound).ready = false :=
  ⟨⟨_, rfl, by decide⟩, ⟨_, rfl, by decide, by decide⟩, ⟨_, rfl, by decide, by decide⟩⟩

/-- Two states that differ in a stale byte of `IN` only, before a POLL. -/
theorem test_witness_StaleBytesAreNotObservable :
    let s := presenting [.command .eng [0x0F]] (ref frameOk [])
    let s' := { s with inRing := { s.inRing with mem := Memory.write s.inRing.mem 20 0x55 } }
    s.Inv ∧ s'.Inv ∧ s.sameView s' ∧ s ≠ s' ∧ (∃ t, step s = .next t) ∧ ∃ t', step s' = .next t' :=
  ⟨by decide, by decide, by decide, by decide, ⟨_, rfl⟩, ⟨_, rfl⟩⟩

theorem test_witness_ReadingOperationsOnlyAnswer :
    (∀ b ∈ [RingSel.inbound, .outbound],
      produces (.rbPeek .inbound 0) b = false ∧ initialises (.rbPeek .inbound 0) b = false ∧
      Instr.rbPeek .inbound 0 ≠ .rbGet b ∧ Instr.rbPeek .inbound 0 ≠ .rbClear b) ∧ Instr.rbPeek .inbound 0 ≠ .txGet ∧
    ∃ t, exec (.rbPeek .inbound 0) (ref [1] []) = .next t := ⟨by decide, by decide, ⟨_, rfl⟩⟩

/-- FULL from a full ring, the three pure operations, and INCOMPLETE from PK_LOCATE after a byte of noise. -/
theorem test_witness_FullEmptyBusyBadargChangeNoRing :
    (let s := stateOf cfg8 6 [0, 1, 2, 3, 4, 5, 6] 0 []
     s.Inv ∧ (∃ t, exec (.rbPut .inbound 9) s = .next t ∧ t.outputs = s.outputs ++ [.response ⟨.full, []⟩]) ∧
      Code.full ∈ [Code.full, .empty, .busy, .badarg]) ∧
    (∀ i ∈ [Instr.pkVerify [], .pkBuild 0 [], .pkExtractMsg 0 []], ∃ t, exec i State.reset = .next t) ∧
    let s := stateOf cfg8 7 [0x55, 0x01] 0 []
    s.ringInv .inbound ∧
      ∃ t, exec (.pkLocate .inbound 64) s = .next t ∧ t.outputs = s.outputs ++ [.response ⟨.incomplete, []⟩] :=
  ⟨⟨by decide, ⟨_, rfl, by decide⟩, by decide⟩,
    by
      simp only [List.mem_cons, List.not_mem_nil, or_false, forall_eq_or_imp, forall_eq]
      exact ⟨⟨_, rfl⟩, ⟨_, rfl⟩, ⟨_, rfl⟩⟩,
    ⟨by decide, ⟨_, rfl, by decide⟩⟩⟩

/-- EMPTY, BUSY and BADARG, and MALFORMED from PK_LOCATE. -/
theorem test_witness_FullEmptyBusyBadargChangeNoRing_codes :
    (let s := stateOf cfg8 0 [] 7 [1]
     s.Inv ∧ (∃ t, exec (.rbGet .inbound) s = .next t ∧ t.outputs = s.outputs ++ [.response ⟨.empty, []⟩]) ∧
      (∃ t, exec (.inject [1]) s = .next t ∧ t.outputs = s.outputs ++ [.response ⟨.busy, []⟩]) ∧
      ∃ t, exec (.hsSend 1) s = .next t ∧ t.outputs = s.outputs ++ [.response ⟨.badarg, []⟩]) ∧
    let s := stateOf cfg8 3 [0x01, 0x00, 0x02, 0x02, 0x00, 0x00, 0x00] 0 []
    s.ringInv .inbound ∧
      ∃ t, exec (.pkLocate .inbound 64) s = .next t ∧ t.outputs = s.outputs ++ [.response ⟨.malformed, []⟩] :=
  ⟨⟨by decide, ⟨_, rfl, by decide⟩, ⟨_, rfl, by decide⟩, ⟨_, rfl, by decide⟩⟩, ⟨by decide, ⟨_, rfl, by decide⟩⟩⟩

/-- Both rings ready, `OUT` empty and `IN` holding the beginning of one frame; not so where `OUT` is not ready (R147: BADARG). -/
theorem test_witness_QuiescentPollAnswersIncomplete :
    (ref (frameHi.take 8) []).Inv ∧ (ref (frameHi.take 8) []).quiescent ∧
    ¬ ({ State.reset with inRing := ringOf 64 0 [] } : State).quiescent := by decide

end Sys2Proof.Tests
end

section
/-! PROOF. The configurations that can be built (00_scope R5, R207): settles O9. -/

namespace Sys2Proof

/-- The legal ranges of R5, the upper bound of a size being the model's choice (log 2). -/
theorem Config.make_eq_none_iff (inSize outSize pktMax : Nat) (nul : Bool) :
    Config.make inSize outSize pktMax nul = none ↔
      inSize = 0 ∨ 65536 < inSize ∨ outSize = 0 ∨ 65536 < outSize ∨ pktMax < 13 ∨ 65535 < pktMax := by
  unfold Config.make
  split
  case isTrue legal => simp only [reduceCtorEq, false_iff]; omega
  case isFalse illegal => simp only [true_iff]; omega

/-- A configuration that is built holds the raw parameters it was asked for. -/
theorem Config.fields_of_make_eq_some {inSize outSize pktMax : Nat} {nul : Bool} {c : Config}
    (h : Config.make inSize outSize pktMax nul = some c) :
    c.inSize = inSize ∧ c.outSize = outSize ∧ c.pktMax = pktMax ∧ c.tokenNul = nul := by
  unfold Config.make at h
  split at h
  case isTrue legal => cases h; exact ⟨rfl, rfl, rfl, rfl⟩
  case isFalse illegal => cases h

/-- R5's `MSG_MAX = PKT_MAX - 6`, never truncated because `PKT_MAX` is at least 13. -/
theorem Config.msgMax_add_six (c : Config) : c.msgMax + 6 = c.pktMax :=
  Nat.sub_add_cancel (Nat.le_trans (by decide) c.pktMax_ge)

/-- Settles O9: `Config.make` refuses exactly the illegal parameters, and otherwise keeps the parameters it was given. -/
theorem onlyIllegalConfigurationsRefused : Obligations.OnlyIllegalConfigurationsRefused := by
  intro inSize outSize pktMax nul
  refine ⟨Config.make_eq_none_iff inSize outSize pktMax nul, fun c hc => ?_⟩
  obtain ⟨hin, hout, hpkt, hnul⟩ := Config.fields_of_make_eq_some hc
  exact ⟨hin, hout, hpkt, hnul, c.msgMax_add_six.trans hpkt⟩

end Sys2Proof
end

section
/-! PROOF. Rings whose cursors meet (10_state R15, R23): settles O8. -/

namespace Sys2Proof.Machine

variable {s : State} {b : RingSel}

/-- Equal cursors are the empty ring (40 R90); no soundness is needed for this direction. -/
theorem State.count_of_cursors_meet (h : (s.ring b).head = (s.ring b).tail) : s.count b = 0 := by
  simp [State.count, h]

theorem State.contents_of_count_zero (h : s.count b = 0) : s.contents b = [] :=
  List.eq_nil_of_length_eq_zero (by rw [State.length_contents, h])

/-- An empty ring satisfies the invariant as soon as its registers and storage are sound: no slot is occupied. -/
theorem State.ringInv_of_cursors_meet (hsound : (s.ring b).sound (s.size b)) (h : (s.ring b).head = (s.ring b).tail) :
    s.ringInv b :=
  ⟨hsound, fun k hk => absurd hk (by simp [State.count_of_cursors_meet h])⟩

/-- A ring at its reset value satisfies the invariant, whatever its size (R23). -/
theorem State.ringInv_of_reset (h : s.ring b = Ring.reset) : s.ringInv b := by
  have hpos := s.size_pos b
  refine State.ringInv_of_cursors_meet ?_ (by rw [h]; rfl)
  rw [h]
  exact ⟨hpos, hpos, List.Pairwise.nil, fun c hc => absurd hc List.not_mem_nil, fun _ => ⟨rfl, rfl⟩⟩

/-- Settles O8: reset leaves both rings not ready, with their cursors at slot 0 and nothing written. -/
theorem resetSatisfiesInv : Obligations.ResetSatisfiesInv := by
  intro c
  refine ⟨State.inv_of_rings fun b => State.ringInv_of_reset (resetWith_ring c b), fun b => ⟨?_, ?_⟩⟩
  · rw [resetWith_ring]; rfl
  · exact State.count_of_cursors_meet (by rw [resetWith_ring]; rfl)

end Sys2Proof.Machine
end

section
/-! PROOF. Two sound states with one view stay so under every operation (10_state R14, R22). The pair of a state with itself
gives that every step keeps the invariant (R15, R97): settles O52 and O57. -/

namespace Sys2Proof.Machine

/-- A put as one change of its ring. -/
theorem State.put_eq_setRing (s : State) (b : RingSel) (v : Byte) :
    s.put b v = s.setRing b ((s.put b v).ring b) := by
  cases b <;> rfl

/-- The registers and storage RB_INIT leaves are sound (R80). -/
theorem Ring.sound_initialised {size : Nat} {r : Ring} (hpos : 0 < size) (h : r.sound size) :
    ({ r with head := 0, tail := 0, ready := true } : Ring).sound size := by
  obtain ⟨-, -, hwf, hbound, -⟩ := h
  exact ⟨hpos, hpos, hwf, hbound, fun hr => absurd hr Bool.noConfusion⟩

/-- The registers and storage RB_CLEAR leaves are sound (R86). -/
theorem Ring.sound_cleared {size : Nat} {r : Ring} (h : r.sound size) (hr : r.ready ≠ false) :
    ({ r with head := r.tail } : Ring).sound size := by
  obtain ⟨-, htail, hwf, hbound, -⟩ := h
  exact ⟨htail, htail, hwf, hbound, fun hr' => absurd hr' hr⟩

/-- Both states are sound and agree on all that operations can observe. -/
structure State.Alike (s s' : State) : Prop where
  inv : s.Inv
  inv' : s'.Inv
  view : s.sameView s'

/-- What an operation's body returns from two states: states alike, and the same result. -/
abbrev AlikeWith {α : Type} (p p' : State × α) : Prop :=
  ∃ t t' x, p = (t, x) ∧ p' = (t', x) ∧ t.Alike t'

/-- Both outcomes go on, with states alike. -/
def AlikeOutcome : Host.Outcome State Fault Refusal → Host.Outcome State Fault Refusal → Prop
  | .next t, .next t' => t.Alike t'
  | _, _ => False

namespace State.Alike

variable {s s' : State} {b : RingSel}

theorem refl (h : s.Inv) : s.Alike s := ⟨h, h, rfl, rfl, rfl, ⟨rfl, rfl, rfl, rfl⟩, ⟨rfl, rfl, rfl, rfl⟩⟩

/-! ## What two states alike agree on -/

theorem cfg (h : s.Alike s') : s.cfg = s'.cfg := h.view.1

theorem inputs (h : s.Alike s') : s.inputs = s'.inputs := h.view.2.1

theorem outputs (h : s.Alike s') : s.outputs = s'.outputs := h.view.2.2.1

theorem ringView (h : s.Alike s') (b : RingSel) : s.sameRingView s' b := by
  obtain ⟨-, -, -, hin, hout⟩ := h.view
  cases b
  · exact hin
  · exact hout

theorem head (h : s.Alike s') (b : RingSel) : (s.ring b).head = (s'.ring b).head := (h.ringView b).1

theorem tail (h : s.Alike s') (b : RingSel) : (s.ring b).tail = (s'.ring b).tail := (h.ringView b).2.1

theorem ready (h : s.Alike s') (b : RingSel) : (s.ring b).ready = (s'.ring b).ready := (h.ringView b).2.2.1

theorem contents (h : s.Alike s') (b : RingSel) : s.contents b = s'.contents b := (h.ringView b).2.2.2

theorem size (h : s.Alike s') (b : RingSel) : s.size b = s'.size b := by simp only [State.size, h.cfg]

theorem count (h : s.Alike s') (b : RingSel) : s.count b = s'.count b := by
  rw [← State.length_contents, h.contents, State.length_contents]

theorem free (h : s.Alike s') (b : RingSel) : s.free b = s'.free b := by
  simp only [State.free, h.size, h.count]

theorem ringFull (h : s.Alike s') (b : RingSel) : s.ringFull b = s'.ringFull b := by
  simp only [State.ringFull, h.tail, h.size, h.head]

theorem ringEmpty (h : s.Alike s') (b : RingSel) : s.ringEmpty b = s'.ringEmpty b := by
  simp only [State.ringEmpty, h.head, h.tail]

/-- Only occupied bytes agree: the others are stale. -/
theorem byteAt (h : s.Alike s') {k : Nat} (hk : k < s.count b) : s.byteAt b k = s'.byteAt b k := by
  rw [← State.getD_contents s b 0 hk, ← State.getD_contents s' b 0 (h.count b ▸ hk), h.contents]

/-! ## Updates that keep two states alike -/

/-- States that agree on parameters and ports are alike when each ring is sound in both and has one view. -/
theorem of_rings (hcfg : s.cfg = s'.cfg) (hin : s.inputs = s'.inputs) (hout : s.outputs = s'.outputs)
    (hring : ∀ b, s.ringInv b ∧ s'.ringInv b ∧ s.sameRingView s' b) : s.Alike s' :=
  ⟨inv_of_rings fun b => (hring b).1, inv_of_rings fun b => (hring b).2.1,
    hcfg, hin, hout, (hring .inbound).2.2, (hring .outbound).2.2⟩

/-- An answer touches no ring, so what was known of both rings still holds. -/
theorem emit (h : s.Alike s') (o : Output) : (s.emit o).Alike (s'.emit o) :=
  ⟨h.inv, h.inv', h.cfg, h.inputs, congrArg (· ++ [o]) h.outputs, h.ringView .inbound, h.ringView .outbound⟩

theorem respond (h : s.Alike s') (c : Code) (p : List Byte) : (s.respond c p).Alike (s'.respond c p) := h.emit _

theorem takeInput (h : s.Alike s') : s.takeInput.Alike s'.takeInput :=
  ⟨h.inv, h.inv', h.cfg, congrArg List.tail h.inputs, h.outputs, h.ringView .inbound, h.ringView .outbound⟩

/-- A change of one ring, which stays sound and gets one view on both sides. -/
theorem setRing (h : s.Alike s') {r r' : Ring} (hinv : (s.setRing b r).ringInv b) (hinv' : (s'.setRing b r').ringInv b)
    (hview : (s.setRing b r).sameRingView (s'.setRing b r') b) : (s.setRing b r).Alike (s'.setRing b r') := by
  refine of_rings (by simp [h.cfg]) (by simp [h.inputs]) (by simp [h.outputs]) fun b' => ?_
  by_cases hb : b' = b
  · subst hb
    exact ⟨hinv, hinv', hview⟩
  · have hr := ring_setRing_ne s r hb
    have hr' := ring_setRing_ne s' r' hb
    refine ⟨ringInv_congr hr (by simp) (h.inv.ring b'), ringInv_congr hr' (by simp) (h.inv'.ring b'), ?_, ?_, ?_, ?_⟩
    · rw [hr, hr', h.head]
    · rw [hr, hr', h.tail]
    · rw [hr, hr', h.ready]
    · rw [contents_congr hr (by simp) (by simp), contents_congr hr' (by simp) (by simp), h.contents]

/-- One ring emptied by moving its cursors together (R80, R86). -/
theorem setRing_empty (h : s.Alike s') {r r' : Ring} (hsound : r.sound (s.size b)) (hsound' : r'.sound (s'.size b))
    (hhead : r.head = r'.head) (hready : r.ready = r'.ready) (he : r.head = r.tail) (he' : r'.head = r'.tail) :
    (s.setRing b r).Alike (s'.setRing b r') := by
  have hmeet : ((s.setRing b r).ring b).head = ((s.setRing b r).ring b).tail := by simpa using he
  have hmeet' : ((s'.setRing b r').ring b).head = ((s'.setRing b r').ring b).tail := by simpa using he'
  refine h.setRing (ringInv_of_cursors_meet (by simpa using hsound) hmeet)
    (ringInv_of_cursors_meet (by simpa using hsound') hmeet') ⟨?_, ?_, ?_, ?_⟩
  · simpa using hhead
  · simpa using he.symm.trans (hhead.trans he')
  · simpa using hready
  · rw [contents_of_count_zero (count_of_cursors_meet hmeet), contents_of_count_zero (count_of_cursors_meet hmeet')]

/-- Occupied bytes consumed on both sides (R88). -/
theorem consume (h : s.Alike s') {k : Nat} (hk : k ≤ s.count b) : (s.consume b k).Alike (s'.consume b k) := by
  have hk' : k ≤ s'.count b := h.count b ▸ hk
  refine h.setRing (ringInv_consume (h.inv.ring b) hk) (ringInv_consume (h.inv'.ring b) hk') ⟨?_, ?_, ?_, ?_⟩
  · simp [h.head, h.size]
  · simp [h.tail]
  · simp [h.ready]
  · exact (contents_consume (h.inv.ring b) hk).trans
      ((congrArg (List.drop k) (h.contents b)).trans (contents_consume (h.inv'.ring b) hk').symm)

/-- One byte accepted on both sides (R81). -/
theorem put (h : s.Alike s') (hr : (s.ring b).ready = true) (hf : s.ringFull b = false) (v : Byte) :
    (s.put b v).Alike (s'.put b v) := by
  have hr' : (s'.ring b).ready = true := h.ready b ▸ hr
  have hf' : s'.ringFull b = false := h.ringFull b ▸ hf
  rw [put_eq_setRing s, put_eq_setRing s']
  refine h.setRing ?_ ?_ ?_ <;> simp only [← put_eq_setRing]
  · exact ringInv_put (h.inv.ring b) hr hf v
  · exact ringInv_put (h.inv'.ring b) hr' hf' v
  · refine ⟨?_, ?_, ?_, ?_⟩
    · simp [h.head]
    · simp [h.tail, h.size]
    · simp [h.ready]
    · rw [contents_put (h.inv.ring b) hf, contents_put (h.inv'.ring b) hf', h.contents]

/-! ## The shared operations give alike states and equal results -/

theorem putByte (h : s.Alike s') (v : Byte) : AlikeWith (Machine.putByte b v s) (Machine.putByte b v s') := by
  rcases putByte_cases b v s with ⟨hr, e⟩ | ⟨hr, hf, e⟩ | ⟨hr, hf, e⟩
  · have e' : Machine.putByte b v s' = (s', .badarg) := by simp [Machine.putByte, ← h.ready, hr]
    exact ⟨_, _, _, e, e', h⟩
  · have e' : Machine.putByte b v s' = (s', .full) := by simp [Machine.putByte, ← h.ready, ← h.ringFull, hr, hf]
    exact ⟨_, _, _, e, e', h⟩
  · exact ⟨_, _, _, e, putByte_of_room (h.ready b ▸ hr) (h.ringFull b ▸ hf), h.put hr hf v⟩

theorem getByte (h : s.Alike s') : AlikeWith (Machine.getByte b s) (Machine.getByte b s') := by
  rcases getByte_cases b s with ⟨hr, e⟩ | ⟨hr, he, e⟩ | ⟨hr, he, e⟩
  · have e' : Machine.getByte b s' = (s', .error .badarg) := by simp [Machine.getByte, ← h.ready, hr]
    exact ⟨_, _, _, e, e', h⟩
  · have e' : Machine.getByte b s' = (s', .error .empty) := by simp [Machine.getByte, ← h.ready, ← h.ringEmpty, hr, he]
    exact ⟨_, _, _, e, e', h⟩
  · have hpos : 0 < s.count b := Nat.pos_of_ne_zero fun h0 => by simp [(ringEmpty_iff (h.inv.ring b)).mpr h0] at he
    have e' : Machine.getByte b s' = (s'.consume b 1, .ok (s.byteAt b 0)) := by
      rw [h.byteAt hpos]
      simp [Machine.getByte, ← h.ready, ← h.ringEmpty, hr, he, State.byteAt]
    exact ⟨_, _, _, e, e', h.consume hpos⟩

theorem sendBytes (h : s.Alike s') (vs : List Byte) : AlikeWith (Machine.sendBytes b vs s) (Machine.sendBytes b vs s') := by
  induction vs generalizing s s' with
  | nil => exact ⟨_, _, _, rfl, rfl, h⟩
  | cons v vs ih =>
    obtain ⟨t, t', c, e, e', ht⟩ := h.putByte (b := b) v
    simp only [Machine.sendBytes, e, e']
    cases c
    case ok =>
      obtain ⟨u, u', n, e, e', hu⟩ := ih ht
      exact ⟨u, u', n + 1, by simp only [e], by simp only [e'], hu⟩
    all_goals exact ⟨_, _, _, rfl, rfl, h⟩

theorem rxTransfer (h : s.Alike s') (v : Byte) : (Machine.rxTransfer v s).Alike (Machine.rxTransfer v s') := by
  obtain ⟨t, t', c, e, e', ht⟩ := h.putByte (b := .inbound) v
  simp only [Machine.rxTransfer, e, e']
  exact ht.emit _

theorem rxTransfers (h : s.Alike s') (vs : List Byte) : (Machine.rxTransfers vs s).Alike (Machine.rxTransfers vs s') := by
  induction vs generalizing s s' with
  | nil => exact h
  | cons v vs ih => exact ih (h.rxTransfer v)

theorem txTransfer (h : s.Alike s') : (Machine.txTransfer s).Alike (Machine.txTransfer s') := by
  obtain ⟨t, t', x, e, e', ht⟩ := h.getByte (b := .outbound)
  simp only [Machine.txTransfer, e, e']
  exact ht.emit _

/-- PK_LOCATE reads and consumes occupied bytes only (R112 to R118). -/
theorem locate (h : s.Alike s') (cap : Nat) : AlikeWith (Machine.locate b cap s) (Machine.locate b cap s') := by
  by_cases hbad : (s.ring b).ready = false ∨ cap = 0
  · exact ⟨_, _, _, locate_badarg hbad, locate_badarg (h.ready b ▸ hbad), h⟩
  · obtain ⟨hr, hcap⟩ := not_or.mp hbad
    have hr : (s.ring b).ready = true := Bool.eq_true_of_not_eq_false hr
    have hle : locateCount cap (s.contents b) ≤ s.count b := by simpa using locateCount_le cap (s.contents b)
    rw [locate_eq cap (h.inv.ring b) hr hcap, locate_eq cap (h.inv'.ring b) (h.ready b ▸ hr) hcap, ← h.contents]
    exact ⟨_, _, _, rfl, rfl, h.consume hle⟩

theorem sendReply (h : s.Alike s') {t : Token} (ht : t ≠ .unknown) :
    AlikeWith (Machine.sendReply t s) (Machine.sendReply t s') := by
  obtain ⟨t, t', n, e, e', ht'⟩ := h.sendBytes (b := .outbound) (frameOf (tokenBytes s.cfg.tokenNul t))
  rw [sendReply_eq ht, sendReply_eq ht, ← h.cfg, e, e']
  exact ⟨_, _, _, rfl, rfl, ht'⟩

theorem send (h : s.Alike s') (r : Byte) : AlikeWith (Machine.send r s) (Machine.send r s') := by
  by_cases href : (s.ring .outbound).ready = false ∨ replyOfId r = none
  · exact ⟨_, _, _, send_refused href, send_refused (h.ready .outbound ▸ href), h⟩
  · obtain ⟨hr, ht⟩ := not_or.mp href
    have hr : (s.ring .outbound).ready = true := Bool.eq_true_of_not_eq_false hr
    obtain ⟨t, ht⟩ := Option.ne_none_iff_exists'.mp ht
    rw [send_eq hr ht, send_eq (h.ready .outbound ▸ hr) ht]
    exact h.sendReply (replyOfId_ne_unknown ht)

theorem onMessage (h : s.Alike s') (msg : List Byte) : (Machine.onMessage msg s).Alike (Machine.onMessage msg s') := by
  simp only [Machine.onMessage, ← h.cfg]
  exact h.respond _ _

theorem react (h : s.Alike s') (msg : List Byte) : (Machine.react msg s).Alike (Machine.react msg s') := by
  simp only [Machine.react, ← h.cfg]
  cases replyTo (recognize s.cfg.tokenNul msg) with
  | none => exact h.respond _ _
  | some u =>
    obtain ⟨t, t', x, e, e', ht⟩ := h.send (replyId (some u))
    simp only [e, e']
    cases x <;> exact ht.respond _ _

theorem handleFrame (h : s.Alike s') (pkt : List Byte) : (Machine.handleFrame pkt s).Alike (Machine.handleFrame pkt s') := by
  simp only [Machine.handleFrame, ← h.cfg]
  cases verify pkt with
  | some r => exact h.respond _ _
  | none =>
    cases extractMessage s.cfg.msgMax pkt with
    | error c => exact h.respond _ _
    | ok msg => exact h.react msg

theorem pollCycle (h : s.Alike s') : (Machine.pollCycle s).Alike (Machine.pollCycle s') := by
  simp only [Machine.pollCycle, ← h.cfg, ← h.ready]
  split
  · exact h.respond _ _
  · obtain ⟨t, t', x, e, e', ht⟩ := h.locate (b := .inbound) s.cfg.pktMax
    simp only [e, e']
    cases x with
    | malformed =>
      obtain ⟨u, u', y, e, e', hu⟩ := ht.getByte (b := .inbound)
      simp only [e, e']
      exact hu.respond _ _
    | ok pkt => exact ht.handleFrame pkt
    | badarg | incomplete | overflow => exact ht.respond _ _

/-! ## The operations -/

theorem execRbInit (h : s.Alike s') (b : RingSel) : AlikeOutcome (Machine.execRbInit b s) (Machine.execRbInit b s') := by
  have sound := Ring.sound_initialised (s.size_pos b) (h.inv.ring b).1
  have sound' := Ring.sound_initialised (s'.size_pos b) (h.inv'.ring b).1
  exact (h.setRing_empty sound sound' rfl rfl rfl rfl).respond _ _

theorem execRbPut (h : s.Alike s') (b : RingSel) (v : Byte) :
    AlikeOutcome (Machine.execRbPut b v s) (Machine.execRbPut b v s') := by
  obtain ⟨t, t', c, e, e', ht⟩ := h.putByte (b := b) v
  simp only [Machine.execRbPut, e, e']
  exact ht.respond _ _

theorem execRbGet (h : s.Alike s') (b : RingSel) : AlikeOutcome (Machine.execRbGet b s) (Machine.execRbGet b s') := by
  obtain ⟨t, t', x, e, e', ht⟩ := h.getByte (b := b)
  simp only [Machine.execRbGet, e, e']
  cases x <;> exact ht.respond _ _

theorem execRbPeek (h : s.Alike s') (b : RingSel) (off : Half) :
    AlikeOutcome (Machine.execRbPeek b off s) (Machine.execRbPeek b off s') := by
  simp only [Machine.execRbPeek, ← h.ready, ← h.count]
  split
  · exact h.respond _ _
  · split
    · exact h.respond _ _
    · rename_i hoff
      rw [← h.byteAt (Nat.lt_of_not_le hoff)]
      exact h.respond _ _

theorem execRbCount (h : s.Alike s') (b : RingSel) : AlikeOutcome (Machine.execRbCount b s) (Machine.execRbCount b s') := by
  simp only [Machine.execRbCount, ← h.ready, ← h.count]
  split <;> exact h.respond _ _

theorem execRbFree (h : s.Alike s') (b : RingSel) : AlikeOutcome (Machine.execRbFree b s) (Machine.execRbFree b s') := by
  simp only [Machine.execRbFree, ← h.ready, ← h.free]
  split <;> exact h.respond _ _

theorem execRbClear (h : s.Alike s') (b : RingSel) : AlikeOutcome (Machine.execRbClear b s) (Machine.execRbClear b s') := by
  simp only [Machine.execRbClear, ← h.ready]
  split
  · exact h.respond _ _
  · rename_i hr
    have sound := Ring.sound_cleared (h.inv.ring b).1 hr
    have sound' := Ring.sound_cleared (h.inv'.ring b).1 (h.ready b ▸ hr)
    exact (h.setRing_empty sound sound' (h.tail b) (h.ready b) rfl rfl).respond _ _

theorem execPkBuild (h : s.Alike s') (cap : Half) (msg : List Byte) :
    AlikeOutcome (Machine.execPkBuild cap msg s) (Machine.execPkBuild cap msg s') := by
  simp only [Machine.execPkBuild]
  split <;> exact h.respond _ _

theorem execPkLocate (h : s.Alike s') (b : RingSel) (cap : Half) :
    AlikeOutcome (Machine.execPkLocate b cap s) (Machine.execPkLocate b cap s') := by
  obtain ⟨t, t', x, e, e', ht⟩ := h.locate (b := b) cap.toNat
  simp only [Machine.execPkLocate, e, e']
  cases x <;> exact ht.respond _ _

theorem execPkVerify (h : s.Alike s') (pkt : List Byte) :
    AlikeOutcome (Machine.execPkVerify pkt s) (Machine.execPkVerify pkt s') := by
  simp only [Machine.execPkVerify]
  split <;> exact h.respond _ _

theorem execPkExtractMsg (h : s.Alike s') (cap : Half) (pkt : List Byte) :
    AlikeOutcome (Machine.execPkExtractMsg cap pkt s) (Machine.execPkExtractMsg cap pkt s') := by
  simp only [Machine.execPkExtractMsg]
  split <;> exact h.respond _ _

theorem execHsSend (h : s.Alike s') (r : Byte) : AlikeOutcome (Machine.execHsSend r s) (Machine.execHsSend r s') := by
  obtain ⟨t, t', x, e, e', ht⟩ := h.send r
  simp only [Machine.execHsSend, e, e']
  cases x <;> exact ht.respond _ _

theorem execInject (h : s.Alike s') (data : List Byte) :
    AlikeOutcome (Machine.execInject data s) (Machine.execInject data s') := by
  obtain ⟨t, t', n, e, e', ht⟩ := h.sendBytes (b := .outbound) data
  simp only [Machine.execInject, ← h.ready, ← h.count, e, e']
  split
  · exact h.respond _ _
  · split
    · exact h.respond _ _
    · split <;> exact ht.respond _ _

theorem execIsEmpty (h : s.Alike s') (b : RingSel) : AlikeOutcome (Machine.execIsEmpty b s) (Machine.execIsEmpty b s') := by
  simp only [Machine.execIsEmpty, State.emptyOutput, ← h.ready, ← h.ringEmpty]
  exact h.emit _

theorem execIsFull (h : s.Alike s') (b : RingSel) : AlikeOutcome (Machine.execIsFull b s) (Machine.execIsFull b s') := by
  simp only [Machine.execIsFull, State.fullOutput, ← h.ready, ← h.ringFull]
  exact h.emit _

/-- A token row presents the token's payload, which `TOKEN_NUL` decides (R58), to the handshake machine. -/
theorem onToken (h : s.Alike s') (t : Token) :
    (Machine.onMessage (tokenBytes s.cfg.tokenNul t) s).Alike (Machine.onMessage (tokenBytes s'.cfg.tokenNul t) s') := by
  rw [← h.cfg]
  exact h.onMessage _

/-- Every operation, from two states alike, goes on to two states alike. -/
theorem exec (h : s.Alike s') (i : Instr) : AlikeOutcome (Machine.exec i s) (Machine.exec i s') := by
  cases i with
  | rbInit b => exact h.execRbInit b
  | rbPut b v => exact h.execRbPut b v
  | rbGet b => exact h.execRbGet b
  | rbPeek b off => exact h.execRbPeek b off
  | rbCount b => exact h.execRbCount b
  | rbFree b => exact h.execRbFree b
  | rbClear b => exact h.execRbClear b
  | pkBuild cap msg => exact h.execPkBuild cap msg
  | pkLocate b cap => exact h.execPkLocate b cap
  | pkVerify pkt => exact h.execPkVerify pkt
  | pkExtractMsg cap pkt => exact h.execPkExtractMsg cap pkt
  | hsOnMessage msg | tokenUnknown msg => exact h.onMessage msg
  | hsSend r => exact h.execHsSend r
  | poll => exact h.pollCycle
  | inject data => exact h.execInject data
  | crc16 | reservedCommand => exact h.respond _ _
  | rxPut v => exact h.rxTransfer v
  | soh | stx | etx => exact h.rxTransfer _
  | frame len msg crc => exact h.rxTransfers _
  | txGet => exact h.txTransfer
  | isEmpty b => exact h.execIsEmpty b
  | isFull b => exact h.execIsFull b
  | tokenMarco | tokenPolo | tokenOk | tokenError => exact h.onToken _

/-- Reset forgets every byte, so nothing is left to differ (R23). -/
theorem resetEvent (h : s.Alike s') : (Machine.resetEvent s).Alike (Machine.resetEvent s') := by
  refine of_rings h.cfg h.inputs h.outputs fun b => ?_
  have hring := resetEvent_ring s b
  have hring' := resetEvent_ring s' b
  have hempty : (Machine.resetEvent s).contents b = [] :=
    contents_of_count_zero (count_of_cursors_meet (by rw [hring]; rfl))
  have hempty' : (Machine.resetEvent s').contents b = [] :=
    contents_of_count_zero (count_of_cursors_meet (by rw [hring']; rfl))
  exact ⟨ringInv_of_reset hring, ringInv_of_reset hring', by rw [hring, hring'], by rw [hring, hring'],
    by rw [hring, hring'], by rw [hempty, hempty']⟩

/-- Two states alike have the same input presented, and a step keeps them alike. -/
theorem step (h : s.Alike s') : AlikeOutcome (Machine.step s) (Machine.step s') := by
  simp only [Machine.step, ← h.inputs]
  cases fetched s.inputs with
  | idle => exact h
  | reset => exact h.takeInput.resetEvent
  | run i => exact h.takeInput.exec i
  | malformed r => exact h.takeInput.respond _ _

theorem of_step {t t' : State} (h : s.Alike s') (ht : Machine.step s = .next t) (ht' : Machine.step s' = .next t') :
    t.Alike t' := by
  have := h.step
  rwa [ht, ht'] at this

end State.Alike

/-- Settles O52: a sound state is alike to itself, and so is what a step makes of it. -/
theorem stepKeepsInv : Obligations.StepKeepsInv :=
  fun _s _t hinv ht => ((State.Alike.refl hinv).of_step ht ht).inv

/-- Settles O57: states with one view are alike, and a step keeps them so. -/
theorem staleBytesAreNotObservable : Obligations.StaleBytesAreNotObservable :=
  fun _s _s' _t _t' hinv hinv' hview ht ht' => (State.Alike.mk hinv hinv' hview |>.of_step ht ht').view

end Sys2Proof.Machine
end

section
/-! PROOF. An operation is a chain of atomic effects (40 R81, R82, R86, R88; 20_memory R42), in every state, sound or not.
Inductions over the chain settle O54 and O56. -/

namespace Sys2Proof.Machine

/-- From `s`, operation `i` reaches its result by answers, by initialising the ring it names, by moving heads of ready rings it
consumes, and by storing bytes in ready rings with room that it produces for. -/
inductive Effects (i : Instr) (s : State) : State → Prop
  | none : Effects i s s
  | answer {t : State} (o : Output) : Effects i s t → Effects i s (t.emit o)
  | init {t : State} (b : RingSel) : i = .rbInit b → Effects i s t →
      Effects i s (t.setRing b { t.ring b with head := 0, tail := 0, ready := true })
  | take {t : State} (b : RingSel) (x : Nat) : consumes i b = true → (t.ring b).ready = true → Effects i s t →
      Effects i s (t.setHead b x)
  | store {t : State} (b : RingSel) (v : Byte) : produces i b = true → (t.ring b).ready = true → t.ringFull b = false →
      Effects i s t → Effects i s (t.put b v)

namespace Effects

variable {i : Instr} {s t : State} {b : RingSel}

/-! ## The shared operations are chains of effects -/

theorem respond (h : Effects i s t) (c : Code) (p : List Byte) : Effects i s (t.respond c p) := h.answer _

theorem putByte (h : Effects i s t) (hp : produces i b = true) (v : Byte) : Effects i s (Machine.putByte b v t).1 := by
  rcases putByte_cases b v t with ⟨-, e⟩ | ⟨-, -, e⟩ | ⟨hr, hf, e⟩ <;> rw [e]
  · exact h
  · exact h
  · exact h.store b v hp hr hf

theorem getByte (h : Effects i s t) (hc : consumes i b = true) : Effects i s (Machine.getByte b t).1 := by
  rcases getByte_cases b t with ⟨-, e⟩ | ⟨-, -, e⟩ | ⟨hr, -, e⟩ <;> rw [e]
  · exact h
  · exact h
  · exact h.take b _ hc hr

theorem sendBytes (h : Effects i s t) (hp : produces i b = true) (vs : List Byte) :
    Effects i s (Machine.sendBytes b vs t).1 := by
  induction vs generalizing t with
  | nil => exact h
  | cons v vs ih =>
    have hput := h.putByte hp v
    simp only [Machine.sendBytes]
    rcases e : Machine.putByte b v t with ⟨u, c⟩
    rw [e] at hput
    cases c
    case ok => exact ih hput
    all_goals exact h

theorem rxTransfer (h : Effects i s t) (hp : produces i .inbound = true) (v : Byte) : Effects i s (Machine.rxTransfer v t) :=
  (h.putByte hp v).answer _

theorem rxTransfers (h : Effects i s t) (hp : produces i .inbound = true) (vs : List Byte) :
    Effects i s (Machine.rxTransfers vs t) := by
  induction vs generalizing t with
  | nil => exact h
  | cons v vs ih => exact ih (h.rxTransfer hp v)

theorem trimLoop (h : Effects i s t) (hc : consumes i b = true) (hr : (t.ring b).ready = true) (k : Nat) :
    Effects i s (Machine.trimLoop b k t) ∧ ((Machine.trimLoop b k t).ring b).ready = true := by
  induction k generalizing t with
  | zero => exact ⟨h, hr⟩
  | succ k ih =>
    rw [Machine.trimLoop]
    split
    · exact ih (h.take b _ hc hr) (by simpa using hr)
    · exact ⟨h, hr⟩

theorem extract (h : Effects i s t) (hc : consumes i b = true) (hr : (t.ring b).ready = true) (cap : Nat) :
    Effects i s (Machine.extract b cap t).1 := by
  have htake := h.take b (((t.ring b).head + declaredLength b t) % t.size b) hc hr
  unfold Machine.extract
  repeat' split
  · exact h
  · exact h
  · exact h
  · exact h
  · exact htake
  · exact htake

theorem locate (h : Effects i s t) (hc : consumes i b = true) (cap : Nat) : Effects i s (Machine.locate b cap t).1 := by
  unfold Machine.locate
  split
  · exact h
  · rename_i hok
    have hr : (t.ring b).ready = true := Bool.eq_true_of_not_eq_false (not_or.mp hok).1
    obtain ⟨htrim, hr'⟩ := h.trimLoop hc hr (t.count b)
    exact htrim.extract hc hr' cap

theorem send (h : Effects i s t) (hp : produces i .outbound = true) (r : Byte) : Effects i s (Machine.send r t).1 := by
  by_cases href : (t.ring .outbound).ready = false ∨ replyOfId r = .none
  · rw [send_refused href]
    exact h
  · obtain ⟨hr, ht⟩ := not_or.mp href
    obtain ⟨u, hu⟩ := Option.ne_none_iff_exists'.mp ht
    rw [send_eq (Bool.eq_true_of_not_eq_false hr) hu, sendReply_eq (replyOfId_ne_unknown hu)]
    exact h.sendBytes hp _

theorem react (h : Effects i s t) (hp : produces i .outbound = true) (msg : List Byte) : Effects i s (Machine.react msg t) := by
  simp only [Machine.react]
  cases replyTo (recognize t.cfg.tokenNul msg) with
  | none => exact h.respond _ _
  | some u =>
    have hsend := h.send hp (replyId (some u))
    rcases e : Machine.send (replyId (some u)) t with ⟨t', x⟩
    rw [e] at hsend
    simp only [e]
    cases x <;> exact hsend.respond _ _

theorem handleFrame (h : Effects i s t) (hp : produces i .outbound = true) (pkt : List Byte) :
    Effects i s (Machine.handleFrame pkt t) := by
  simp only [Machine.handleFrame]
  cases verify pkt with
  | some r => exact h.respond _ _
  | none =>
    cases extractMessage t.cfg.msgMax pkt with
    | error c => exact h.respond _ _
    | ok msg => exact h.react hp msg

theorem pollCycle (hc : consumes i .inbound = true) (h : Effects i s t) (hp : produces i .outbound = true) :
    Effects i s (Machine.pollCycle t) := by
  unfold Machine.pollCycle
  split
  · exact h.respond _ _
  · have hloc := h.locate hc t.cfg.pktMax
    rcases e : Machine.locate .inbound t.cfg.pktMax t with ⟨u, x⟩
    rw [e] at hloc
    cases x with
    | malformed => exact (hloc.getByte hc).respond _ _
    | ok pkt => exact hloc.handleFrame hp pkt
    | badarg | incomplete | overflow => exact hloc.respond _ _

end Effects

/-! ## Every operation is a chain of effects -/

/-- The outcome goes on, to a state that the operation's effects reach. -/
def EffectsOutcome (i : Instr) (s : State) : Host.Outcome State Fault Refusal → Prop
  | .next t => Effects i s t
  | _ => False

variable {s : State}

theorem effects_rbGet (b : RingSel) : EffectsOutcome (.rbGet b) s (execRbGet b s) := by
  have hget := (Effects.none (i := .rbGet b) (s := s)).getByte (b := b) (by simp [consumes])
  unfold execRbGet
  rcases e : getByte b s with ⟨t, x⟩
  rw [e] at hget
  cases x <;> exact hget.respond _ _

theorem effects_rbPeek (b : RingSel) (off : Half) : EffectsOutcome (.rbPeek b off) s (execRbPeek b off s) := by
  unfold execRbPeek
  repeat' split
  all_goals exact Effects.none.respond _ _

theorem effects_rbCount (b : RingSel) : EffectsOutcome (.rbCount b) s (execRbCount b s) := by
  unfold execRbCount
  split <;> exact Effects.none.respond _ _

theorem effects_rbFree (b : RingSel) : EffectsOutcome (.rbFree b) s (execRbFree b s) := by
  unfold execRbFree
  split <;> exact Effects.none.respond _ _

theorem effects_rbClear (b : RingSel) : EffectsOutcome (.rbClear b) s (execRbClear b s) := by
  unfold execRbClear
  split
  · exact Effects.none.respond _ _
  · rename_i hr
    exact (Effects.none.take b _ (by simp [consumes]) (Bool.eq_true_of_not_eq_false hr)).respond _ _

theorem effects_pkBuild (cap : Half) (msg : List Byte) : EffectsOutcome (.pkBuild cap msg) s (execPkBuild cap msg s) := by
  unfold execPkBuild
  split <;> exact Effects.none.respond _ _

theorem effects_pkLocate (b : RingSel) (cap : Half) : EffectsOutcome (.pkLocate b cap) s (execPkLocate b cap s) := by
  have hloc := (Effects.none (i := .pkLocate b cap) (s := s)).locate (b := b) (by simp [consumes]) cap.toNat
  unfold execPkLocate
  rcases e : locate b cap.toNat s with ⟨t, x⟩
  rw [e] at hloc
  cases x <;> exact hloc.respond _ _

theorem effects_pkVerify (pkt : List Byte) : EffectsOutcome (.pkVerify pkt) s (execPkVerify pkt s) := by
  unfold execPkVerify
  split <;> exact Effects.none.respond _ _

theorem effects_pkExtractMsg (cap : Half) (pkt : List Byte) :
    EffectsOutcome (.pkExtractMsg cap pkt) s (execPkExtractMsg cap pkt s) := by
  unfold execPkExtractMsg
  split <;> exact Effects.none.respond _ _

theorem effects_hsSend (r : Byte) : EffectsOutcome (.hsSend r) s (execHsSend r s) := by
  have hsend := (Effects.none (i := .hsSend r) (s := s)).send rfl r
  unfold execHsSend
  rcases e : send r s with ⟨t, x⟩
  rw [e] at hsend
  cases x <;> exact hsend.respond _ _

theorem effects_inject (data : List Byte) : EffectsOutcome (.inject data) s (execInject data s) := by
  have hsend := (Effects.none (i := .inject data) (s := s)).sendBytes (b := .outbound) rfl data
  unfold execInject
  repeat' split
  · exact Effects.none.respond _ _
  · exact Effects.none.respond _ _
  · exact hsend.respond _ _
  · exact hsend.respond _ _

/-- Every operation goes on, to a state that its effects reach: no soundness of `s` is needed. -/
theorem exec_effectsOutcome (i : Instr) (s : State) : EffectsOutcome i s (exec i s) := by
  cases i with
  | rbInit b => exact (Effects.none.init b rfl).respond _ _
  | rbPut b v => exact (Effects.none.putByte (by simp [produces]) v).respond _ _
  | rbGet b => exact effects_rbGet b
  | rbPeek b off => exact effects_rbPeek b off
  | rbCount b => exact effects_rbCount b
  | rbFree b => exact effects_rbFree b
  | rbClear b => exact effects_rbClear b
  | pkBuild cap msg => exact effects_pkBuild cap msg
  | pkLocate b cap => exact effects_pkLocate b cap
  | pkVerify pkt => exact effects_pkVerify pkt
  | pkExtractMsg cap pkt => exact effects_pkExtractMsg cap pkt
  | hsSend r => exact effects_hsSend r
  | poll => exact Effects.none.pollCycle rfl rfl
  | inject data => exact effects_inject data
  | crc16 | hsOnMessage | reservedCommand => exact Effects.none.respond _ _
  | tokenMarco | tokenPolo | tokenOk | tokenError | tokenUnknown => exact Effects.none.respond _ _
  | rxPut | soh | stx | etx => exact Effects.none.rxTransfer rfl _
  | frame len msg crc => exact Effects.none.rxTransfers rfl _
  | txGet => exact (Effects.none.getByte rfl).answer _
  | isEmpty | isFull => exact Effects.none.answer _

theorem exec_effects {i : Instr} {t : State} (h : exec i s = .next t) : Effects i s t := by
  have := exec_effectsOutcome i s
  rwa [h] at this

namespace Effects

variable {i : Instr} {t : State} {b : RingSel}

/-! ## What effects leave alone -/

theorem cfg (h : Effects i s t) : t.cfg = s.cfg := by
  induction h with
  | none => rfl
  | answer | init | take | store => simpa

theorem resets (h : Effects i s t) : t.resets = s.resets := by
  induction h with
  | none => rfl
  | answer | init | take | store => simpa

/-- A property that rests on ring `b` and on what no effect changes needs a proof for the effects on ring `b` alone. -/
theorem ring_induction {P : State → Prop} (h : Effects i s t) (base : P s)
    (frame : ∀ u w : State, w.ring b = u.ring b → w.cfg = u.cfg → w.resets = u.resets → P u → P w)
    (init : i = .rbInit b → ∀ u, P u → P (u.setRing b { u.ring b with head := 0, tail := 0, ready := true }))
    (take : consumes i b = true → ∀ u x, (u.ring b).ready = true → P u → P (u.setHead b x))
    (store : produces i b = true → ∀ u v, (u.ring b).ready = true → u.ringFull b = false → P u → P (u.put b v)) :
    P t := by
  have other : ∀ {b' : RingSel} (u : State) (r : Ring), b ≠ b' → P u → P (u.setRing b' r) := fun u r hb =>
    frame u _ (State.ring_setRing_ne u r hb) (by simp) (by simp)
  induction h with
  | none => exact base
  | answer o _ ih => exact frame _ _ (State.ring_emit _ o b) rfl rfl ih
  | init b' hi _ ih =>
    by_cases hb : b = b'
    · subst hb; exact init hi _ ih
    · exact other _ _ hb ih
  | take b' x hc hr _ ih =>
    by_cases hb : b = b'
    · subst hb; exact take hc _ x hr ih
    · exact other _ _ hb ih
  | store b' v hp hr hf _ ih =>
    by_cases hb : b = b'
    · subst hb; exact store hp _ v hr hf ih
    · rw [State.put_eq_setRing]; exact other _ _ hb ih

/-- No effect clears a ready bit (R13). -/
theorem ready (h : Effects i s t) (hr : (s.ring b).ready = true) : (t.ring b).ready = true :=
  h.ring_induction (P := fun u => (u.ring b).ready = true) hr (fun _ _ hring _ _ hu => hring ▸ hu)
    (fun _ u _ => by simp) (fun _ u x _ hu => by simpa using hu) (fun _ u v _ _ hu => by simpa using hu)

/-- While the ready bit is 0, RB_INIT alone has an effect on a ring (R13, R87). -/
theorem ring_of_not_ready (h : Effects i s t) (hr : (s.ring b).ready = false) (hi : i ≠ .rbInit b) :
    t.ring b = s.ring b := by
  have not_ready : ∀ {u : State}, u.ring b = s.ring b → (u.ring b).ready ≠ true := fun hu => by simp [hu, hr]
  exact h.ring_induction (P := fun u => u.ring b = s.ring b) rfl (fun _ _ hring _ _ hu => hring.trans hu)
    (fun e => absurd e hi) (fun _ u x hready hu => absurd hready (not_ready hu))
    (fun _ u v hready _ hu => absurd hready (not_ready hu))

/-- Storage is written by a producer only (R42). -/
theorem mem_of_not_produces (h : Effects i s t) (hp : produces i b = false) : (t.ring b).mem = (s.ring b).mem :=
  h.ring_induction (P := fun u => (u.ring b).mem = (s.ring b).mem) rfl (fun _ _ hring _ _ hu => hring ▸ hu)
    (fun _ u hu => by simpa using hu) (fun _ u x _ hu => by simpa using hu)
    (fun hp' => absurd hp' (by simp [hp]))

end Effects

/-! ## Where bytes are stored (10_state R14, 40 R95) -/

/-- `n` bytes were stored in ring `b` from the tail of `s` on, and nothing taken from it: `t` is sound and holds `n` bytes more,
and every slot but those `n` reads as before. -/
structure StoredAtTail (s : State) (b : RingSel) (n : Nat) (t : State) : Prop where
  inv : t.ringInv b
  cfg : t.cfg = s.cfg
  count : t.count b = s.count b + n
  tail : (t.ring b).tail = ((s.ring b).tail + n) % s.size b
  kept : ∀ x, (∀ j < n, s.slot b x ≠ s.slot b ((s.ring b).tail + j)) → t.memRead b x = s.memRead b x

namespace StoredAtTail

variable {t u : State} {b : RingSel} {n : Nat}

theorem refl (h : s.ringInv b) : StoredAtTail s b 0 s :=
  ⟨h, rfl, rfl, (Nat.mod_eq_of_lt h.1.2.1).symm, fun _ _ => rfl⟩

theorem size (h : StoredAtTail s b n t) : t.size b = s.size b := by simp only [State.size, h.cfg]

theorem congr (h : StoredAtTail s b n t) (hring : u.ring b = t.ring b) (hcfg : u.cfg = t.cfg) (hres : u.resets = t.resets) :
    StoredAtTail s b n u where
  inv := State.ringInv_congr hring hcfg h.inv
  cfg := hcfg.trans h.cfg
  count := by rw [← h.count]; simp only [State.count, State.size, hring, hcfg]
  tail := hring ▸ h.tail
  kept x hx := (State.memRead_congr (hring ▸ rfl) hcfg hres x).trans (h.kept x hx)

/-- One more byte, stored in the slot after the `n` (R81). -/
theorem put (h : StoredAtTail s b n t) (hr : (t.ring b).ready = true) (hf : t.ringFull b = false) (v : Byte) :
    StoredAtTail s b (n + 1) (t.put b v) where
  inv := State.ringInv_put h.inv hr hf v
  cfg := by simpa using h.cfg
  count := by rw [State.count_put h.inv hf v, h.count, Nat.add_assoc]
  tail := by simp [h.tail, h.size, Nat.add_assoc]
  kept x hx := by
    have hslot : ∀ y, t.slot b y = s.slot b y := fun y => by simp only [State.slot, h.size]
    have hwritten : t.slot b (t.ring b).tail = s.slot b ((s.ring b).tail + n) := by
      rw [hslot, h.tail]
      exact Nat.mod_mod _ _
    rw [State.memRead_setTail, State.memRead_memWrite_ne t b v, h.kept x fun j hj => hx j (Nat.lt_succ_of_lt hj)]
    rw [hslot, hwritten]
    exact hx n (Nat.lt_succ_self n)

/-- The tail tells how many bytes were stored: they are fewer than the ring has slots. -/
theorem eq_of_tail (h : StoredAtTail s b n t) {k : Nat} (hk : k < s.size b)
    (htail : (t.ring b).tail = ((s.ring b).tail + k) % s.size b) : k = n := by
  have hn : n < s.size b := by
    have := State.count_lt h.inv
    rw [h.count, h.size] at this
    omega
  have hmod : (s.ring b).tail + k ≡ (s.ring b).tail + n [MOD s.size b] := htail.symm.trans h.tail
  exact (Nat.ModEq.add_left_cancel' _ hmod).eq_of_lt_of_lt hk hn

end StoredAtTail

/-- No operation both fills and drains one ring (R42). -/
theorem not_consumes_of_produces {i : Instr} {b : RingSel} (h : produces i b = true) : consumes i b ≠ true := by
  cases i <;> simp_all [produces, consumes]

/-- A producer of ring `b` stores some number of bytes at its tail. -/
theorem Effects.stored {i : Instr} {t : State} {b : RingSel} (h : Effects i s t) (hp : produces i b = true)
    (hinv : s.ringInv b) : ∃ n, StoredAtTail s b n t :=
  h.ring_induction (P := fun u => ∃ n, StoredAtTail s b n u) ⟨0, .refl hinv⟩
    (fun _ _ hring hcfg hres ⟨n, hn⟩ => ⟨n, hn.congr hring hcfg hres⟩)
    (fun hi => absurd hp (by simp [hi, produces]))
    (fun hc => absurd hc (not_consumes_of_produces hp))
    (fun _ _ v hr hf ⟨n, hn⟩ => ⟨n + 1, hn.put hr hf v⟩)

/-- Settles O54: an operation that is no producer of the ring writes no slot of it, and a producer writes the slots from the old
tail on, as many as the tail advances. -/
theorem storesOnlyAtTheTail : Obligations.StoresOnlyAtTheTail := by
  intro i s t b hinv hexec k hk htail x hx hout
  have heff := exec_effects hexec
  cases hp : produces i b with
  | false => exact State.memRead_congr (heff.mem_of_not_produces hp) heff.cfg heff.resets x
  | true =>
    obtain ⟨n, hn⟩ := heff.stored hp (hinv.ring b)
    obtain rfl := hn.eq_of_tail hk htail
    refine hn.kept x fun j hj => ?_
    rw [State.slot_of_lt s hx]
    exact hout j hj

/-! ## The ready bit (10_state R13) -/

/-- A step is a reset only where the reset input is the oldest presented (R195). -/
theorem head_of_fetched_reset {l : List Input} (h : fetched l = .reset) : l.head? = some .reset := by
  match l with
  | [] => cases h
  | .reset :: _ => rfl
  | .issue _ _ :: _ => cases h
  | .command _ bytes :: _ =>
    simp only [fetched] at h
    split at h <;> cases h

/-- A step that has no reset presented keeps a ready bit. -/
theorem head_of_step_clears_ready {t : State} {b : RingSel} (h : step s = .next t) (hr : (s.ring b).ready = true)
    (hr' : (t.ring b).ready = false) : s.inputs.head? = some .reset := by
  have kept : (t.ring b).ready ≠ true := by simp [hr']
  cases hf : fetched s.inputs with
  | reset => exact head_of_fetched_reset hf
  | idle =>
    simp only [step, hf, Host.Outcome.next.injEq] at h
    exact absurd (h ▸ hr) kept
  | run i =>
    simp only [step, hf] at h
    exact absurd ((exec_effects h).ready (by simpa using hr)) kept
  | malformed r =>
    simp only [step, hf, Host.Outcome.next.injEq] at h
    exact absurd (by simpa [← h, rejectCommand] using hr) kept

/-- Settles O56: no effect clears a ready bit, only RB_INIT has an effect on a ring that is not ready, and a step without effects
that clears the bit is reset. -/
theorem readyBitSetByInitOnly : Obligations.ReadyBitSetByInitOnly :=
  ⟨fun _i _s _t _b hexec => ⟨(exec_effects hexec).ready, (exec_effects hexec).ring_of_not_ready⟩,
    fun _s _t _b => head_of_step_clears_ready⟩

end Sys2Proof.Machine
end

section
/-! PROOF. Who writes which register of a ring (10_state R11, R12; 20_memory R42; 70 R199, R201): settles O53 and O55. -/

namespace Sys2Proof.Machine

namespace Effects

variable {i : Instr} {s t : State} {b : RingSel}

theorem inputs (h : Effects i s t) : t.inputs = s.inputs := by
  induction h with
  | none => rfl
  | answer | init | take | store => simpa

/-- The tail is written by a producer and by RB_INIT only (R12, R42). -/
theorem tail_of_not_produces (h : Effects i s t) (hi : i ≠ .rbInit b) (hp : produces i b = false) :
    (t.ring b).tail = (s.ring b).tail :=
  h.ring_induction (P := fun u => (u.ring b).tail = (s.ring b).tail) rfl (fun _ _ hring _ _ hu => hring ▸ hu)
    (fun e => absurd e hi) (fun _ u x _ hu => by simpa using hu)
    (fun hp' => absurd hp' (by simp [hp]))

/-- The head is written by a consumer and by RB_INIT only (R11, R42). -/
theorem head_of_not_consumes (h : Effects i s t) (hi : i ≠ .rbInit b) (hc : consumes i b = false) :
    (t.ring b).head = (s.ring b).head :=
  h.ring_induction (P := fun u => (u.ring b).head = (s.ring b).head) rfl (fun _ _ hring _ _ hu => hring ▸ hu)
    (fun e => absurd e hi) (fun hc' => absurd hc' (by simp [hc]))
    (fun _ u v _ _ hu => by simpa using hu)

/-- An operation without a role on a ring leaves it as it is (R42). -/
theorem ring_of_no_role (h : Effects i s t) (hi : i ≠ .rbInit b) (hp : produces i b = false) (hc : consumes i b = false) :
    t.ring b = s.ring b :=
  h.ring_induction (P := fun u => u.ring b = s.ring b) rfl (fun _ _ hring _ _ hu => hring.trans hu)
    (fun e => absurd e hi) (fun hc' => absurd hc' (by simp [hc])) (fun hp' => absurd hp' (by simp [hp]))

end Effects

theorem initialises_eq_false_iff {i : Instr} {b : RingSel} : initialises i b = false ↔ i ≠ .rbInit b := by
  simp [initialises]

/-- Settles O53: tail and storage change by a producer's stores, the head by a consumer's takes. -/
theorem rolesWriteTheirOwnRegisters : Obligations.RolesWriteTheirOwnRegisters := by
  intro i s t b _ hexec hinit
  have heff := exec_effects hexec
  have hi := initialises_eq_false_iff.mp hinit
  exact ⟨fun hp => ⟨heff.tail_of_not_produces hi hp, heff.mem_of_not_produces hp⟩, heff.head_of_not_consumes hi⟩

/-! ## Contexts of a schedule (70 R199, R201) -/

/-- An operation of the schedule that satisfies `p` has its context among those listed for `p`. -/
theorem mem_contextsOf {p : Instr → Bool} {l : List Input} {x : Input} {w : Agent} {i : Instr} (hx : x ∈ l)
    (hi : issuedBy x = some (w, i)) (hp : p i = true) : w ∈ contextsOf p l :=
  List.mem_filterMap.mpr ⟨(w, i), List.mem_filterMap.mpr ⟨x, hx, hi⟩, if_pos hp⟩

/-- Where the contexts listed for `p` agree, two operations that satisfy `p` have one context. -/
theorem context_unique {p : Instr → Bool} {l : List Input} (hl : (contextsOf p l).Pairwise (· = ·)) {x y : Input}
    {wx wy : Agent} {i j : Instr} (hx : x ∈ l) (hy : y ∈ l) (hi : issuedBy x = some (wx, i)) (hj : issuedBy y = some (wy, j))
    (hpi : p i = true) (hpj : p j = true) : wx = wy :=
  hl.forall_of_forall (fun _ _ => rfl) (mem_contextsOf hx hi hpi) (mem_contextsOf hy hj hpj)

/-- The ownership rule, by ring (R199). -/
theorem contexts_of_singleProducerConsumer {l : List Input} (h : singleProducerConsumer l) (b : RingSel) :
    (contextsOf (produces · b) l).Pairwise (· = ·) ∧ (contextsOf (consumes · b) l).Pairwise (· = ·) := by
  cases b
  · exact h.1
  · exact h.2

/-- An operation that can move the tail is a producer. -/
theorem produces_of_tail_moves {i : Instr} {b : RingSel} (hinit : initialises i b = false)
    (h : ∃ s t, s.Inv ∧ exec i s = .next t ∧ (t.ring b).tail ≠ (s.ring b).tail) : produces i b = true := by
  obtain ⟨s, t, -, hexec, hne⟩ := h
  by_contra hp
  exact hne ((exec_effects hexec).tail_of_not_produces (initialises_eq_false_iff.mp hinit) (Bool.eq_false_of_not_eq_true hp))

/-- An operation that can move the head is a consumer. -/
theorem consumes_of_head_moves {i : Instr} {b : RingSel} (hinit : initialises i b = false)
    (h : ∃ s t, s.Inv ∧ exec i s = .next t ∧ (t.ring b).head ≠ (s.ring b).head) : consumes i b = true := by
  obtain ⟨s, t, -, hexec, hne⟩ := h
  by_contra hc
  exact hne ((exec_effects hexec).head_of_not_consumes (initialises_eq_false_iff.mp hinit) (Bool.eq_false_of_not_eq_true hc))

/-- Only INJECT from the injector is executed in another context than its issuer's (R39, R201). -/
theorem executedIn_self {who : Agent} {i : Instr} (h : who ≠ .inj ∨ ∀ data, i ≠ .inject data) : executedIn who i = who := by
  rcases h with h | h
  · exact executedIn_of_ne h i
  · unfold executedIn
    split
    · exact absurd rfl (h _)
    · rfl

/-- Settles O55: what moves a cursor has the cursor's role, the ownership rule gives each role of a ring one context, and an
operation without a role on `OUT` leaves it as it is. -/
theorem oneContextPerCursor : Obligations.OneContextPerCursor := by
  refine ⟨?_, fun data => rfl, ?_, ?_, ?_⟩
  · intro l x y wx wy i j b hl hx hy hi hj hinit hjnit
    obtain ⟨producers, consumers⟩ := contexts_of_singleProducerConsumer hl b
    exact ⟨fun mi mj => context_unique producers hx hy hi hj (produces_of_tail_moves hinit mi) (produces_of_tail_moves hjnit mj),
      fun mi mj => context_unique consumers hx hy hi hj (consumes_of_head_moves hinit mi) (consumes_of_head_moves hjnit mj)⟩
  · intro who i h
    rw [issuedBy, executedIn_self h]
  · intro who bytes i hdecode
    simp only [issuedBy, hdecode]
  · intro l x i s t hl hx hi _ hexec
    obtain ⟨hp, hc, hinit⟩ := hl (.inj, i) (List.mem_filterMap.mpr ⟨x, hx, hi⟩) rfl
    exact (exec_effects hexec).ring_of_no_role (initialises_eq_false_iff.mp hinit) hp hc

end Sys2Proof.Machine
end

section
/-! PROOF. What a step does with the oldest presented input (20_memory R38, 30_encoding R60): settles O6. -/

namespace Sys2Proof.Machine

variable {s : State} {rest : List Input}

theorem State.takeInput_eq {x : Input} (h : s.inputs = x :: rest) : s.takeInput = { s with inputs := rest } := by
  simp [State.takeInput, h]

/-- A step on the reset input (70 R195). -/
theorem step_reset (h : s.inputs = .reset :: rest) : step s = .next (resetEvent s.takeInput) := by
  simp [step, fetched, h]

/-- A step with nothing presented (60 R187). -/
theorem step_idle (h : s.inputs = []) : step s = .next s := by
  simp [step, fetched, h]

/-- Settles O6: one clause per kind of presented input. -/
theorem stepRunsPresentedOperation : Obligations.StepRunsPresentedOperation := by
  intro s rest
  refine ⟨?_, ?_, ?_, ?_, step_idle⟩
  · intro who bytes i h hdecode
    rw [step_command h hdecode, State.takeInput_eq h]
  · intro who i h
    rw [step_issue h, State.takeInput_eq h]
  · intro who bytes e h hdecode
    rw [step_malformed h hdecode, State.takeInput_eq h, rejectCommand]
  · intro h
    rw [step_reset h, State.takeInput_eq h]

end Sys2Proof.Machine
end

section
/-! PROOF. The operations that write no ring (20_memory R37): settles O58. -/

namespace Sys2Proof.Machine

/-- The outcome goes on, with one more answer and nothing else changed. -/
def OnlyAnswers (s : State) (out : Host.Outcome State Fault Refusal) : Prop := ∃ o, out = .next (s.emit o)

variable {s : State}

theorem OnlyAnswers.respond (c : Code) (p : List Byte) : OnlyAnswers s (.next (s.respond c p)) := ⟨_, rfl⟩

theorem onlyAnswers_rbPeek (b : RingSel) (off : Half) : OnlyAnswers s (execRbPeek b off s) := by
  unfold execRbPeek
  repeat' split
  all_goals exact .respond _ _

theorem onlyAnswers_rbCount (b : RingSel) : OnlyAnswers s (execRbCount b s) := by
  unfold execRbCount
  split <;> exact .respond _ _

theorem onlyAnswers_rbFree (b : RingSel) : OnlyAnswers s (execRbFree b s) := by
  unfold execRbFree
  split <;> exact .respond _ _

theorem onlyAnswers_pkBuild (cap : Half) (msg : List Byte) : OnlyAnswers s (execPkBuild cap msg s) := by
  unfold execPkBuild
  split <;> exact .respond _ _

theorem onlyAnswers_pkVerify (pkt : List Byte) : OnlyAnswers s (execPkVerify pkt s) := by
  unfold execPkVerify
  split <;> exact .respond _ _

theorem onlyAnswers_pkExtractMsg (cap : Half) (pkt : List Byte) : OnlyAnswers s (execPkExtractMsg cap pkt s) := by
  unfold execPkExtractMsg
  split <;> exact .respond _ _

/-- Every operation that neither produces nor initialises, and is none of the four that move a head, only answers. -/
theorem onlyAnswers_exec {i : Instr} (hp : ∀ b, produces i b = false) (hi : ∀ b, initialises i b = false)
    (htake : ∀ b, i ≠ .rbGet b ∧ i ≠ .rbClear b ∧ ∀ cap, i ≠ .pkLocate b cap) (htx : i ≠ .txGet) :
    OnlyAnswers s (exec i s) := by
  cases i with
  | rbPeek b off => exact onlyAnswers_rbPeek b off
  | rbCount b => exact onlyAnswers_rbCount b
  | rbFree b => exact onlyAnswers_rbFree b
  | pkBuild cap msg => exact onlyAnswers_pkBuild cap msg
  | pkVerify pkt => exact onlyAnswers_pkVerify pkt
  | pkExtractMsg cap pkt => exact onlyAnswers_pkExtractMsg cap pkt
  | crc16 | hsOnMessage | reservedCommand => exact .respond _ _
  | tokenMarco | tokenPolo | tokenOk | tokenError | tokenUnknown => exact .respond _ _
  | isEmpty | isFull => exact ⟨_, rfl⟩
  | rbInit b => exact absurd rfl (initialises_eq_false_iff.mp (hi b))
  | rbGet b => exact absurd rfl (htake b).1
  | rbClear b => exact absurd rfl (htake b).2.1
  | pkLocate b cap => exact absurd rfl ((htake b).2.2 cap)
  | txGet => exact absurd rfl htx
  | rbPut b v => exact absurd (hp b) (by simp [produces])
  | rxPut | frame | soh | stx | etx => exact absurd (hp .inbound) Bool.noConfusion
  | hsSend | poll | inject => exact absurd (hp .outbound) Bool.noConfusion

/-- Settles O58, operation by operation. -/
theorem readingOperationsOnlyAnswer : Obligations.ReadingOperationsOnlyAnswer := by
  intro i s t hp hi htake htx hexec
  obtain ⟨o, ho⟩ := onlyAnswers_exec (s := s) hp hi htake htx
  exact ⟨o, Host.Outcome.next.inj (hexec.symm.trans ho)⟩

end Sys2Proof.Machine
end

section
/-! PROOF. Bytes arriving on the wire (40 R81, 43 R150): settles O48 and O49. -/

namespace Sys2Proof.Machine

variable {s : State} {b : RingSel}

/-- A ring is full exactly when it has no room (40 R90). -/
theorem State.free_eq_zero_iff (h : s.ringInv b) : s.free b = 0 ↔ s.ringFull b = true := by
  have hlt := State.count_lt h
  rw [State.ringFull_iff h, State.free]
  omega

/-- A put takes one byte of room (40 R89). -/
theorem State.free_put (h : s.ringInv b) (hf : s.ringFull b = false) (v : Byte) : (s.put b v).free b = s.free b - 1 := by
  have hsize : (s.put b v).size b = s.size b := by simp
  rw [State.free, State.count_put h hf v, hsize, State.free, Nat.sub_succ']

theorem State.free_pos (h : s.ringInv b) (hf : s.ringFull b = false) : 0 < s.free b :=
  Nat.pos_of_ne_zero fun h0 => by simp [(State.free_eq_zero_iff h).mp h0] at hf

/-! ## Transfers one after another (R33) -/

/-- Bytes arriving at a full `IN` leave its contents. -/
theorem contents_rxTransfers_of_full (vs : List Byte) (hf : s.ringFull .inbound = true) :
    (rxTransfers vs s).contents .inbound = s.contents .inbound := by
  induction vs generalizing s with
  | nil => rfl
  | cons v vs ih =>
    rw [rxTransfers_cons, rxTransfer_dropped (.inr hf), ih (by simpa using hf), State.contents_emit]

/-- Of the bytes arriving at a ready `IN`, those that fit go behind what it holds. -/
theorem contents_rxTransfers (vs : List Byte) (h : s.ringInv .inbound) (hr : (s.ring .inbound).ready = true) :
    (rxTransfers vs s).contents .inbound = s.contents .inbound ++ vs.take (s.free .inbound) := by
  induction vs generalizing s with
  | nil => simp
  | cons v vs ih =>
    cases hf : s.ringFull .inbound with
    | true =>
      rw [contents_rxTransfers_of_full _ hf, (State.free_eq_zero_iff h).mpr hf, List.take_zero, List.append_nil]
    | false =>
      obtain ⟨n, hn⟩ := Nat.exists_eq_add_one.mpr (State.free_pos h hf)
      have hput : ((s.put .inbound v).emit (.rx true)).ringInv .inbound := State.ringInv_put h hr hf v
      rw [rxTransfers_cons, rxTransfer_accepted hr hf, ih hput (by simpa using hr), State.contents_emit,
        State.contents_put h hf, State.free_emit, State.free_put h hf, hn, List.take_succ_cons, List.append_assoc]
      rfl

/-- Bytes that all fit into `IN` are each answered as accepted. -/
theorem outputs_rxTransfers_of_room (vs : List Byte) (h : s.ringInv .inbound) (hr : (s.ring .inbound).ready = true)
    (hroom : vs.length ≤ s.free .inbound) :
    (rxTransfers vs s).outputs = s.outputs ++ List.replicate vs.length (.rx true) := by
  induction vs generalizing s with
  | nil => simp
  | cons v vs ih =>
    rw [List.length_cons] at hroom
    have hf : s.ringFull .inbound = false := Bool.eq_false_of_not_eq_true fun hf => by
      have := (State.free_eq_zero_iff h).mpr hf
      omega
    have hfree := State.free_put h hf v
    have hput : ((s.put .inbound v).emit (.rx true)).ringInv .inbound := State.ringInv_put h hr hf v
    rw [rxTransfers_cons, rxTransfer_accepted hr hf, ih hput (by simpa using hr) (by rw [State.free_emit]; omega)]
    simp [List.replicate_succ]

/-- The layout of a frame on the wire (R50). -/
theorem frameBytes_eq (len : Half) (msg : List Byte) (crc : Half) :
    frameBytes len msg crc = [0x01, hiByte len, loByte len, 0x02] ++ msg ++ [0x03, hiByte crc, loByte crc] := by
  simp [frameBytes, frameHead, be16Bytes, sohByte, stxByte, etxByte]

/-- Settles O48: each byte of the frame finds room, and nothing but the tail and the storage of `IN` changes. -/
theorem frameArrivesWhole : Obligations.FrameArrivesWhole := by
  intro len msg crc s hinv hr hroom
  have heff : Effects (.frame len msg crc) s (rxTransfers (frameBytes len msg crc) s) := exec_effects rfl
  have hfits : (frameBytes len msg crc).length ≤ s.free .inbound := by rwa [length_frameBytes]
  refine ⟨_, rfl, heff.cfg, heff.inputs, heff.ring_of_no_role (by simp) rfl rfl,
    ⟨heff.head_of_not_consumes (by simp) rfl, (heff.ready hr).trans hr.symm⟩, ?_, ?_⟩
  · rw [outputs_rxTransfers_of_room _ hinv hr hfits, length_frameBytes]
  · rw [contents_rxTransfers _ hinv hr, List.take_of_length_le hfits, frameBytes_eq]

/-! ## Units as transfers (log 9, log 10) -/

/-- What is presented at the ports does not matter to an RX transfer. -/
theorem rxTransfer_withInputs (v : Byte) (s : State) (l : List Input) :
    rxTransfer v { s with inputs := l } = { rxTransfer v s with inputs := l } := by
  cases hr : (s.ring .inbound).ready with
  | false =>
    rw [rxTransfer_dropped (.inl hr)]
    exact rxTransfer_dropped (.inl hr)
  | true =>
    cases hf : s.ringFull .inbound with
    | true =>
      rw [rxTransfer_dropped (.inr hf)]
      exact rxTransfer_dropped (.inr hf)
    | false =>
      rw [rxTransfer_accepted hr hf]
      exact rxTransfer_accepted hr hf

/-- RX transfers presented one by one reach the state they reach in one step. -/
theorem run_rxPuts (vs : List Byte) {rest : List Input}
    (h : s.inputs = vs.map (fun v => Input.issue .rx (.rxPut v)) ++ rest) :
    core.run vs.length s = .next (rxTransfers vs { s with inputs := rest }) := by
  induction vs generalizing s with
  | nil =>
    simp only [List.map_nil, List.nil_append] at h
    subst h
    rfl
  | cons v vs ih =>
    have hstep : step s = .next (rxTransfer v s.takeInput) := step_issue h
    have hinputs : (rxTransfer v s.takeInput).inputs = s.takeInput.inputs :=
      (exec_effects (i := .rxPut v) rfl).inputs
    have hrest : (rxTransfer v s.takeInput).inputs = vs.map (fun v => Input.issue .rx (.rxPut v)) ++ rest := by
      rw [hinputs, State.inputs_takeInput, h]
      rfl
    calc core.run (vs.length + 1) s
        = core.run vs.length (rxTransfer v s.takeInput) := by
          simp only [Host.Core.run, show core.step s = step s from rfl, hstep]
      _ = .next (rxTransfers vs { rxTransfer v s.takeInput with inputs := rest }) := ih hrest
      _ = .next (rxTransfers (v :: vs) { s with inputs := rest }) := by
          rw [← rxTransfer_withInputs, rxTransfers_cons]
          rfl

/-- One RX transfer at a sound `IN`, accepted or dropped (R150). -/
theorem rxTransfer_accepts_or_drops (v : Byte) (h : s.ringInv .inbound) :
    ((s.ring .inbound).ready = true → s.free .inbound ≠ 0 →
      s.answersOn .inbound (.rx true) (rxTransfer v s) ∧ s.headKept .inbound (rxTransfer v s) ∧
        (rxTransfer v s).contents .inbound = s.contents .inbound ++ [v]) ∧
    ((s.ring .inbound).ready = false ∨ s.free .inbound = 0 → rxTransfer v s = s.emit (.rx false)) := by
  constructor
  · intro hr hroom
    have hf : s.ringFull .inbound = false :=
      Bool.eq_false_of_not_eq_true fun hf => hroom ((State.free_eq_zero_iff h).mpr hf)
    rw [rxTransfer_accepted hr hf]
    refine ⟨⟨by simp, by simp, by simp, by simp, fun hne => absurd rfl hne, fun _ => ?_⟩, ⟨by simp, by simp⟩, ?_⟩
    · rfl
    · rw [State.contents_emit, State.contents_put h hf]
  · intro hdrop
    exact rxTransfer_dropped (hdrop.imp_right (State.free_eq_zero_iff h).mp)

/-- Settles O49: a FRAME by induction on its bytes, a marker as the transfer that it is. -/
theorem wireUnitsAreRxTransfers : Obligations.WireUnitsAreRxTransfers := by
  constructor
  · intro len msg crc s rest h
    have hrun := run_rxPuts _ h
    rw [length_frameBytes] at hrun
    exact ⟨_, hrun, rfl⟩
  · intro s hinv x hx
    have hexec : exec x.1 s = .next (rxTransfer x.2 s) := by
      simp only [List.mem_cons, List.not_mem_nil, or_false] at hx
      rcases hx with rfl | rfl | rfl <;> rfl
    obtain ⟨accepts, drops⟩ := rxTransfer_accepts_or_drops x.2 hinv
    exact ⟨fun hr hroom => ⟨_, hexec, accepts hr hroom⟩, fun h => hexec.trans (congrArg _ (drops h))⟩

end Sys2Proof.Machine
end

section
/-! PROOF. What a ring gains and loses in one operation (20_memory R40, 40 R88, R91): settles O22. -/

namespace Sys2Proof.Machine

/-- The outcome goes on, to a state of which `P` holds. -/
def Ends (P : State → Prop) : Host.Outcome State Fault Refusal → Prop
  | .next t => P t
  | _ => False

theorem Ends.of_next {P : State → Prop} {out : Host.Outcome State Fault Refusal} {t : State} (h : Ends P out)
    (e : out = .next t) : P t := by
  rwa [e] at h

variable {s t : State} {b : RingSel}

theorem inv_of_exec {i : Instr} (h : s.Inv) (hexec : exec i s = .next t) : t.Inv := by
  have halike := (State.Alike.refl h).exec i
  rw [hexec] at halike
  exact halike.inv

/-! ## Bytes that are put -/

/-- The codes of R180 that stand for no effect: FULL, EMPTY, BUSY and BADARG. -/
abbrev refusals : List Code := [.full, .empty, .busy, .badarg]

/-- A put adds its byte if it fits (R81). -/
theorem contents_putByte (v : Byte) (h : s.ringInv b) (hr : (s.ring b).ready = true) :
    (putByte b v s).1.contents b = s.contents b ++ [v].take (s.free b) := by
  rcases putByte_cases b v s with ⟨hr', -⟩ | ⟨-, hf, e⟩ | ⟨-, hf, e⟩
  · simp [hr] at hr'
  · rw [e, (State.free_eq_zero_iff h).mpr hf, List.take_zero, List.append_nil]
  · rw [e, List.take_of_length_le (State.free_pos h hf)]
    exact State.contents_put h hf v

/-- Sending adds the bytes that fit (43 R146). -/
theorem contents_sendBytes (vs : List Byte) (h : s.ringInv b) (hr : (s.ring b).ready = true) :
    (sendBytes b vs s).1.contents b = s.contents b ++ vs.take (s.free b) := by
  obtain ⟨hn, hcontents, -⟩ := sendBytes_spec vs h hr
  rw [hcontents, hn, Nat.min_comm, ← List.take_take, List.take_length]

/-- HS_SEND where it is refused (43 R145). -/
theorem execHsSend_refused {r : Byte} (h : (s.ring .outbound).ready = false ∨ replyOfId r = none) :
    execHsSend r s = .next (s.respond .badarg []) := by
  rw [execHsSend, send_refused h]

/-- HS_SEND of a reply sends its frame (43 R145). -/
theorem execHsSend_sends {r : Byte} {u : Token} (hr : (s.ring .outbound).ready = true) (hu : replyOfId r = some u) :
    ∃ c ∉ refusals, ∃ p, execHsSend r s =
      .next ((sendBytes .outbound (frameOf (tokenBytes s.cfg.tokenNul u)) s).1.respond c p) := by
  rw [execHsSend, send_eq hr hu, sendReply_eq (replyOfId_ne_unknown hu)]
  split_ifs
  · exact ⟨.ok, by decide, _, rfl⟩
  · exact ⟨.sendFailed, by decide, _, rfl⟩

/-- INJECT where it is refused (43 R154). -/
theorem execInject_refused {data : List Byte}
    (h : (s.ring .outbound).ready = false ∨ data = [] ∨ s.count .outbound ≠ 0) :
    ∃ c, execInject data s = .next (s.respond c []) := by
  unfold execInject
  split
  · exact ⟨_, rfl⟩
  · rename_i hok
    obtain ⟨hr, hdata⟩ := not_or.mp hok
    have hbusy : s.count .outbound ≠ 0 := (h.resolve_left hr).resolve_left fun h0 => hdata (by simp [h0])
    exact ⟨_, if_pos hbusy⟩

/-- INJECT into an empty `OUT` sends its bytes (43 R154). -/
theorem execInject_sends {data : List Byte} (hr : (s.ring .outbound).ready = true) (hdata : data ≠ [])
    (hcount : s.count .outbound = 0) :
    ∃ c ∉ refusals, ∃ p, execInject data s = .next ((sendBytes .outbound data s).1.respond c p) := by
  rw [execInject, if_neg (by simp [hr, hdata]), if_neg (by simp [hcount])]
  split_ifs
  · exact ⟨.ok, by decide, _, rfl⟩
  · exact ⟨.sendFailed, by decide, _, rfl⟩

/-! ## The protocol cycle as bytes taken and bytes sent (43 R147) -/

/-- The frame of the reply to a message; no bytes for a message without a reply (43 R141). -/
def replyFrame (nul : Bool) (msg : List Byte) : List Byte :=
  match replyTo (recognize nul msg) with
  | some u => frameOf (tokenBytes nul u)
  | none => []

/-- POLL's reaction to a message sends the reply frame. -/
theorem react_sends (msg : List Byte) (hr : (s.ring .outbound).ready = true) :
    ∃ c ∉ refusals, ∃ p,
      react msg s = (sendBytes .outbound (replyFrame s.cfg.tokenNul msg) s).1.respond c p := by
  rw [react_eq msg hr, replyFrame]
  cases replyTo (recognize s.cfg.tokenNul msg) with
  | none => exact ⟨.ok, by decide, _, rfl⟩
  | some u =>
    dsimp only
    split_ifs
    · exact ⟨.ok, by decide, _, rfl⟩
    · exact ⟨.sendFailed, by decide, _, rfl⟩

theorem pollReply_of_not_located (h : ∀ pkt, (locate .inbound s.cfg.pktMax s).2 ≠ .ok pkt) : s.pollReply = [] := by
  unfold State.pollReply
  split
  · exact absurd ‹_› (h _)
  all_goals rfl

theorem pollReply_of_rejected {pkt : List Byte} (h : (locate .inbound s.cfg.pktMax s).2 = .ok pkt)
    (hv : verify pkt ≠ none) : s.pollReply = [] := by
  simp only [State.pollReply, h, if_neg hv]

theorem pollReply_of_verified {pkt : List Byte} (h : (locate .inbound s.cfg.pktMax s).2 = .ok pkt)
    (hv : verify pkt = none) : s.pollReply = replyFrame s.cfg.tokenNul (span pkt 4 (pkt.length - 3)) := by
  simp only [State.pollReply, h, if_pos hv]
  rfl

/-- Where a candidate is malformed, the ring holds at least one byte after the noise (R117). -/
theorem locateCount_lt_of_malformed {cap : Nat} {p : List Byte} (h : (extractBytes cap (fromSoh p)).2 = .malformed) :
    locateCount cap p < p.length := by
  obtain ⟨h0, hlong⟩ := extractBytes_malformed h
  rw [fromSoh_eq_drop, List.length_drop] at hlong
  rw [locateCount, h0]
  omega

/-- POLL on two ready rings takes bytes from the front of `IN`, sends the reply frame into `OUT`, and answers once. -/
theorem pollCycle_sends (h : s.ringInv .inbound) (hi : (s.ring .inbound).ready = true)
    (ho : (s.ring .outbound).ready = true) :
    ∃ k ≤ s.count .inbound, ∃ c ∉ refusals, ∃ p,
      pollCycle s = (sendBytes .outbound s.pollReply (s.consume .inbound k)).1.respond c p := by
  have hcap : s.cfg.pktMax ≠ 0 := by have := s.cfg.pktMax_ge; omega
  have hloc : (locate .inbound s.cfg.pktMax s).2 = (extractBytes s.cfg.pktMax (fromSoh (s.contents .inbound))).2 := by
    rw [locate_eq _ h hi hcap]
  have hle : locateCount s.cfg.pktMax (s.contents .inbound) ≤ s.count .inbound := by
    simpa using locateCount_le s.cfg.pktMax (s.contents .inbound)
  rw [pollCycle_eq h hi ho]
  cases hx : (extractBytes s.cfg.pktMax (fromSoh (s.contents .inbound))).2 with
  | badarg => exact absurd hx (extractBytes_ne_badarg _ _)
  | incomplete =>
    rw [pollReply_of_not_located (by simp [hloc, hx])]
    exact ⟨_, hle, .incomplete, by decide, _, rfl⟩
  | malformed =>
    rw [pollReply_of_not_located (by simp [hloc, hx])]
    have hlt := locateCount_lt_of_malformed hx
    rw [State.length_contents] at hlt
    exact ⟨_, hlt, .malformed, by decide, _, rfl⟩
  | overflow len =>
    rw [pollReply_of_not_located (by simp [hloc, hx])]
    exact ⟨_, hle, .overflow, by decide, _, rfl⟩
  | ok pkt =>
    rw [hx] at hloc
    obtain ⟨-, -, -, hfits⟩ := extractBytes_ok hx
    refine ⟨_, hle, ?_⟩
    dsimp only
    rw [handleFrame_eq (by rwa [State.cfg_consume])]
    cases hv : verify pkt with
    | some r =>
      rw [pollReply_of_rejected hloc (by simp [hv])]
      exact ⟨.verifyFail, by decide, _, rfl⟩
    | none =>
      rw [pollReply_of_verified hloc hv, ← State.cfg_consume s .inbound (locateCount s.cfg.pktMax (s.contents .inbound))]
      exact react_sends _ (by simpa [State.ring_consume_ne] using ho)

/-- POLL's reply goes behind what `OUT` holds (43 R147). -/
theorem contents_pollCycle (hinv : s.Inv) (ho : (s.ring .outbound).ready = true) :
    (pollCycle s).contents .outbound = s.contents .outbound ++ s.pollReply.take (s.free .outbound) := by
  cases hi : (s.ring .inbound).ready with
  | false =>
    have hreply : s.pollReply = [] := pollReply_of_not_located (by simp [locate_badarg (.inl hi)])
    rw [pollCycle_badarg (.inl hi), hreply, List.take_nil, List.append_nil, State.contents_respond]
  | true =>
    obtain ⟨k, -, c, -, p, e⟩ := pollCycle_sends (hinv.ring _) hi ho
    have hring : (s.consume .inbound k).ring .outbound = s.ring .outbound := State.ring_consume_ne s k (by decide)
    have hfree : (s.consume .inbound k).free .outbound = s.free .outbound := by
      simp only [State.free, State.count, hring, State.size_consume]
    rw [e, State.contents_respond, contents_sendBytes _ (State.ringInv_congr hring (by simp) (hinv.ring _)) (hring ▸ ho),
      State.contents_congr hring (by simp) (by simp), hfree]

/-- A producer puts the bytes it offers behind what a ready ring holds, as far as they fit (R40, R91). -/
theorem contents_of_produces {i : Instr} (hinv : s.Inv) (hr : (s.ring b).ready = true) (hp : produces i b = true) :
    Ends (fun t => t.contents b = s.contents b ++ (offered i b s).take (s.free b)) (exec i s) := by
  have hb := hinv.ring b
  cases i with
  | rbPut b' v =>
    obtain rfl : b' = b := by simpa [produces] using hp
    simp only [offered, if_true]
    exact contents_putByte v hb hr
  | rxPut v =>
    obtain rfl : b = .inbound := by simpa [produces] using hp
    exact contents_rxTransfers [v] hb hr
  | soh | stx | etx =>
    obtain rfl : b = .inbound := by simpa [produces] using hp
    exact contents_rxTransfers [_] hb hr
  | frame len msg crc =>
    obtain rfl : b = .inbound := by simpa [produces] using hp
    exact contents_rxTransfers _ hb hr
  | hsSend r =>
    obtain rfl : b = .outbound := by simpa [produces] using hp
    show Ends _ (execHsSend r s)
    cases hu : replyOfId r with
    | none => simp [execHsSend_refused (.inr hu), Ends, offered, hu]
    | some u =>
      obtain ⟨c, -, p, e⟩ := execHsSend_sends hr hu
      simp only [e, Ends, offered, hu, if_true, State.contents_respond]
      exact contents_sendBytes _ hb hr
  | poll =>
    obtain rfl : b = .outbound := by simpa [produces] using hp
    exact contents_pollCycle hinv hr
  | inject data =>
    obtain rfl : b = .outbound := by simpa [produces] using hp
    show Ends _ (execInject data s)
    by_cases hsends : data ≠ [] ∧ s.count .outbound = 0
    · obtain ⟨hdata, hcount⟩ := hsends
      obtain ⟨c, -, p, e⟩ := execInject_sends hr hdata hcount
      simp only [e, Ends, offered, hcount, and_self, if_true, State.contents_respond]
      exact contents_sendBytes _ hb hr
    · have hnone : offered (.inject data) .outbound s = [] := by
        simp only [offered, true_and, ite_eq_right_iff]
        intro hcount
        by_contra hdata
        exact hsends ⟨hdata, hcount⟩
      obtain ⟨c, e⟩ := execInject_refused (s := s) (data := data) (by tauto)
      simp [e, Ends, hnone]
  | _ => exact absurd hp (by simp [produces])

/-! ## Bytes that are taken -/

/-- Ring `b` of `t` is that of `s` with some of its occupied bytes consumed (R88). -/
def TakesFront (s : State) (b : RingSel) (t : State) : Prop := ∃ k ≤ s.count b, t.ring b = (s.consume b k).ring b

theorem TakesFront.nothing (h : s.ringInv b) (hring : t.ring b = s.ring b) : TakesFront s b t :=
  ⟨0, Nat.zero_le _, by rw [hring, State.consume_zero h]⟩

theorem TakesFront.respond (h : TakesFront s b t) (c : Code) (p : List Byte) : TakesFront s b (t.respond c p) := by
  obtain ⟨k, hk, hring⟩ := h
  exact ⟨k, hk, (State.ring_respond t c p b).trans hring⟩

theorem takesFront_getByte (h : s.ringInv b) : TakesFront s b (getByte b s).1 := by
  rcases getByte_cases b s with ⟨-, e⟩ | ⟨-, -, e⟩ | ⟨-, he, e⟩ <;> rw [e]
  · exact .nothing h rfl
  · exact .nothing h rfl
  · have hpos : s.count b ≠ 0 := fun h0 => by simp [(State.ringEmpty_iff h).mpr h0] at he
    exact ⟨1, Nat.pos_of_ne_zero hpos, rfl⟩

theorem takesFront_rbGet (h : s.ringInv b) : Ends (TakesFront s b) (execRbGet b s) := by
  have hget := takesFront_getByte h
  unfold execRbGet
  rcases e : getByte b s with ⟨t, x⟩
  rw [e] at hget
  cases x <;> exact hget.respond _ _

/-- RB_CLEAR consumes all occupied bytes (R86). -/
theorem takesFront_rbClear (h : s.ringInv b) : Ends (TakesFront s b) (execRbClear b s) := by
  have hall : s.consume b (s.count b) = s.setHead b (s.ring b).tail := by
    rw [State.consume, ← State.slot_count h, State.slot]
  unfold execRbClear
  split
  · exact .nothing h (State.ring_respond s _ _ b)
  · exact TakesFront.respond ⟨_, Nat.le_refl _, by rw [hall]⟩ _ _

theorem takesFront_locate (cap : Nat) (h : s.ringInv b) : TakesFront s b (locate b cap s).1 := by
  rcases locate_cases b cap h with ⟨-, e⟩ | ⟨-, k, hk, e, -⟩ <;> rw [e]
  · exact .nothing h rfl
  · exact ⟨k, hk, rfl⟩

theorem takesFront_pkLocate (cap : Half) (h : s.ringInv b) : Ends (TakesFront s b) (execPkLocate b cap s) := by
  have hloc := takesFront_locate cap.toNat h
  unfold execPkLocate
  rcases e : locate b cap.toNat s with ⟨t, x⟩
  rw [e] at hloc
  cases x <;> exact hloc.respond _ _

theorem takesFront_pollCycle (h : s.ringInv .inbound) : TakesFront s .inbound (pollCycle s) := by
  by_cases hbad : (s.ring .inbound).ready = false ∨ (s.ring .outbound).ready = false
  · rw [pollCycle_badarg hbad]
    exact .nothing h rfl
  · obtain ⟨hi, ho⟩ := not_or.mp hbad
    obtain ⟨k, hk, c, -, p, e⟩ := pollCycle_sends h (Bool.eq_true_of_not_eq_false hi) (Bool.eq_true_of_not_eq_false ho)
    obtain ⟨-, -, -, -, hother, -⟩ := sendBytes_frame .outbound s.pollReply (s.consume .inbound k)
    rw [e]
    exact TakesFront.respond ⟨k, hk, hother .inbound (by decide)⟩ _ _

/-- A consumer takes occupied bytes from the front of its ring (R88). -/
theorem takesFront_of_consumes {i : Instr} (h : s.ringInv b) (hc : consumes i b = true) :
    Ends (TakesFront s b) (exec i s) := by
  cases i with
  | rbGet b' =>
    obtain rfl : b' = b := by simpa [consumes] using hc
    exact takesFront_rbGet h
  | rbPeek b' off =>
    obtain ⟨o, e⟩ := onlyAnswers_rbPeek (s := s) b' off
    show Ends _ (execRbPeek b' off s)
    rw [e]
    exact .nothing h (State.ring_emit s o b)
  | rbClear b' =>
    obtain rfl : b' = b := by simpa [consumes] using hc
    exact takesFront_rbClear h
  | pkLocate b' cap =>
    obtain rfl : b' = b := by simpa [consumes] using hc
    exact takesFront_pkLocate cap h
  | poll =>
    obtain rfl : b = .inbound := by simpa [consumes] using hc
    exact takesFront_pollCycle h
  | txGet =>
    obtain rfl : b = .outbound := by simpa [consumes] using hc
    obtain ⟨k, hk, hring⟩ := takesFront_getByte h
    exact ⟨k, hk, hring⟩
  | _ => exact absurd hc (by simp [consumes])

/-! ## First in, first out -/

/-- From `s` to `t` ring `b` lost its first `k` bytes and gained `added` behind the others. -/
structure MovesFifo (s : State) (b : RingSel) (k : Nat) (added : List Byte) (t : State) : Prop where
  le : k ≤ s.count b
  head : (t.ring b).head = ((s.ring b).head + k) % s.size b
  contents : t.contents b = (s.contents b).drop k ++ added

namespace MovesFifo

theorem of_consume (h : s.ringInv b) {k : Nat} (hk : k ≤ s.count b) (hring : t.ring b = (s.consume b k).ring b)
    (hcfg : t.cfg = s.cfg) (hres : t.resets = s.resets) : MovesFifo s b k [] t where
  le := hk
  head := by rw [hring, State.head_consume]
  contents := by
    rw [State.contents_congr hring (by simp [hcfg]) (by simp [hres]), State.contents_consume h hk, List.append_nil]

theorem of_same_ring (h : s.ringInv b) (hring : t.ring b = s.ring b) (hcfg : t.cfg = s.cfg) (hres : t.resets = s.resets) :
    MovesFifo s b 0 [] t :=
  of_consume h (Nat.zero_le _) (by rw [hring, State.consume_zero h]) hcfg hres

theorem of_head_kept {added : List Byte} (h : s.ringInv b) (hhead : (t.ring b).head = (s.ring b).head)
    (hcontents : t.contents b = s.contents b ++ added) : MovesFifo s b 0 added t where
  le := Nat.zero_le _
  head := hhead.trans (Nat.mod_eq_of_lt h.1.1).symm
  contents := hcontents

/-- In a sound ring the tail stands behind the contents, so it moves by the bytes added. -/
theorem tail {k : Nat} {added : List Byte} (h : MovesFifo s b k added t) (hs : s.ringInv b) (ht : t.ringInv b)
    (hcfg : t.cfg = s.cfg) : (t.ring b).tail = ((s.ring b).tail + added.length) % s.size b := by
  have hcount : t.count b = s.count b - k + added.length := by
    rw [← State.length_contents, h.contents, List.length_append, List.length_drop, State.length_contents]
  have hsum : (s.ring b).head + k + (s.count b - k + added.length) = (s.ring b).head + s.count b + added.length := by
    have := h.le
    omega
  calc (t.ring b).tail
      = ((t.ring b).head + t.count b) % s.size b := by rw [← State.slot_count ht, State.slot, State.size, hcfg]; rfl
    _ = ((s.ring b).head + s.count b + added.length) % s.size b := by rw [h.head, hcount, Nat.mod_add_mod, hsum]
    _ = ((s.ring b).tail + added.length) % s.size b := by rw [← State.slot_count hs, State.slot, Nat.mod_add_mod]

end MovesFifo

/-- The bytes an operation adds to ring `b`: those it offers that fit, none to a ring that is not ready (R87). -/
def addedBytes (i : Instr) (b : RingSel) (s : State) : List Byte :=
  if (s.ring b).ready = true then (offered i b s).take (s.free b) else []

/-- Every operation but RB_INIT moves a ring's contents first in, first out, by its role. -/
theorem exec_movesFifo {i : Instr} (hinv : s.Inv) (hi : i ≠ .rbInit b) (hexec : exec i s = .next t) :
    ∃ k, (consumes i b = false → k = 0) ∧ MovesFifo s b k (addedBytes i b s) t := by
  have heff := exec_effects hexec
  have hb := hinv.ring b
  cases hr : (s.ring b).ready with
  | false =>
    rw [addedBytes, if_neg (by simp [hr])]
    exact ⟨0, fun _ => rfl, .of_same_ring hb (heff.ring_of_not_ready hr hi) heff.cfg heff.resets⟩
  | true =>
    rw [addedBytes, if_pos hr]
    cases hp : produces i b with
    | true =>
      have hc : consumes i b = false := Bool.eq_false_of_not_eq_true (not_consumes_of_produces hp)
      exact ⟨0, fun _ => rfl, .of_head_kept hb (heff.head_of_not_consumes hi hc)
        ((contents_of_produces hinv hr hp).of_next hexec)⟩
    | false =>
      rw [offered_eq_nil hp, List.take_nil]
      cases hc : consumes i b with
      | true =>
        obtain ⟨k, hk, hring⟩ := (takesFront_of_consumes hb hc).of_next hexec
        exact ⟨k, Bool.noConfusion, .of_consume hb hk hring heff.cfg heff.resets⟩
      | false => exact ⟨0, fun _ => rfl, .of_same_ring hb (heff.ring_of_no_role hi hp hc) heff.cfg heff.resets⟩

/-- Settles O22: a producer sends what it offers, a consumer takes from the front, and no operation does both. -/
theorem contentsMoveFirstInFirstOut : Obligations.ContentsMoveFirstInFirstOut := by
  intro i s t b hinv hi hexec
  obtain ⟨k, hk, hmove⟩ := exec_movesFifo hinv hi hexec
  have htail := hmove.tail (hinv.ring b) ((inv_of_exec hinv hexec).ring b) (exec_effects hexec).cfg
  exact ⟨k, hmove.le, hk, hmove.head, htail, hmove.contents⟩

end Sys2Proof.Machine
end

section
/-! PROOF. The answers that stand for no effect (20_memory R37, 60_exceptions R180): settles O59. -/

namespace Sys2Proof.Machine

variable {s t u : State} {b : RingSel}

/-- If what `t` answers beyond `s` is one refusal, then `t` has the rings of `s`. -/
def RefusesWithoutEffect (s t : State) : Prop :=
  ∀ c payload, t.outputs = s.outputs ++ [.response ⟨c, payload⟩] → c ∈ refusals → ∀ b, t.ring b = s.ring b

namespace RefusesWithoutEffect

theorem of_same_rings (h : ∀ b, t.ring b = s.ring b) : RefusesWithoutEffect s t := fun _ _ _ _ => h

/-- A refusal as the first answer, with nothing done before it. -/
theorem respond (c : Code) (p : List Byte) : RefusesWithoutEffect s (s.respond c p) :=
  of_same_rings (State.ring_respond s c p)

/-- An answer that is no refusal, whatever was done before it. -/
theorem respond_other (hout : u.outputs = s.outputs) {c : Code} (hc : c ∉ refusals) (p : List Byte) :
    RefusesWithoutEffect s (u.respond c p) := by
  intro c' payload houtputs hc'
  rw [State.outputs_respond, hout] at houtputs
  simp only [List.append_cancel_left_eq, List.cons.injEq, Output.response.injEq, Response.mk.injEq, and_true] at houtputs
  exact absurd (houtputs.1 ▸ hc') hc

/-- Answers at the RX and TX ports and levels of status outputs are no refusals. -/
theorem of_other_outputs {l : List Output} (hout : t.outputs = s.outputs ++ l) (hl : ∀ r, .response r ∉ l) :
    RefusesWithoutEffect s t := by
  intro c payload houtputs
  rw [hout, List.append_cancel_left_eq] at houtputs
  exact absurd (houtputs ▸ List.mem_singleton_self _) (hl _)

end RefusesWithoutEffect

theorem OnlyAnswers.refusesWithoutEffect {out : Host.Outcome State Fault Refusal} (h : OnlyAnswers s out) :
    Ends (RefusesWithoutEffect s) out := by
  obtain ⟨o, rfl⟩ := h
  exact .of_same_rings (State.ring_emit s o)

theorem outputs_rxTransfer (v : Byte) (s : State) : ∃ a, (rxTransfer v s).outputs = s.outputs ++ [.rx a] := by
  rcases rxTransfer_cases v s with e | ⟨-, -, e⟩ <;> rw [e]
  · exact ⟨false, rfl⟩
  · exact ⟨true, rfl⟩

/-- RX transfers answer at the RX port only (43 R150). -/
theorem outputs_rxTransfers (vs : List Byte) (s : State) :
    ∃ l : List Bool, (rxTransfers vs s).outputs = s.outputs ++ l.map .rx := by
  induction vs generalizing s with
  | nil => exact ⟨[], (List.append_nil _).symm⟩
  | cons v vs ih =>
    obtain ⟨a, ha⟩ := outputs_rxTransfer v s
    obtain ⟨l, hl⟩ := ih (rxTransfer v s)
    exact ⟨a :: l, by rw [rxTransfers_cons, hl, ha]; simp⟩

theorem refusesWithoutEffect_rxTransfers (vs : List Byte) : RefusesWithoutEffect s (rxTransfers vs s) := by
  obtain ⟨l, hl⟩ := outputs_rxTransfers vs s
  exact .of_other_outputs hl (by simp)

theorem refusesWithoutEffect_txTransfer : RefusesWithoutEffect s (txTransfer s) := by
  rcases txTransfer_cases s with ⟨-, e⟩ | ⟨-, -, e⟩ <;> rw [e]
  · exact .of_same_rings (State.ring_emit s _)
  · exact .of_other_outputs (l := [.tx _]) (by simp; rfl) (by simp)

theorem refusesWithoutEffect_sendBytes (vs : List Byte) (hout : u.outputs = s.outputs) {c : Code} (hc : c ∉ refusals)
    (p : List Byte) : RefusesWithoutEffect s ((sendBytes b vs u).1.respond c p) := by
  obtain ⟨-, -, -, houtputs, -⟩ := sendBytes_frame b vs u
  exact .respond_other (houtputs.trans hout) hc p

theorem refusesWithoutEffect_rbPut (b : RingSel) (v : Byte) : Ends (RefusesWithoutEffect s) (execRbPut b v s) := by
  unfold execRbPut
  rcases putByte_cases b v s with ⟨-, e⟩ | ⟨-, -, e⟩ | ⟨-, -, e⟩ <;> rw [e]
  · exact .respond _ _
  · exact .respond _ _
  · exact .respond_other (c := .ok) (by simp) (by decide) _

theorem refusesWithoutEffect_rbGet (b : RingSel) : Ends (RefusesWithoutEffect s) (execRbGet b s) := by
  unfold execRbGet
  rcases getByte_cases b s with ⟨-, e⟩ | ⟨-, -, e⟩ | ⟨-, -, e⟩ <;> rw [e]
  · exact .respond _ _
  · exact .respond _ _
  · exact .respond_other (State.outputs_consume s b 1) (by decide) _

theorem refusesWithoutEffect_rbClear (b : RingSel) : Ends (RefusesWithoutEffect s) (execRbClear b s) := by
  unfold execRbClear
  split
  · exact .respond _ _
  · exact .respond_other (State.outputs_setHead s b _) (by decide) _

theorem refusesWithoutEffect_hsSend (r : Byte) : Ends (RefusesWithoutEffect s) (execHsSend r s) := by
  by_cases href : (s.ring .outbound).ready = false ∨ replyOfId r = none
  · rw [execHsSend_refused href]
    exact .respond _ _
  · obtain ⟨hr, hu⟩ := not_or.mp href
    obtain ⟨u, hu⟩ := Option.ne_none_iff_exists'.mp hu
    obtain ⟨c, hc, p, e⟩ := execHsSend_sends (Bool.eq_true_of_not_eq_false hr) hu
    rw [e]
    exact refusesWithoutEffect_sendBytes _ rfl hc p

theorem refusesWithoutEffect_inject (data : List Byte) : Ends (RefusesWithoutEffect s) (execInject data s) := by
  by_cases href : (s.ring .outbound).ready = false ∨ data = [] ∨ s.count .outbound ≠ 0
  · obtain ⟨c, e⟩ := execInject_refused href
    rw [e]
    exact .respond _ _
  · simp only [not_or, not_not] at href
    obtain ⟨hr, hdata, hcount⟩ := href
    obtain ⟨c, hc, p, e⟩ := execInject_sends (Bool.eq_true_of_not_eq_false hr) hdata hcount
    rw [e]
    exact refusesWithoutEffect_sendBytes _ rfl hc p

theorem refusesWithoutEffect_pollCycle (h : s.ringInv .inbound) : RefusesWithoutEffect s (pollCycle s) := by
  by_cases hbad : (s.ring .inbound).ready = false ∨ (s.ring .outbound).ready = false
  · rw [pollCycle_badarg hbad]
    exact .respond _ _
  · obtain ⟨hi, ho⟩ := not_or.mp hbad
    obtain ⟨k, -, c, hc, p, e⟩ := pollCycle_sends h (Bool.eq_true_of_not_eq_false hi) (Bool.eq_true_of_not_eq_false ho)
    rw [e]
    exact refusesWithoutEffect_sendBytes _ (State.outputs_consume s _ k) hc p

/-! ## PK_LOCATE (42 R112 to R119) -/

/-- The result code of a PK_LOCATE result (R112). -/
def Located.code : Located → Code
  | .badarg => .badarg
  | .incomplete => .incomplete
  | .malformed => .malformed
  | .overflow _ => .overflow
  | .ok _ => .ok

theorem execPkLocate_eq (b : RingSel) (cap : Half) (s : State) :
    ∃ p, execPkLocate b cap s = .next ((locate b cap.toNat s).1.respond (locate b cap.toNat s).2.code p) := by
  unfold execPkLocate
  rcases locate b cap.toNat s with ⟨t, x⟩
  cases x <;> exact ⟨_, rfl⟩

theorem outputs_locate (cap : Nat) (h : s.ringInv b) : (locate b cap s).1.outputs = s.outputs := by
  rcases locate_cases b cap h with ⟨-, e⟩ | ⟨-, k, -, e, -⟩ <;> rw [e]
  exact State.outputs_consume s b k

/-- PK_LOCATE with its arguments accepted answers no refusal. -/
theorem code_extractBytes (cap : Nat) (p : List Byte) : (extractBytes cap p).2.code ∉ refusals := by
  have := extractBytes_ne_badarg cap p
  cases hx : (extractBytes cap p).2 with
  | badarg => exact absurd hx this
  | incomplete | malformed | overflow | ok => simp [Located.code]

theorem refusesWithoutEffect_pkLocate (cap : Half) (h : s.ringInv b) :
    Ends (RefusesWithoutEffect s) (execPkLocate b cap s) := by
  obtain ⟨p, e⟩ := execPkLocate_eq b cap s
  rw [e]
  by_cases hbad : (s.ring b).ready = false ∨ cap.toNat = 0
  · rw [locate_badarg hbad]
    exact .respond _ _
  · obtain ⟨hr, hcap⟩ := not_or.mp hbad
    refine RefusesWithoutEffect.respond_other (outputs_locate _ h) ?_ p
    rw [locate_eq _ h (Bool.eq_true_of_not_eq_false hr) hcap]
    exact code_extractBytes _ _

/-- While a candidate is incomplete or malformed, the extractor consumes nothing (R114 to R117). -/
theorem extractBytes_consumes_nothing {cap : Nat} {p : List Byte}
    (h : (extractBytes cap p).2.code = .incomplete ∨ (extractBytes cap p).2.code = .malformed) : (extractBytes cap p).1 = 0 := by
  revert h
  unfold extractBytes
  repeat' split
  all_goals simp [Located.code]

/-- PK_LOCATE that answers INCOMPLETE or MALFORMED has trimmed the noise and done nothing else (R113, R119). -/
theorem contents_locate_of_waiting {cap : Nat} (h : s.ringInv b)
    (hcode : (locate b cap s).2.code = .incomplete ∨ (locate b cap s).2.code = .malformed) :
    (locate b cap s).1.contents b = fromSoh (s.contents b) := by
  by_cases hbad : (s.ring b).ready = false ∨ cap = 0
  · simp [locate_badarg hbad, Located.code] at hcode
  · obtain ⟨hr, hcap⟩ := not_or.mp hbad
    rw [locate_eq cap h (Bool.eq_true_of_not_eq_false hr) hcap] at hcode ⊢
    have hcount : locateCount cap (s.contents b) = (noise (s.contents b)).length := by
      rw [locateCount, extractBytes_consumes_nothing hcode, Nat.add_zero]
    rw [hcount, ← trim_eq h, contents_trim h]

/-- Every operation that answers a refusal has left both rings as they were. -/
theorem refusesWithoutEffect_exec (i : Instr) (hinv : s.Inv) : Ends (RefusesWithoutEffect s) (exec i s) := by
  cases i with
  | rbInit b => exact .respond_other (State.outputs_setRing s b _) (by decide) _
  | rbPut b v => exact refusesWithoutEffect_rbPut b v
  | rbGet b => exact refusesWithoutEffect_rbGet b
  | rbClear b => exact refusesWithoutEffect_rbClear b
  | pkLocate b cap => exact refusesWithoutEffect_pkLocate cap (hinv.ring b)
  | hsSend r => exact refusesWithoutEffect_hsSend r
  | poll => exact refusesWithoutEffect_pollCycle (hinv.ring _)
  | inject data => exact refusesWithoutEffect_inject data
  | rxPut v => exact refusesWithoutEffect_rxTransfers [v]
  | soh | stx | etx => exact refusesWithoutEffect_rxTransfers [_]
  | frame len msg crc => exact refusesWithoutEffect_rxTransfers _
  | txGet => exact refusesWithoutEffect_txTransfer
  | _ =>
    exact (onlyAnswers_exec (by simp [produces]) (by simp [initialises]) (by simp) (by simp)).refusesWithoutEffect

/-- Settles O59: a refusal comes before any effect, the pure codec operations have no role on a ring, and PK_LOCATE consumes a
candidate only when it answers OVERFLOW or OK. -/
theorem fullEmptyBusyBadargChangeNoRing : Obligations.FullEmptyBusyBadargChangeNoRing := by
  refine ⟨?_, ?_, ?_⟩
  · intro i s t c payload hinv hexec houtputs hc
    exact (refusesWithoutEffect_exec i hinv).of_next hexec c payload houtputs hc
  · intro cap p s t i hi hexec b
    simp only [List.mem_cons, List.not_mem_nil, or_false] at hi
    rcases hi with rfl | rfl | rfl <;> exact (exec_effects hexec).ring_of_no_role (by simp) rfl rfl
  · intro b cap s t c hinv hexec houtputs hc
    obtain ⟨p, e⟩ := execPkLocate_eq b cap s
    obtain rfl := Host.Outcome.next.inj (e.symm.trans hexec)
    have hcode : (locate b cap.toNat s).2.code = c := by
      rw [State.outputs_respond, outputs_locate _ hinv] at houtputs
      simp only [List.append_cancel_left_eq, List.cons.injEq, Output.response.injEq, Response.mk.injEq] at houtputs
      exact houtputs.1.1
    rw [State.contents_respond]
    exact contents_locate_of_waiting hinv (hcode ▸ hc)

end Sys2Proof.Machine
end

section
/-! PROOF. The command port's decoder and encoder (30_encoding R61 to R64): settles O3, O4 and O5. -/

namespace Sys2Proof

/-! ## Operand layouts (R61): what each accepts -/

theorem operandC0_eq_ok_iff {i j : Instr} {rest : List Byte} : operandC0 i rest = .ok j ↔ rest = [] ∧ i = j := by
  cases rest <;> simp [operandC0]

theorem operandC1_eq_ok_iff {f : Byte → Instr} {j : Instr} {rest : List Byte} :
    operandC1 f rest = .ok j ↔ ∃ v, rest = [v] ∧ f v = j := by
  match rest with
  | [] => simp [operandC1]
  | [v] => simp [operandC1]
  | _ :: _ :: _ => simp [operandC1]

theorem operandC2_eq_ok_iff {f : Half → Instr} {j : Instr} {rest : List Byte} :
    operandC2 f rest = .ok j ↔ ∃ v, rest = be16Bytes v ∧ f v = j := by
  constructor
  · intro h
    match rest with
    | [] | [_] | _ :: _ :: _ :: _ => cases h
    | [hi, lo] => exact ⟨be16 hi lo, by simp [be16Bytes], Except.ok.inj h⟩
  · rintro ⟨v, rfl, rfl⟩
    simp [be16Bytes, operandC2]

/-- A data string is accepted when the length operand counts it (R62). -/
theorem exactly_eq_ok_iff {n : Half} {i j : Instr} {data : List Byte} :
    exactly n i data = .ok j ↔ fitsU16 data = true ∧ n = dataLength data ∧ i = j := by
  have hcount : data.length = n.toNat ↔ fitsU16 data = true ∧ n = dataLength data := by
    constructor
    · intro h
      exact ⟨by have := n.isLt; simp [fitsU16]; omega, by simp [dataLength, h]⟩
    · rintro ⟨hfits, rfl⟩
      exact (toNat_dataLength hfits).symm
  rw [← and_assoc, ← hcount]
  unfold exactly
  split_ifs
  · simp; omega
  · simp; omega
  · simp; omega

theorem operandCD_eq_ok_iff {f : List Byte → Instr} {j : Instr} {rest : List Byte} :
    operandCD f rest = .ok j ↔ ∃ data, fitsU16 data = true ∧ rest = be16Bytes (dataLength data) ++ data ∧ f data = j := by
  constructor
  · intro h
    match rest with
    | [] | [_] => cases h
    | hi :: lo :: data =>
      obtain ⟨hfits, hn, hj⟩ := exactly_eq_ok_iff.mp h
      exact ⟨data, hfits, by simp [← hn, be16Bytes], hj⟩
  · rintro ⟨data, hfits, rfl, rfl⟩
    exact exactly_eq_ok_iff.mpr ⟨hfits, Machine.be16_hi_lo _, rfl⟩

theorem operandCCD_eq_ok_iff {f : Half → List Byte → Instr} {j : Instr} {rest : List Byte} :
    operandCCD f rest = .ok j ↔ ∃ cap data, fitsU16 data = true ∧
      rest = be16Bytes cap ++ be16Bytes (dataLength data) ++ data ∧ f cap data = j := by
  constructor
  · intro h
    match rest with
    | [] | [_] | [_, _] | [_, _, _] => cases h
    | chi :: clo :: hi :: lo :: data =>
      obtain ⟨hfits, hn, hj⟩ := exactly_eq_ok_iff.mp h
      exact ⟨be16 chi clo, data, hfits, by simp [← hn, be16Bytes], hj⟩
  · rintro ⟨cap, data, hfits, rfl, rfl⟩
    exact exactly_eq_ok_iff.mpr ⟨hfits, Machine.be16_hi_lo _, congrArg (f · data) (Machine.be16_hi_lo cap)⟩

/-! ## The rows of R61's table -/

/-- The command bytes that R61's table assigns, each with what reads its operands. -/
inductive CommandRow : Byte → (List Byte → Except Reject Instr) → Prop
  | rbInit (b : RingSel) : CommandRow (commandByte b 0x01) (operandC0 (.rbInit b))
  | rbPut (b : RingSel) : CommandRow (commandByte b 0x02) (operandC1 (.rbPut b))
  | rbGet (b : RingSel) : CommandRow (commandByte b 0x03) (operandC0 (.rbGet b))
  | rbPeek (b : RingSel) : CommandRow (commandByte b 0x04) (operandC2 (.rbPeek b))
  | rbCount (b : RingSel) : CommandRow (commandByte b 0x05) (operandC0 (.rbCount b))
  | rbFree (b : RingSel) : CommandRow (commandByte b 0x06) (operandC0 (.rbFree b))
  | rbClear (b : RingSel) : CommandRow (commandByte b 0x07) (operandC0 (.rbClear b))
  | crc16 : CommandRow 0x08 (operandCD .crc16)
  | pkBuild : CommandRow 0x09 (operandCCD .pkBuild)
  | pkLocate (b : RingSel) : CommandRow (commandByte b 0x0A) (operandC2 (.pkLocate b))
  | pkVerify : CommandRow 0x0B (operandCD .pkVerify)
  | pkExtractMsg : CommandRow 0x0C (operandCCD .pkExtractMsg)
  | hsOnMessage : CommandRow 0x0D (operandCD .hsOnMessage)
  | hsSend : CommandRow 0x0E (operandC1 .hsSend)
  | poll : CommandRow 0x0F (operandC0 .poll)
  | inject : CommandRow 0x10 (operandCD .inject)

/-- The decoder follows the table. -/
theorem CommandRow.decode_eq {c : Byte} {operands : List Byte → Except Reject Instr} (h : CommandRow c operands)
    (rest : List Byte) : decodeCommand (c :: rest) = operands rest := by
  cases h with
  | rbInit b | rbPut b | rbGet b | rbPeek b | rbCount b | rbFree b | rbClear b | pkLocate b => cases b <;> rfl
  | crc16 | pkBuild | pkVerify | pkExtractMsg | hsOnMessage | hsSend | poll | inject => rfl

theorem CommandRow.decode_u16 {c : Byte} {f : Half → Instr} (h : CommandRow c (operandC2 f)) (v : Half) :
    decodeCommand (c :: be16Bytes v) = .ok (f v) :=
  (h.decode_eq _).trans (operandC2_eq_ok_iff.mpr ⟨v, rfl, rfl⟩)

theorem CommandRow.decode_data {c : Byte} {f : List Byte → Instr} (h : CommandRow c (operandCD f))
    {data : List Byte} (hfits : fitsU16 data = true) :
    decodeCommand (c :: be16Bytes (dataLength data) ++ data) = .ok (f data) :=
  (h.decode_eq _).trans (operandCD_eq_ok_iff.mpr ⟨data, hfits, rfl, rfl⟩)

theorem CommandRow.decode_capData {c : Byte} {f : Half → List Byte → Instr} (h : CommandRow c (operandCCD f))
    (cap : Half) {data : List Byte} (hfits : fitsU16 data = true) :
    decodeCommand (c :: be16Bytes cap ++ be16Bytes (dataLength data) ++ data) = .ok (f cap data) :=
  (h.decode_eq _).trans (operandCCD_eq_ok_iff.mpr ⟨cap, data, hfits, rfl, rfl⟩)

/-- A command byte that is not reserved is `{bsel, 00, op}` for an operation that uses `bsel`, or one of the other eight. -/
theorem mem_commandBytes_of_not_reserved (c : Byte) (h : reservedByte c = false) :
    (∃ op ∈ [(0x01 : Byte), 0x02, 0x03, 0x04, 0x05, 0x06, 0x07, 0x0A], c = commandByte (ringOfCommand c) op) ∨
      c ∈ [(0x08 : Byte), 0x09, 0x0B, 0x0C, 0x0D, 0x0E, 0x0F, 0x10] := by
  revert c
  decide

/-- The table is complete: every command byte that R64 does not reserve has a row. -/
theorem exists_commandRow {c : Byte} (h : reservedByte c = false) : ∃ operands, CommandRow c operands := by
  rcases mem_commandBytes_of_not_reserved c h with ⟨op, hop, hc⟩ | hc
  · rw [hc]
    fin_cases hop
    · exact ⟨_, .rbInit _⟩
    · exact ⟨_, .rbPut _⟩
    · exact ⟨_, .rbGet _⟩
    · exact ⟨_, .rbPeek _⟩
    · exact ⟨_, .rbCount _⟩
    · exact ⟨_, .rbFree _⟩
    · exact ⟨_, .rbClear _⟩
    · exact ⟨_, .pkLocate _⟩
  · fin_cases hc
    · exact ⟨_, .crc16⟩
    · exact ⟨_, .pkBuild⟩
    · exact ⟨_, .pkVerify⟩
    · exact ⟨_, .pkExtractMsg⟩
    · exact ⟨_, .hsOnMessage⟩
    · exact ⟨_, .hsSend⟩
    · exact ⟨_, .poll⟩
    · exact ⟨_, .inject⟩

theorem decodeCommand_of_reserved {c : Byte} (h : reservedByte c = true) (rest : List Byte) :
    decodeCommand (c :: rest) = .ok (.reservedCommand c rest) := by
  rw [decodeCommand, if_pos h]

/-! ## What the decoder accepts -/

/-- `i` is an operation of the command port whose encoding is `bytes`. -/
def EncodesAs (nul : Bool) (i : Instr) (bytes : List Byte) : Prop :=
  encode nul i = bytes ∧ i.wellFormed nul = true ∧ i.space = .command ∧ i.expand = i

/-- What a row of the table reads encodes as the bytes it was read from. -/
theorem CommandRow.encodesAs {c : Byte} {operands : List Byte → Except Reject Instr} (hrow : CommandRow c operands)
    {rest : List Byte} {i : Instr} (h : operands rest = .ok i) (nul : Bool) : EncodesAs nul i (c :: rest) := by
  cases hrow with
  | rbInit | rbGet | rbCount | rbFree | rbClear | poll =>
    obtain ⟨rfl, rfl⟩ := operandC0_eq_ok_iff.mp h
    exact ⟨rfl, rfl, rfl, rfl⟩
  | rbPut | hsSend =>
    obtain ⟨v, rfl, rfl⟩ := operandC1_eq_ok_iff.mp h
    exact ⟨rfl, rfl, rfl, rfl⟩
  | rbPeek | pkLocate =>
    obtain ⟨v, rfl, rfl⟩ := operandC2_eq_ok_iff.mp h
    exact ⟨rfl, rfl, rfl, rfl⟩
  | crc16 | pkVerify | hsOnMessage | inject =>
    obtain ⟨data, hfits, rfl, rfl⟩ := operandCD_eq_ok_iff.mp h
    exact ⟨rfl, hfits, rfl, rfl⟩
  | pkBuild | pkExtractMsg =>
    obtain ⟨cap, data, hfits, rfl, rfl⟩ := operandCCD_eq_ok_iff.mp h
    exact ⟨rfl, hfits, rfl, rfl⟩

/-- Settles O3: a reserved command is read with the bytes it came with, and every other command byte has a row. -/
theorem encodeOfDecode : Obligations.EncodeOfDecode := by
  intro bytes i nul h
  match bytes with
  | [] => cases h
  | c :: rest =>
    cases hres : reservedByte c with
    | true =>
      rw [decodeCommand_of_reserved hres] at h
      cases h
      exact ⟨rfl, hres, rfl, rfl⟩
    | false =>
      obtain ⟨operands, hrow⟩ := exists_commandRow hres
      exact hrow.encodesAs (hrow.decode_eq rest ▸ h) nul

/-! ## Malformed commands (R62) -/

/-- The bytes of every well-formed operation are as many as its encoding declares. -/
theorem encodedLength (i : Instr) : Laws.EncodedLength.Statement i := by
  cases i with
  | rbInit b => exact Laws.EncodedLength.rbInit b
  | rbPut b v => exact Laws.EncodedLength.rbPut b v
  | rbGet b => exact Laws.EncodedLength.rbGet b
  | rbPeek b off => exact Laws.EncodedLength.rbPeek b off
  | rbCount b => exact Laws.EncodedLength.rbCount b
  | rbFree b => exact Laws.EncodedLength.rbFree b
  | rbClear b => exact Laws.EncodedLength.rbClear b
  | crc16 data => exact Laws.EncodedLength.crc16 data
  | pkBuild cap msg => exact Laws.EncodedLength.pkBuild cap msg
  | pkLocate b cap => exact Laws.EncodedLength.pkLocate b cap
  | pkVerify pkt => exact Laws.EncodedLength.pkVerify pkt
  | pkExtractMsg cap pkt => exact Laws.EncodedLength.pkExtractMsg cap pkt
  | hsOnMessage msg => exact Laws.EncodedLength.hsOnMessage msg
  | hsSend r => exact Laws.EncodedLength.hsSend r
  | poll => exact Laws.EncodedLength.poll
  | inject data => exact Laws.EncodedLength.inject data
  | reservedCommand c rest => exact Laws.EncodedLength.reservedCommand c rest
  | rxPut v => exact Laws.EncodedLength.rxPut v
  | txGet => exact Laws.EncodedLength.txGet
  | isEmpty b => exact Laws.EncodedLength.isEmpty b
  | isFull b => exact Laws.EncodedLength.isFull b
  | frame len msg crc => exact Laws.EncodedLength.frame len msg crc
  | soh => exact Laws.EncodedLength.soh
  | stx => exact Laws.EncodedLength.stx
  | etx => exact Laws.EncodedLength.etx
  | tokenMarco => exact Laws.EncodedLength.tokenMarco
  | tokenPolo => exact Laws.EncodedLength.tokenPolo
  | tokenOk => exact Laws.EncodedLength.tokenOk
  | tokenError => exact Laws.EncodedLength.tokenError
  | tokenUnknown msg => exact Laws.EncodedLength.tokenUnknown msg

/-- A command the decoder accepts is as long as its format requires. -/
theorem commandLength_of_decode {bytes : List Byte} {i : Instr} (h : decodeCommand bytes = .ok i) :
    commandLength bytes = bytes.length := by
  obtain ⟨rfl, hwf, hspace, -⟩ := encodeOfDecode bytes i false h
  have hlen := encodedLength i false hwf
  rwa [hspace] at hlen

/-- Settles O5: whatever the decoder accepts has the length of its format, so a command of another length is malformed. -/
theorem malformedCommandsAnswerBadarg : Obligations.MalformedCommandsAnswerBadarg := by
  refine ⟨Machine.be16_toNat, fun s who c operands rest hinputs _ hlen => ?_⟩
  cases hdecode : decodeCommand (c :: operands) with
  | ok i => exact absurd (commandLength_of_decode hdecode).symm hlen
  | error e => rw [Machine.step_malformed hinputs hdecode, Machine.State.takeInput_eq hinputs, Machine.rejectCommand]

/-! ## Reserved commands (R64) -/

theorem reservedByte_iff (c : Byte) : reservedByte c = true ↔
    c.toNat % 32 = 0 ∨ 0x11 ≤ c.toNat % 32 ∨ c.getLsbD 6 = true ∨ c.getLsbD 5 = true ∨
      (c.getLsbD 7 = true ∧ c.toNat % 32 ∉ [0x01, 0x02, 0x03, 0x04, 0x05, 0x06, 0x07, 0x0A]) := by
  simp only [reservedByte, usesRing, Bool.or_eq_true, Bool.and_eq_true, beq_iff_eq, decide_eq_true_eq, Bool.not_eq_true',
    decide_eq_false_iff_not, or_assoc]
  rfl

/-- Every reply id but 2, 3 and 4 is reserved (R59). -/
theorem replyOfId_eq_none {r : Byte} (h2 : r ≠ 2) (h3 : r ≠ 3) (h4 : r ≠ 4) : Machine.replyOfId r = none := by
  rw [Machine.replyOfId, if_neg h2, if_neg h3, if_neg h4]

/-- Settles O4: the command port reads a reserved command as one, and HS_SEND refuses a reserved reply id. -/
theorem reservedCommandsAnswerBadarg : Obligations.ReservedCommandsAnswerBadarg := by
  constructor
  · intro c rest s h
    exact ⟨decodeCommand_of_reserved ((reservedByte_iff c).mpr h) rest, rfl⟩
  · intro r s h2 h3 h4
    exact ⟨CommandRow.hsSend.decode_eq [r], Machine.execHsSend_refused (.inr (replyOfId_eq_none h2 h3 h4))⟩

end Sys2Proof
end

section
/-! PROOF. The wire frame (30_encoding R50 to R53, 42 R120): settles O30. -/

namespace Sys2Proof.Machine

/-! ## Seven bytes or more, cut where a frame has its fields (R50) -/

/-- Four bytes, a payload and three bytes: the cut of R50, whatever the bytes are. -/
abbrev cut (a b c d : Byte) (msg : List Byte) (x y z : Byte) : List Byte := [a, b, c, d] ++ msg ++ [x, y, z]

theorem exists_cut {p : List Byte} (h : 7 ≤ p.length) : ∃ a b c d msg x y z, p = cut a b c d msg x y z := by
  match p with
  | a :: b :: c :: d :: rest =>
    have hrest : 3 ≤ rest.length := by simpa using h
    obtain ⟨x, y, z, htail⟩ := List.length_eq_three.mp (show (rest.drop (rest.length - 3)).length = 3 by simp; omega)
    exact ⟨a, b, c, d, rest.take (rest.length - 3), x, y, z, by simp [← htail]⟩
  | [] | [_] | [_, _] | [_, _, _] => simp at h

/-- PK_VERIFY accepts what passes all six checks (R120). -/
theorem verify_eq_none_iff (p : List Byte) : verify p = none ↔
    7 ≤ p.length ∧ byteOf p 0 = sohByte ∧ byteOf p 3 = stxByte ∧ byteOf p (p.length - 3) = etxByte ∧
      (be16At p 1).toNat = p.length ∧ crc16 (span p 0 (p.length - 2)) = be16At p (p.length - 2) := by
  unfold verify
  split_ifs <;> simp_all

section cut

variable (a b c d x y z : Byte) (msg : List Byte)

theorem length_cut : (cut a b c d msg x y z).length = msg.length + 7 := by simp

/-- The three bytes behind the payload. -/
theorem getD_cut_tail : (cut a b c d msg x y z).getD (msg.length + 4) 0 = x ∧
    (cut a b c d msg x y z).getD (msg.length + 5) 0 = y ∧ (cut a b c d msg x y z).getD (msg.length + 6) 0 = z := by
  have htail : ∀ k, (cut a b c d msg x y z).getD (msg.length + 4 + k) 0 = [x, y, z].getD k 0 := fun k => by
    rw [List.getD_append_right _ _ _ _ (by simp)]
    simp
  exact ⟨htail 0, htail 1, htail 2⟩

/-- PK_VERIFY's checks, field by field (R120). -/
theorem verify_cut_eq_none_iff : verify (cut a b c d msg x y z) = none ↔
    a = sohByte ∧ d = stxByte ∧ x = etxByte ∧ (be16 b c).toNat = 7 + msg.length ∧
      crc16 ([a, b, c, d] ++ msg ++ [x]) = be16 y z := by
  obtain ⟨hx, hy, hz⟩ := getD_cut_tail a b c d x y z msg
  have hspan : span (cut a b c d msg x y z) 0 (msg.length + 5) = [a, b, c, d] ++ msg ++ [x] := by
    simp [span, List.take_append]
  rw [verify_eq_none_iff, length_cut, Nat.add_comm 7]
  simp only [Nat.add_sub_assoc, Nat.reduceLeDiff, Nat.reduceSub, be16At, byteOf, hx, hy, hz, hspan, Nat.add_assoc,
    Nat.reduceAdd]
  exact iff_of_eq (true_and _)

/-- With the markers in place and the length field counting the bytes, they are read as a frame (R50, R51). -/
theorem decodeFrame_cut (h : (be16 b c).toNat = 7 + msg.length) :
    decodeFrame (cut sohByte b c stxByte msg etxByte y z) = .ok (.frame (be16 b c) msg (be16 y z)) := by
  obtain ⟨hx, hy, hz⟩ := getD_cut_tail sohByte b c stxByte etxByte y z msg
  rw [decodeFrame, length_cut, if_pos ⟨Nat.le_add_left 7 _, rfl, rfl, hx, h.trans (Nat.add_comm 7 _)⟩]
  simp only [Nat.add_sub_assoc, Nat.reduceLeDiff, Nat.reduceSub, hy, hz]
  simp

end cut

/-! ## Frames whose fields agree -/

/-- A frame is cut into its fields (R50). -/
theorem frameBytes_eq_cut (len : Half) (msg : List Byte) (crc : Half) : frameBytes len msg crc =
    cut sohByte (hiByte len) (loByte len) stxByte msg etxByte (hiByte crc) (loByte crc) := frameBytes_eq len msg crc

theorem frameAgrees_iff {len : Half} {msg : List Byte} {crc : Half} : frameAgrees len msg crc = true ↔
    len.toNat = 7 + msg.length ∧ crc16 (frameHead len msg) = crc := by
  rw [frameAgrees, Bool.and_eq_true, beq_iff_eq, beq_iff_eq, eq_comm (a := crc)]

/-- PK_VERIFY on the layout of a frame compares the length and checksum fields (R51, R53). -/
theorem verify_frameBytes_eq_none_iff (len : Half) (msg : List Byte) (crc : Half) :
    verify (frameBytes len msg crc) = none ↔ frameAgrees len msg crc = true := by
  rw [frameBytes_eq_cut, verify_cut_eq_none_iff, be16_hi_lo, be16_hi_lo, frameAgrees_iff]
  simp [frameHead]

/-- Settles O30: the markers PK_VERIFY has checked make the bytes the layout of a frame. -/
theorem verifyAcceptsExactlyFrames : Obligations.VerifyAcceptsExactlyFrames := by
  intro pkt
  constructor
  · intro h
    obtain ⟨a, b, c, d, msg, x, y, z, rfl⟩ := exists_cut (length_of_verify h)
    obtain ⟨rfl, rfl, rfl, -⟩ := (verify_cut_eq_none_iff ..).mp h
    have hframe : cut sohByte b c stxByte msg etxByte y z = frameBytes (be16 b c) msg (be16 y z) := by
      simp [frameBytes_eq_cut]
    exact ⟨be16 b c, msg, be16 y z, (verify_frameBytes_eq_none_iff ..).mp (hframe ▸ h), hframe⟩
  · rintro ⟨len, msg, crc, hwf, rfl⟩
    exact (verify_frameBytes_eq_none_iff len msg crc).mpr hwf

end Sys2Proof.Machine
end

section
/-! PROOF. Tokens as payloads (30_encoding R57, R58, 43 R141): settles O39 and O41. -/

namespace Sys2Proof

/-- The recogniser finds every token of the table by its bytes (R57, R140). -/
theorem recognize_tokenBytes (nul : Bool) {t : Token} (h : t ∈ tokenTable) : recognize nul (tokenBytes nul t) = t := by
  revert t
  cases nul <;> decide

/-- A payload that is no token's is unknown (R140, R143). -/
theorem recognize_eq_unknown {nul : Bool} {msg : List Byte} (h : ∀ t ∈ tokenTable, msg ≠ tokenBytes nul t) :
    recognize nul msg = .unknown := by
  have hnone : (tokenTable.find? fun t => msg == tokenBytes nul t) = none :=
    List.find?_eq_none.mpr fun t ht => by simpa using h t ht
  rw [recognize, hnone, Option.getD_none]

/-- `TOKEN_NUL = 1` appends one `0x00` to a token's letters (R58). -/
theorem tokenBytes_true (t : Token) : tokenBytes true t = tokenBytes false t ++ [0x00] := by
  simp [tokenBytes]

/-- Settles O39: the letters and ids as R57 writes them, and the recogniser on the table's entries and beside them. -/
theorem tokenPayloadBytes : Obligations.TokenPayloadBytes :=
  ⟨rfl, rfl, rfl, rfl, rfl, rfl, rfl, rfl, rfl, fun t _ => tokenBytes_true t, fun nul _ => recognize_tokenBytes nul,
    fun _ _ => recognize_eq_unknown⟩

namespace Machine

variable {s : State}

/-- The handshake machine's answer to a token of the table (R141). -/
theorem onMessage_tokenBytes {t : Token} (h : t ∈ tokenTable) :
    onMessage (tokenBytes s.cfg.tokenNul t) s = s.respond .ok [tokenId t, replyId (replyTo t)] := by
  rw [onMessage, recognize_tokenBytes _ h]

/-- The handshake machine's answer to any other payload (R144). -/
theorem onMessage_unknown {msg : List Byte} (h : ∀ t ∈ tokenTable, msg ≠ tokenBytes s.cfg.tokenNul t) :
    onMessage msg s = s.respond .ok [0, 4] := by
  rw [onMessage, recognize_eq_unknown h]
  rfl

/-- No token is the empty payload (R57). -/
theorem tokenBytes_ne_nil (nul : Bool) {t : Token} (h : t ∈ tokenTable) : [] ≠ tokenBytes nul t := by
  have hpos := length_tokenBytes_pos nul (t := t) (by rintro rfl; simp [tokenTable] at h)
  intro hnil
  simp [← hnil] at hpos

/-- Settles O41: a token row presents its payload to the handshake machine (log 11). -/
theorem tokenRowsLookUpTheTable : Obligations.TokenRowsLookUpTheTable := by
  intro s
  have known : ∀ t ∈ tokenTable, exec (.hsOnMessage (tokenBytes s.cfg.tokenNul t)) s =
      .next (s.respond .ok [tokenId t, replyId (replyTo t)]) := fun t ht => congrArg _ (onMessage_tokenBytes ht)
  have other : ∀ msg, (∀ t ∈ tokenTable, msg ≠ tokenBytes s.cfg.tokenNul t) →
      exec (.tokenUnknown msg) s = .next (s.respond .ok [0, 4]) := fun msg h => congrArg _ (onMessage_unknown h)
  exact ⟨known .marco (by decide), known .polo (by decide), known .ok (by decide), known .error (by decide),
    other [] fun t => tokenBytes_ne_nil _, other⟩

end Machine

end Sys2Proof
end

section
/-! PROOF. Decoding what was encoded, in each of the four encoding spaces (30_encoding R61, R70, R50, R57): settles O1 and O2. -/

namespace Sys2Proof

/-! ## The command port -/

/-- The command port reads an operation back from its bytes, a pseudo-operation as its expansion (R61, R70). -/
theorem decodeCommand_encode {nul : Bool} {i : Instr} (hspace : i.space = .command) (hwf : i.wellFormed nul = true) :
    decodeCommand (encode nul i) = .ok i.expand := by
  cases i with
  | rbInit b => exact (CommandRow.rbInit b).decode_eq []
  | rbPut b v => exact (CommandRow.rbPut b).decode_eq [v]
  | rbGet b => exact (CommandRow.rbGet b).decode_eq []
  | rbPeek b off => exact (CommandRow.rbPeek b).decode_u16 off
  | rbCount b | isEmpty b => exact (CommandRow.rbCount b).decode_eq []
  | rbFree b | isFull b => exact (CommandRow.rbFree b).decode_eq []
  | rbClear b => exact (CommandRow.rbClear b).decode_eq []
  | crc16 data => exact CommandRow.crc16.decode_data hwf
  | pkBuild cap msg => exact CommandRow.pkBuild.decode_capData cap hwf
  | pkLocate b cap => exact (CommandRow.pkLocate b).decode_u16 cap
  | pkVerify pkt => exact CommandRow.pkVerify.decode_data hwf
  | pkExtractMsg cap pkt => exact CommandRow.pkExtractMsg.decode_capData cap hwf
  | hsOnMessage msg => exact CommandRow.hsOnMessage.decode_data hwf
  | hsSend r => exact CommandRow.hsSend.decode_eq [r]
  | poll => exact CommandRow.poll.decode_eq []
  | inject data => exact CommandRow.inject.decode_data hwf
  | reservedCommand c rest => exact decodeCommand_of_reserved hwf rest
  | rxPut v => exact (CommandRow.rbPut .inbound).decode_eq [v]
  | txGet => exact (CommandRow.rbGet .outbound).decode_eq []
  | frame | soh | stx | etx | tokenMarco | tokenPolo | tokenOk | tokenError | tokenUnknown => cases hspace

/-! ## The wire -/

/-- A frame whose length field counts it is read back from its bytes; its checksum is not checked (R50, R51). -/
theorem decodeFrame_frameBytes {len : Half} {msg : List Byte} (crc : Half) (h : len.toNat = 7 + msg.length) :
    decodeFrame (frameBytes len msg crc) = .ok (.frame len msg crc) := by
  have hcut := Machine.decodeFrame_cut (hiByte len) (loByte len) (hiByte crc) (loByte crc) msg
  rw [Machine.be16_hi_lo, Machine.be16_hi_lo, ← Machine.frameBytes_eq_cut] at hcut
  exact hcut h

theorem decodeToken_of_unknown {nul : Bool} {msg : List Byte} (h : recognize nul msg = .unknown) :
    decodeToken nul msg = .tokenUnknown msg := by
  rw [decodeToken, h]

/-- Settles O2, one encoding space after another. -/
theorem decodeOfEncode : Obligations.DecodeOfEncode := by
  intro nul i hwf
  cases i with
  | soh | stx | etx => rfl
  | tokenMarco | tokenPolo | tokenOk | tokenError => cases nul <;> rfl
  | tokenUnknown msg =>
    have hunknown : recognize nul msg = .unknown := beq_iff_eq.mp (Bool.and_eq_true_iff.mp hwf).2
    exact congrArg Except.ok (decodeToken_of_unknown hunknown)
  | frame len msg crc =>
    exact decodeFrame_frameBytes crc (Machine.frameAgrees_iff.mp hwf).1
  | _ => exact decodeCommand_encode rfl hwf

/-- Settles O1: fourteen closed evaluations of the decoders. -/
theorem specWordsDecode : Obligations.SpecWordsDecode := by
  unfold Obligations.SpecWordsDecode
  decide

end Sys2Proof
end

section
/-! PROOF. The pseudo-operations and their expansions (30_encoding R70): settles O50. -/

namespace Sys2Proof.Machine

variable {s : State} {b : RingSel}

/-! ## RX_PUT and TX_GET -/

/-- RX_PUT has the effect of RB_PUT on `IN`, and its bit is that put's result. -/
theorem rxTransfer_as_put (v : Byte) (s : State) : ∃ t' c, execRbPut .inbound v s = .next t' ∧
    (∀ b', (rxTransfer v s).ring b' = t'.ring b') ∧ t'.outputs = s.outputs ++ [.response ⟨c, []⟩] ∧
    (rxTransfer v s).outputs = s.outputs ++ [.rx (c == .ok)] := by
  obtain ⟨-, -, -, houtputs, -⟩ := putByte_frame .inbound v s
  refine ⟨_, (putByte .inbound v s).2, rfl, ?_, ?_, ?_⟩
  · simp [rxTransfer]
  · simp [houtputs]
  · simp [rxTransfer, houtputs]

/-- TX_GET has the effect of RB_GET on `OUT`, and its byte is the one that get delivers, if any. -/
theorem txTransfer_as_get (s : State) : ∃ t' c p, execRbGet .outbound s = .next t' ∧
    (∀ b', (txTransfer s).ring b' = t'.ring b') ∧ t'.outputs = s.outputs ++ [.response ⟨c, p⟩] ∧
    (txTransfer s).outputs = s.outputs ++ [.tx p.head?] := by
  obtain ⟨-, -, -, houtputs, -⟩ := getByte_frame .outbound s
  unfold execRbGet txTransfer
  rcases hget : getByte .outbound s with ⟨u, x⟩
  rw [hget] at houtputs
  cases x with
  | ok v => exact ⟨_, .ok, [v], rfl, by simp, congrArg (· ++ _) houtputs, congrArg (· ++ _) houtputs⟩
  | error c => exact ⟨_, c, [], rfl, by simp, congrArg (· ++ _) houtputs, congrArg (· ++ _) houtputs⟩

/-! ## IS_EMPTY and IS_FULL -/

theorem State.emit_inj {o o' : Output} : s.emit o = s.emit o' ↔ o = o' := by
  refine ⟨fun h => ?_, congrArg _⟩
  simpa using congrArg State.outputs h

theorem State.respond_inj {c c' : Code} {p p' : List Byte} : s.respond c p = s.respond c' p' ↔ c = c' ∧ p = p' := by
  simp [State.respond, State.emit_inj]

/-- A status reading answers 1 exactly where its level is 1. -/
theorem next_emit_status_true {level : Bool} :
    (.next (s.emit (.status level)) : Host.Outcome State Fault Refusal) = .next (s.emit (.status true)) ↔ level = true := by
  simp [State.emit_inj]

/-- A value that fits 16 bits is answered as two zero bytes only where it is 0 (R65). -/
theorem u16_eq_zero_iff {n : Nat} (h : n < 65536) : u16 n = [0#8, 0#8] ↔ n = 0 := by
  constructor
  · intro hzero
    simp only [u16, be16Bytes, List.cons.injEq, and_true] at hzero
    have hhalf : BitVec.ofNat 16 n = be16 0#8 0#8 := by rw [← be16_hi_lo (BitVec.ofNat 16 n), hzero.1, hzero.2]
    have := congrArg BitVec.toNat hhalf
    rw [be16_toNat, BitVec.toNat_ofNat, Nat.mod_eq_of_lt h] at this
    exact this
  · rintro rfl
    rfl

theorem emptyOutput_iff (h : s.ringInv b) : s.emptyOutput b = true ↔ (s.ring b).ready = true ∧ s.count b = 0 := by
  rw [State.emptyOutput, Bool.and_eq_true, State.ringEmpty_iff h]

theorem fullOutput_iff (h : s.ringInv b) : s.fullOutput b = true ↔ (s.ring b).ready = true ∧ s.free b = 0 := by
  rw [State.fullOutput, Bool.and_eq_true, ← State.free_eq_zero_iff h]

/-- RB_COUNT answers a number that is 0 exactly on a ready empty ring. -/
theorem execRbCount_zero_iff (h : s.ringInv b) :
    execRbCount b s = .next (s.respond .ok [0x00, 0x00]) ↔ (s.ring b).ready = true ∧ s.count b = 0 := by
  have hlt : s.count b < 65536 := Nat.lt_of_lt_of_le (State.count_lt h) (s.size_le b)
  unfold execRbCount
  cases hr : (s.ring b).ready <;> simp [State.respond_inj, u16_eq_zero_iff hlt]

/-- RB_FREE answers a number that is 0 exactly on a ready full ring. -/
theorem execRbFree_zero_iff (b : RingSel) (s : State) :
    execRbFree b s = .next (s.respond .ok [0x00, 0x00]) ↔ (s.ring b).ready = true ∧ s.free b = 0 := by
  have hlt : s.free b < 65536 := by
    have hsize := s.size_le b
    have hpos := s.size_pos b
    rw [State.free]
    omega
  unfold execRbFree
  cases hr : (s.ring b).ready <;> simp [State.respond_inj, u16_eq_zero_iff hlt]

/-- Settles O50: a port transfer is the put or get it stands for, and a status level is 1 where the number compared is 0. -/
theorem pseudoOperationsAreTheirExpansions : Obligations.PseudoOperationsAreTheirExpansions := by
  intro s v b h
  refine ⟨?_, ?_, ?_, ?_⟩
  · obtain ⟨t', c, hput⟩ := rxTransfer_as_put v s
    exact ⟨_, t', c, rfl, hput⟩
  · obtain ⟨t', c, p, hget⟩ := txTransfer_as_get s
    exact ⟨_, t', c, p, rfl, hget⟩
  · exact next_emit_status_true.trans ((emptyOutput_iff h).trans (execRbCount_zero_iff h).symm)
  · exact next_emit_status_true.trans ((fullOutput_iff h).trans (execRbFree_zero_iff b s).symm)

end Sys2Proof.Machine
end

section
/-! PROOF. The seven RingBuffer operations, one equation per result (40_ringbuffer R80 to R87): settles O10 to O17. -/

namespace Sys2Proof.Machine

variable {s : State} {b : RingSel}

/-! ## The results of each operation -/

theorem execRbPut_not_ready (v : Byte) (hr : (s.ring b).ready = false) :
    execRbPut b v s = .next (s.respond .badarg []) := by
  rw [execRbPut, putByte, if_pos hr]

theorem execRbPut_full (v : Byte) (hr : (s.ring b).ready = true) (hf : s.ringFull b = true) :
    execRbPut b v s = .next (s.respond .full []) := by
  rw [execRbPut, putByte, if_neg (by simp [hr]), if_pos hf]

theorem execRbPut_of_room (v : Byte) (hr : (s.ring b).ready = true) (hf : s.ringFull b = false) :
    execRbPut b v s = .next ((s.put b v).respond .ok []) := by
  rw [execRbPut, putByte_of_room hr hf]

theorem execRbGet_not_ready (hr : (s.ring b).ready = false) : execRbGet b s = .next (s.respond .badarg []) := by
  rw [execRbGet, getByte, if_pos hr]

theorem execRbGet_empty (hr : (s.ring b).ready = true) (he : s.ringEmpty b = true) :
    execRbGet b s = .next (s.respond .empty []) := by
  rw [execRbGet, getByte, if_neg (by simp [hr]), if_pos he]

theorem execRbGet_nonempty (hr : (s.ring b).ready = true) (he : s.ringEmpty b = false) :
    execRbGet b s = .next ((s.consume b 1).respond .ok [s.memRead b (s.ring b).head]) := by
  rw [execRbGet, getByte, if_neg (by simp [hr]), if_neg (by simp [he])]

theorem execRbPeek_not_ready (off : Half) (hr : (s.ring b).ready = false) :
    execRbPeek b off s = .next (s.respond .badarg []) := if_pos hr

theorem execRbPeek_empty {off : Half} (hr : (s.ring b).ready = true) (hoff : s.count b ≤ off.toNat) :
    execRbPeek b off s = .next (s.respond .empty []) := by
  rw [execRbPeek, if_neg (by simp [hr]), if_pos hoff]

theorem execRbPeek_occupied {off : Half} (hr : (s.ring b).ready = true) (hoff : off.toNat < s.count b) :
    execRbPeek b off s = .next (s.respond .ok [s.byteAt b off.toNat]) := by
  rw [execRbPeek, if_neg (by simp [hr]), if_neg (Nat.not_le.mpr hoff)]

theorem execRbCount_not_ready (hr : (s.ring b).ready = false) : execRbCount b s = .next (s.respond .badarg []) :=
  if_pos hr

theorem execRbCount_ready (hr : (s.ring b).ready = true) : execRbCount b s = .next (s.respond .ok (u16 (s.count b))) :=
  if_neg (by simp [hr])

theorem execRbFree_not_ready (hr : (s.ring b).ready = false) : execRbFree b s = .next (s.respond .badarg []) :=
  if_pos hr

theorem execRbFree_ready (hr : (s.ring b).ready = true) : execRbFree b s = .next (s.respond .ok (u16 (s.free b))) :=
  if_neg (by simp [hr])

theorem execRbClear_not_ready (hr : (s.ring b).ready = false) : execRbClear b s = .next (s.respond .badarg []) :=
  if_pos hr

theorem execRbClear_ready (hr : (s.ring b).ready = true) :
    execRbClear b s = .next ((s.setHead b (s.ring b).tail).respond .ok []) := if_neg (by simp [hr])

theorem execPkLocate_not_ready (cap : Half) (hr : (s.ring b).ready = false) :
    execPkLocate b cap s = .next (s.respond .badarg []) := by
  rw [execPkLocate, locate_badarg (.inl hr)]

theorem execInject_not_ready (data : List Byte) (hr : (s.ring .outbound).ready = false) :
    execInject data s = .next (s.respond .badarg []) := if_pos (.inl hr)

theorem txTransfer_not_ready (hr : (s.ring .outbound).ready = false) : txTransfer s = s.emit (.tx none) := by
  rw [txTransfer, getByte, if_pos hr]
  rfl

/-! ## Facts the results are read with -/

/-- A change of ring `b` and a response are an operation's frame on ring `b` (R42). -/
theorem State.answersOn_setRing (s : State) (b : RingSel) (r : Ring) (c : Code) (p : List Byte) :
    s.answersOn b (.response ⟨c, p⟩) ((s.setRing b r).respond c p) := by
  refine ⟨by simp, by simp, by simp, by simp, fun hb => ?_, fun hb => ?_⟩
  · rw [State.ring_respond, State.ring_setRing_ne s r hb.symm]
  · rw [State.ring_respond, State.ring_setRing_ne s r hb.symm]

/-- After a put the slot at the old tail holds the byte, and every other slot what it held (R81). -/
theorem State.memRead_put (v : Byte) (htail : (s.ring b).tail < s.size b) {x : Nat} (hx : x < s.size b) :
    (s.put b v).memRead b x = if x = (s.ring b).tail then v else s.memRead b x := by
  rw [State.memRead_setTail]
  split_ifs with h
  · rw [h, State.memRead_memWrite_self]
  · exact State.memRead_memWrite_ne s b v (by rwa [s.slot_of_lt hx, s.slot_of_lt htail])

/-- The two bytes of a `u16` answer stand for the number answered, if it fits (R62, R65). -/
theorem exists_u16_bytes {n : Nat} (h : n < 65536) : ∃ hi lo : Byte, u16 n = [hi, lo] ∧ hi.toNat * 256 + lo.toNat = n := by
  refine ⟨_, _, rfl, ?_⟩
  rw [← be16_toNat, be16_hi_lo, BitVec.toNat_ofNat, Nat.mod_eq_of_lt h]

/-! ## The statements -/

/-- Settles O10: RB_INIT is one change of its ring, in every state. -/
theorem rbInitEmptiesTheRing : Obligations.RbInitEmptiesTheRing := by
  intro b s
  exact ⟨(CommandRow.rbInit b).decode_eq [], _, rfl, s.answersOn_setRing b _ .ok [], by simp, by simp, by simp,
    State.count_of_cursors_meet (by simp), by simp⟩

/-- Settles O11: one clause per result of the put. -/
theorem rbPutStoresAtTail : Obligations.RbPutStoresAtTail := by
  intro b v s h
  refine ⟨(CommandRow.rbPut b).decode_eq [v], execRbPut_not_ready v, fun hr hfull => ?_, fun hr hroom => ?_⟩
  · exact execRbPut_full v hr (beq_iff_eq.mpr hfull)
  · have hf : s.ringFull b = false := beq_eq_false_iff_ne.mpr hroom
    refine ⟨_, execRbPut_of_room v hr hf, ?_, ⟨by simp, by simp⟩, by simp, ?_, fun x hx => ?_⟩
    · rw [State.put_eq_setRing]
      exact s.answersOn_setRing b _ .ok []
    · rw [State.count_respond, State.count_put h hf]
    · rw [State.memRead_respond, State.memRead_put v h.1.2.1 hx]

/-- Settles O12: one clause per result of the get. -/
theorem rbGetTakesFromHead : Obligations.RbGetTakesFromHead := by
  intro b s
  refine ⟨(CommandRow.rbGet b).decode_eq [], execRbGet_not_ready, fun hr hempty => ?_, fun hr hbytes => ?_⟩
  · exact execRbGet_empty hr (beq_iff_eq.mpr hempty)
  · refine ⟨_, execRbGet_nonempty hr (beq_eq_false_iff_ne.mpr hbytes), s.answersOn_setRing b _ .ok _, ?_, by simp⟩
    exact ⟨by simp, by simp, by simp⟩

/-- Settles O13: a slot index reduced modulo the ring's slot count twice is the index reduced once (R35). -/
theorem rbPeekReadsWithoutConsuming : Obligations.RbPeekReadsWithoutConsuming := by
  intro b off s
  refine ⟨(CommandRow.rbPeek b).decode_u16 off, execRbPeek_not_ready off, execRbPeek_empty, fun hr hoff => ?_⟩
  have hslot : s.byteAt b off.toNat = s.memRead b (((s.ring b).head + off.toNat) % s.size b) := by
    simp only [State.byteAt, State.memRead, State.slot, Nat.mod_mod]
  rw [← hslot]
  exact execRbPeek_occupied hr hoff

/-- Settles O14: the count of a sound ring fits the `u16` it is answered as. -/
theorem rbCountAnswersOccupied : Obligations.RbCountAnswersOccupied := by
  intro b s h
  refine ⟨(CommandRow.rbCount b).decode_eq [], execRbCount_not_ready, fun hr => ?_⟩
  obtain ⟨hi, lo, hbytes, hvalue⟩ := exists_u16_bytes (Nat.lt_of_lt_of_le (State.count_lt h) (s.size_le b))
  exact ⟨hi, lo, hbytes ▸ execRbCount_ready hr, hvalue⟩

/-- Settles O15: the room of a sound ring fits the `u16` it is answered as. -/
theorem rbFreeAnswersRoom : Obligations.RbFreeAnswersRoom := by
  intro b s h
  refine ⟨(CommandRow.rbFree b).decode_eq [], execRbFree_not_ready, fun hr => ?_⟩
  have hroom : s.free b + s.count b + 1 = s.size b := by
    have := State.count_lt h
    rw [State.free]
    omega
  have hle := s.size_le b
  obtain ⟨hi, lo, hbytes, hvalue⟩ := exists_u16_bytes (n := s.free b) (by omega)
  exact ⟨hi, lo, hbytes ▸ execRbFree_ready hr, by rw [hvalue, hroom]⟩

/-- Settles O16: RB_CLEAR is one move of the head, in every state. -/
theorem rbClearSetsHeadToTail : Obligations.RbClearSetsHeadToTail := by
  intro b s
  refine ⟨(CommandRow.rbClear b).decode_eq [], execRbClear_not_ready, fun hr => ?_⟩
  refine ⟨_, execRbClear_ready hr, s.answersOn_setRing b _ .ok [], ⟨by simp, by simp, by simp⟩, by simp, ?_⟩
  exact State.count_of_cursors_meet (by simp)

/-- Settles O17: each operation tests the ready bit before it does anything. -/
theorem notReadyRingAnswersBadarg : Obligations.NotReadyRingAnswersBadarg := by
  intro s b hr
  refine ⟨fun v off cap i hi => ?_, ?_, ?_⟩
  · simp only [List.mem_cons, List.not_mem_nil, or_false] at hi
    rcases hi with rfl | rfl | rfl | rfl | rfl | rfl | rfl | rfl
    · exact execRbPut_not_ready v hr
    · exact execRbGet_not_ready hr
    · exact execRbPeek_not_ready off hr
    · exact execRbCount_not_ready hr
    · exact execRbFree_not_ready hr
    · exact execRbClear_not_ready hr
    · exact execPkLocate_not_ready cap hr
    · exact congrArg _ (pollCycle_badarg (by cases b <;> simp [hr]))
  · rintro rfl
    exact ⟨fun r => execHsSend_refused (.inl hr), fun data => execInject_not_ready data hr,
      congrArg _ (txTransfer_not_ready hr)⟩
  · rintro rfl v
    exact congrArg _ (rxTransfer_dropped (.inl hr))

end Sys2Proof.Machine
end

section
/-! PROOF. Count, room, full and empty (40_ringbuffer R89, R90, R93, R94, R96): settles O18, O19, O20 and O23. -/

namespace Sys2Proof.Machine

variable {s t : State} {b : RingSel}

theorem State.count_add_free (h : s.ringInv b) : s.count b + s.free b = s.size b - 1 := by
  have := State.count_lt h
  rw [State.free]
  omega

/-- The two cases of the count are one difference modulo the slot count (R93). -/
theorem State.count_eq_emod (h : s.ringInv b) :
    (s.count b : Int) = ((s.ring b).tail - (s.ring b).head : Int) % (s.size b : Int) := by
  obtain ⟨⟨hhead, htail, -⟩, -⟩ := h
  rw [State.count]
  split_ifs with hwrapped
  · rw [Int.emod_eq_of_lt (by omega) (by omega)]
    omega
  · rw [← Int.add_emod_right, Int.emod_eq_of_lt (by omega) (by omega)]
    omega

/-! ## Runs from reset -/

theorem run_succ {n : Nat} (h : step s = .next t) : core.run (n + 1) s = core.run n t := by
  simp only [Host.Core.run, show core.step s = step s from rfl, h]

/-- A run that comes to an end goes on at its first step. -/
theorem step_of_run_succ {n : Nat} (hrun : core.run (n + 1) s = .next t) :
    ∃ u, step s = .next u ∧ core.run n u = .next t := by
  cases hu : step s with
  | next u => exact ⟨u, rfl, run_succ hu ▸ hrun⟩
  | fault r | refused r =>
    simp only [Host.Core.run, show core.step s = step s from rfl, hu] at hrun
    cases hrun

/-- What every step keeps holds at the end of a run. -/
theorem run_induction {P : State → Prop} (hstep : ∀ s t, P s → step s = .next t → P t) {n : Nat} (h : P s)
    (hrun : core.run n s = .next t) : P t := by
  induction n generalizing s with
  | zero => exact Host.Outcome.next.inj hrun ▸ h
  | succ n ih =>
    obtain ⟨u, hu, hrest⟩ := step_of_run_succ hrun
    exact ih (hstep s u h hu) hrest

/-- No step changes the parameters (00_scope R5). -/
theorem cfg_of_step (h : step s = .next t) : t.cfg = s.cfg := by
  unfold step at h
  cases hf : fetched s.inputs with
  | run i =>
    rw [hf] at h
    exact (exec_effects h).cfg
  | idle | reset | malformed =>
    rw [hf] at h
    cases h
    rfl

/-- Settles O18: the invariant holds at reset, and every step keeps it and the parameters. -/
theorem countPlusFreeIsUsableCapacity : Obligations.CountPlusFreeIsUsableCapacity := by
  refine ⟨fun _ _ => State.count_add_free, fun c l n t hrun b _ => ?_⟩
  have hreset : State.Inv { State.resetWith c with inputs := l } := (resetSatisfiesInv c).1
  obtain ⟨hinv, rfl⟩ : t.Inv ∧ t.cfg = c :=
    run_induction (P := fun u => u.Inv ∧ u.cfg = c)
      (fun u w ⟨hu, hcfg⟩ hw => ⟨stepKeepsInv u w hu hw, (cfg_of_step hw).trans hcfg⟩) ⟨hreset, rfl⟩ hrun
  exact State.count_add_free (hinv.ring b)

/-! ## Full and empty -/

/-- Settles O19: the full and empty tests of a sound ring, read as its count. -/
theorem fullEmptyAndCountAgree : Obligations.FullEmptyAndCountAgree := by
  intro s b h
  have hsum := State.count_add_free h
  have hlt := State.count_lt h
  refine ⟨?_, by omega, ?_, by omega, State.count_eq_emod h⟩
  · rw [State.free_eq_zero_iff h, State.ringFull, beq_iff_eq]
  · rw [← State.ringEmpty_iff h, State.ringEmpty, beq_iff_eq]

/-- Settles O20: a status output is the ready bit and the ring's test. -/
theorem statusOutputsReadTheRing : Obligations.StatusOutputsReadTheRing :=
  fun _ _ h => ⟨emptyOutput_iff h, fullOutput_iff h, rfl, rfl⟩

/-- Settles O23: the cursors of one slot can only be 0, so nothing is held and nothing fits. -/
theorem oneSlotRingIsEmptyAndFull : Obligations.OneSlotRingIsEmptyAndFull := by
  intro s b h hsize
  have hlt := State.count_lt h
  have hsum := State.count_add_free h
  have hcount : s.count b = 0 := by omega
  have hfree : s.free b = 0 := by omega
  have hhead : (s.ring b).head = 0 := Nat.lt_one_iff.mp (hsize ▸ h.1.1)
  have htail : (s.ring b).tail = 0 := Nat.lt_one_iff.mp (hsize ▸ h.1.2.1)
  refine ⟨hhead, htail, hcount, hfree, fun hr => ?_⟩
  refine ⟨(emptyOutput_iff h).mpr ⟨hr, hcount⟩, (fullOutput_iff h).mpr ⟨hr, hfree⟩, fun v => ?_, ?_, fun off => ?_⟩
  · exact execRbPut_full v hr ((State.free_eq_zero_iff h).mp hfree)
  · exact execRbGet_empty hr ((State.ringEmpty_iff h).mpr hcount)
  · exact execRbPeek_empty hr (by rw [hcount]; exact Nat.zero_le _)

end Sys2Proof.Machine
end

section
/-! PROOF. Puts and gets of one ring, one after another (40_ringbuffer R91, 20_memory R40): settles O21. -/

namespace Sys2Proof.Machine

variable {s t u : State} {b : RingSel}

/-! ## What a run answers -/

theorem run_add {m n : Nat} (h : core.run m s = .next t) : core.run (m + n) s = core.run n t := by
  induction m generalizing s with
  | zero => rw [Nat.zero_add, Host.Outcome.next.inj h]
  | succ m ih =>
    obtain ⟨w, hw, hrest⟩ := step_of_run_succ h
    rw [Nat.succ_add, run_succ hw, ih hrest]

/-- From `s`, as many steps as there are `answers` give these answers at the command port and lead to `t`. -/
structure RunAnswers (s : State) (answers : List Response) (t : State) : Prop where
  run : core.run answers.length s = .next t
  outputs : t.outputs = s.outputs ++ answers.map Output.response

namespace RunAnswers

theorem refl (s : State) : RunAnswers s [] s := ⟨rfl, (List.append_nil _).symm⟩

theorem trans {answers answers' : List Response} (h : RunAnswers s answers u) (h' : RunAnswers u answers' t) :
    RunAnswers s (answers ++ answers') t where
  run := by rw [List.length_append, run_add h.run, h'.run]
  outputs := by rw [h'.outputs, h.outputs, List.map_append, List.append_assoc]

end RunAnswers

/-! ## One put or get -/

/-- Ring `b` of `s` is sound and ready, has `n` slots and holds `p`; `l` stands at the ports. -/
structure ReadyHolding (b : RingSel) (n : Nat) (p : List Byte) (l : List Input) (s : State) : Prop where
  inv : s.ringInv b
  ready : (s.ring b).ready = true
  size : s.size b = n
  contents : s.contents b = p
  inputs : s.inputs = l

namespace ReadyHolding

variable {n : Nat} {p : List Byte} {v : Byte} {l : List Input} {who : Agent}

theorem count (h : ReadyHolding b n p l s) : s.count b = p.length := by rw [← State.length_contents, h.contents]

theorem ringFull_eq_true (h : ReadyHolding b n p l s) (hfull : p.length = n - 1) : s.ringFull b = true := by
  rw [State.ringFull_iff h.inv, h.count, h.size, hfull]

theorem ringFull_eq_false (h : ReadyHolding b n p l s) (hroom : p.length ≠ n - 1) : s.ringFull b = false := by
  rwa [← Bool.not_eq_true, State.ringFull_iff h.inv, h.count, h.size]

theorem takeInput {x : Input} (h : ReadyHolding b n p (x :: l) s) : ReadyHolding b n p l s.takeInput where
  inv := h.inv
  ready := by simpa using h.ready
  size := by simpa using h.size
  contents := by simpa using h.contents
  inputs := by rw [State.inputs_takeInput, h.inputs, List.tail_cons]

theorem respond (h : ReadyHolding b n p l s) (c : Code) (q : List Byte) : ReadyHolding b n p l (s.respond c q) where
  inv := h.inv
  ready := by simpa using h.ready
  size := by simpa using h.size
  contents := by simpa using h.contents
  inputs := h.inputs

theorem put (h : ReadyHolding b n p l s) (hf : s.ringFull b = false) (v : Byte) :
    ReadyHolding b n (p ++ [v]) l (s.put b v) where
  inv := State.ringInv_put h.inv h.ready hf v
  ready := by simpa using h.ready
  size := by simpa using h.size
  contents := by rw [State.contents_put h.inv hf, h.contents]
  inputs := by simpa using h.inputs

theorem consume (h : ReadyHolding b n (v :: p) l s) : ReadyHolding b n p l (s.consume b 1) where
  inv := State.ringInv_consume h.inv (by simp [h.count])
  ready := by simpa using h.ready
  size := by simpa using h.size
  contents := (getByte_of_contents h.inv h.ready h.contents).2
  inputs := by simpa using h.inputs

/-- A step whose operation leads to `u` and then answers. -/
theorem step {i : Instr} {c : Code} {q p' : List Byte} (h : ReadyHolding b n p (.issue who i :: l) s)
    (hexec : exec i s.takeInput = .next (u.respond c q)) (houtputs : u.outputs = s.outputs)
    (hu : ReadyHolding b n p' l u) : ∃ t, ReadyHolding b n p' l t ∧ RunAnswers s [⟨c, q⟩] t :=
  ⟨_, hu.respond c q, run_succ ((step_issue h.inputs).trans hexec), congrArg (· ++ _) houtputs⟩

theorem put_accepted (h : ReadyHolding b n p (.issue who (.rbPut b v) :: l) s) (hroom : p.length ≠ n - 1) :
    ∃ t, ReadyHolding b n (p ++ [v]) l t ∧ RunAnswers s [⟨.ok, []⟩] t := by
  have hf := h.takeInput.ringFull_eq_false hroom
  exact h.step (execRbPut_of_room v h.takeInput.ready hf) (by simp) (h.takeInput.put hf v)

theorem put_refused (h : ReadyHolding b n p (.issue who (.rbPut b v) :: l) s) (hfull : p.length = n - 1) :
    ∃ t, ReadyHolding b n p l t ∧ RunAnswers s [⟨.full, []⟩] t :=
  h.step (execRbPut_full v h.takeInput.ready (h.takeInput.ringFull_eq_true hfull)) rfl h.takeInput

theorem get_delivers (h : ReadyHolding b n (v :: p) (.issue who (.rbGet b) :: l) s) :
    ∃ t, ReadyHolding b n p l t ∧ RunAnswers s [⟨.ok, [v]⟩] t := by
  obtain ⟨hget, -⟩ := getByte_of_contents h.takeInput.inv h.takeInput.ready h.takeInput.contents
  exact h.step (by rw [exec, execRbGet, hget]) (by simp) h.takeInput.consume

theorem get_refused (h : ReadyHolding b n [] (.issue who (.rbGet b) :: l) s) :
    ∃ t, ReadyHolding b n [] l t ∧ RunAnswers s [⟨.empty, []⟩] t :=
  h.step (execRbGet_empty h.takeInput.ready ((State.ringEmpty_iff h.takeInput.inv).mpr h.takeInput.count)) rfl h.takeInput

/-! ## Puts, then gets -/

/-- Puts that find room are all accepted, and their bytes stand behind those held before. -/
theorem puts {data : List Byte}
    (h : ReadyHolding b n p (data.map (fun v => Input.issue who (.rbPut b v)) ++ l) s)
    (hroom : p.length + data.length ≤ n - 1) :
    ∃ t, ReadyHolding b n (p ++ data) l t ∧ RunAnswers s (List.replicate data.length ⟨.ok, []⟩) t := by
  induction data generalizing s p with
  | nil => exact ⟨s, by simpa using h, .refl s⟩
  | cons v data ih =>
    rw [List.length_cons] at hroom
    obtain ⟨u, hu, hstep⟩ := put_accepted h (by omega)
    obtain ⟨t, ht, hrest⟩ := ih hu (by rw [List.length_append, List.length_singleton]; omega)
    exact ⟨t, by simpa using ht, hstep.trans hrest⟩

/-- As many gets as bytes are held deliver these bytes, head first. -/
theorem gets (h : ReadyHolding b n p (List.replicate p.length (Input.issue who (.rbGet b)) ++ l) s) :
    ∃ t, ReadyHolding b n [] l t ∧ RunAnswers s (p.map fun v => ⟨.ok, [v]⟩) t := by
  induction p generalizing s with
  | nil => exact ⟨s, h, .refl s⟩
  | cons v p ih =>
    obtain ⟨u, hu, hstep⟩ := get_delivers h
    obtain ⟨t, ht, hrest⟩ := ih hu
    exact ⟨t, ht, hstep.trans hrest⟩

end ReadyHolding

/-! ## Puts and gets in any order -/

theorem deliveredBytes_cons (op : Option Byte) (ops : List (Option Byte)) (r : Response) (answers : List Response) :
    deliveredBytes (op :: ops) (r :: answers) = deliveredBytes [op] [r] ++ deliveredBytes ops answers := by
  simp [deliveredBytes]

theorem acceptedBytes_cons (op : Option Byte) (ops : List (Option Byte)) (r : Response) (answers : List Response) :
    acceptedBytes (op :: ops) (r :: answers) = acceptedBytes [op] [r] ++ acceptedBytes ops answers :=
  List.filterMap_append (l := [(op, r)])

namespace ReadyHolding

variable {n : Nat} {p : List Byte} {l : List Input}

/-- One put or get keeps first in, first out: a get delivers the oldest byte, and an accepted put adds behind the others. -/
theorem putOrGet_fifo {who : Agent} {op : Option Byte} (h : ReadyHolding b n p (.issue who (putOrGet b op) :: l) s) :
    ∃ r p' t, ReadyHolding b n p' l t ∧ RunAnswers s [r] t ∧
      deliveredBytes [op] [r] ++ p' = p ++ acceptedBytes [op] [r] := by
  cases op with
  | some v =>
    by_cases hfull : p.length = n - 1
    · obtain ⟨t, ht, hrun⟩ := put_refused h hfull
      exact ⟨_, p, t, ht, hrun, (List.append_nil p).symm⟩
    · obtain ⟨t, ht, hrun⟩ := put_accepted h hfull
      exact ⟨_, p ++ [v], t, ht, hrun, rfl⟩
  | none =>
    cases p with
    | nil =>
      obtain ⟨t, ht, hrun⟩ := get_refused h
      exact ⟨_, [], t, ht, hrun, rfl⟩
    | cons v p =>
      obtain ⟨t, ht, hrun⟩ := get_delivers h
      exact ⟨_, p, t, ht, hrun, (List.append_nil (v :: p)).symm⟩

/-- Puts and gets in any order, by any agents: the bytes delivered and those left are the bytes held and those accepted. -/
theorem putsAndGets_fifo {ops : List (Agent × Option Byte)}
    (h : ReadyHolding b n p (ops.map (fun x => Input.issue x.1 (putOrGet b x.2)) ++ l) s) :
    ∃ answers p' t, ReadyHolding b n p' l t ∧ RunAnswers s answers t ∧ answers.length = ops.length ∧
      deliveredBytes (ops.map Prod.snd) answers ++ p' = p ++ acceptedBytes (ops.map Prod.snd) answers := by
  induction ops generalizing s p with
  | nil => exact ⟨[], p, s, h, .refl s, rfl, (List.append_nil p).symm⟩
  | cons x ops ih =>
    obtain ⟨r, p', u, hu, hstep, hfirst⟩ := putOrGet_fifo h
    obtain ⟨answers, p'', t, ht, hrest, hlen, hothers⟩ := ih hu
    refine ⟨r :: answers, p'', t, ht, hstep.trans hrest, congrArg Nat.succ hlen, ?_⟩
    rw [List.map_cons, deliveredBytes_cons, acceptedBytes_cons, List.append_assoc, hothers, ← List.append_assoc, hfirst,
      List.append_assoc]

end ReadyHolding

/-- Settles O21: the puts and then the gets by induction on the bytes, any order by induction on the operations. -/
theorem putsThenGetsReturnTheBytes : Obligations.PutsThenGetsReturnTheBytes := by
  constructor
  · intro s b data who rest h hr hempty hfits hinputs
    have hs : ReadyHolding b (s.size b) [] _ s :=
      ⟨h, hr, rfl, State.contents_of_count_zero hempty, hinputs.trans (List.append_assoc _ _ _)⟩
    obtain ⟨u, hu, hputs⟩ := hs.puts (by simpa using hfits)
    obtain ⟨t, ht, hgets⟩ := hu.gets
    have hall := hputs.trans hgets
    have hlen : 2 * data.length = (List.replicate data.length (⟨.ok, []⟩ : Response) ++
        data.map fun v => (⟨.ok, [v]⟩ : Response)).length := by simp [Nat.two_mul]
    exact ⟨t, hlen ▸ hall.run, ht.inputs, ht.count, by simp [hall.outputs]⟩
  · intro s b ops rest h hr hinputs
    have hs : ReadyHolding b (s.size b) (s.contents b) _ s := ⟨h, hr, rfl, rfl, hinputs⟩
    obtain ⟨answers, p, t, ht, hrun, hlen, hfifo⟩ := hs.putsAndGets_fifo
    exact ⟨t, answers, hlen ▸ hrun.run, ht.inputs, hlen, hrun.outputs, ht.contents ▸ hfifo⟩

end Sys2Proof.Machine
end

section
/-! PROOF. The checksum routine (41_crc16 R101 to R105): settles O24, O25, O26 and O27. -/

namespace Sys2Proof.Machine

/-! ## One round and one byte, as arithmetic (R101, R102) -/

/-- Bit 15 of an accumulator, as a bound. -/
theorem getLsbD_15_iff (a : Half) : a.getLsbD 15 = true ↔ 0x8000 ≤ a.toNat := by
  have hmsb : a.getLsbD 15 = a.msb := (BitVec.msb_eq_getLsbD_last a).symm
  rw [hmsb, BitVec.msb_eq_decide, decide_eq_true_iff]

theorem toNat_crcRound (a : Half) : (crcRound a).toNat =
    if 0x8000 ≤ a.toNat then (a.toNat * 2 % 65536) ^^^ 0x1021 else a.toNat * 2 % 65536 := by
  have hshift : (a <<< 1).toNat = a.toNat * 2 % 65536 := by rw [BitVec.toNat_shiftLeft, Nat.shiftLeft_eq]
  simp only [crcRound, getLsbD_15_iff]
  split
  · rw [BitVec.toNat_xor, hshift]; rfl
  · exact hshift

/-- A byte in bits 15:8 is the byte times 256. -/
theorem be16_zero_eq_mul (d : Byte) : be16 d 0x00 = d.setWidth 16 * 256 := by
  apply BitVec.eq_of_toNat_eq
  have := d.isLt
  rw [be16_toNat, BitVec.toNat_mul, BitVec.toNat_setWidth]
  change d.toNat * 256 + 0 = d.toNat % 65536 * 256 % 65536
  omega

/-- Settles O24: a round as arithmetic on the accumulator, and a byte update as its eight rounds. -/
theorem crcRoundAndByteUpdate : Obligations.CrcRoundAndByteUpdate :=
  ⟨toNat_crcRound, fun _ d => be16_zero_eq_mul d ▸ rfl⟩

/-! ## The operation (R103) -/

/-- Settles O25: the operation answers the fold it is defined by, and its command is a data row of R61's table. -/
theorem crc16AnswersChecksum : Obligations.Crc16AnswersChecksum :=
  ⟨fun _ _ => rfl, fun _ hlen => CommandRow.crc16.decode_data (decide_eq_true hlen)⟩

/-! ## Zero bytes (R104) -/

/-- A zero byte leaves a zero accumulator at zero. -/
theorem crcUpdate_zero_zero : crcUpdate 0 0x00 = 0 := crcRounds_zero 8

theorem crc16_replicate_zero (n : Nat) : crc16 (List.replicate n 0x00) = 0 := by
  induction n with
  | zero => rfl
  | succ n ih => rw [List.replicate_succ', crc16_append_singleton, ih, crcUpdate_zero_zero]

/-- Settles O26: what follows the zero bytes is folded from zero, as it is without them. -/
theorem leadingZerosKeepChecksum : Obligations.LeadingZerosKeepChecksum := by
  intro n data
  refine ⟨crc16_nil, crc16_replicate_zero n, ?_⟩
  rw [crc16_append, crc16_replicate_zero]
  rfl

/-! ## The residue (R105) -/

/-- Rounds that shift out no set bit only shift. -/
theorem toNat_crcRounds_of_lt {k : Nat} {a : Half} (h : a.toNat * 2 ^ k < 65536) :
    (crcRounds k a).toNat = a.toNat * 2 ^ k := by
  induction k generalizing a with
  | zero => simp [crcRounds]
  | succ k ih =>
    rw [Nat.pow_succ', ← Nat.mul_assoc] at h ⊢
    have hlt : a.toNat * 2 < 65536 := lt_of_le_of_lt (Nat.le_mul_of_pos_right _ (Nat.two_pow_pos k)) h
    have hround : (crcRound a).toNat = a.toNat * 2 := by
      rw [toNat_crcRound, if_neg (by omega), Nat.mod_eq_of_lt hlt]
    rw [crcRounds, ih (hround ▸ h), hround]

/-- Eight rounds move the low byte up when the high byte is zero. -/
theorem crcRounds_eight_be16_zero (lo : Byte) : crcRounds 8 (be16 0x00 lo) = be16 lo 0x00 := by
  have hlow : (be16 0x00 lo).toNat = lo.toNat := by simp [be16_toNat]
  have hlt : lo.toNat * 2 ^ 8 < 65536 := by have := lo.isLt; omega
  apply BitVec.eq_of_toNat_eq
  rw [toNat_crcRounds_of_lt (hlow.symm ▸ hlt), hlow, be16_toNat]
  simp

theorem be16_xor (a b c d : Byte) : be16 a b ^^^ be16 c d = be16 (a ^^^ c) (b ^^^ d) :=
  BitVec.xor_append

/-- The high byte of an accumulator cancels, and its low byte moves up. -/
theorem crcUpdate_be16_hi (hi lo : Byte) : crcUpdate (be16 hi lo) hi = be16 lo 0x00 := by
  have hxor : be16 hi lo ^^^ be16 hi 0x00 = be16 0x00 lo := by simp [be16_xor]
  rw [crcUpdate, hxor, crcRounds_eight_be16_zero]

/-- An accumulator's own two bytes bring it to zero. -/
theorem foldl_crcUpdate_be16 (hi lo : Byte) : [hi, lo].foldl crcUpdate (be16 hi lo) = 0 := by
  rw [List.foldl_cons, crcUpdate_be16_hi, List.foldl_cons, crcUpdate_be16_hi]
  rfl

/-- Settles O27: two bytes bring their own `u16` to zero, and no other accumulator, since different accumulators stay
different. -/
theorem residueIsZeroExactlyOnMatch : Obligations.ResidueIsZeroExactlyOnMatch := by
  intro m hi lo
  rw [crc16_append, ← foldl_crcUpdate_be16 hi lo]
  exact ⟨fun h => (foldl_crcUpdate_inj _ h).symm, fun h => h ▸ rfl⟩

end Sys2Proof.Machine
end

section
/-! PROOF. PK_LOCATE on the bytes of a ring (42_packet_codec R112 to R123): settles O34, O37 and O38. -/

namespace Sys2Proof.Machine

variable {s t : State} {b : RingSel} {cap : Half} {p : List Byte}

/-! ## The response to each result (R65, R112) -/

/-- The payload that goes with a PK_LOCATE result (R65). -/
def Located.payload : Located → List Byte
  | .badarg | .incomplete | .malformed => []
  | .overflow len => u16 len
  | .ok pkt => u16 pkt.length ++ pkt

theorem execPkLocate_eq_respond (b : RingSel) (cap : Half) (s : State) : execPkLocate b cap s =
    .next ((locate b cap.toNat s).1.respond (locate b cap.toNat s).2.code (locate b cap.toNat s).2.payload) := by
  unfold execPkLocate
  rcases locate b cap.toNat s with ⟨t, x⟩
  cases x <;> rfl

/-- PK_LOCATE's argument checks (R112, R87). -/
theorem execPkLocate_badarg (h : (s.ring b).ready = false ∨ cap.toNat = 0) :
    execPkLocate b cap s = .next (s.respond .badarg []) := by
  rw [execPkLocate, locate_badarg h]

/-- PK_LOCATE on a ready ring answers what the extractor answers on the bytes from the first SOH on (R112, R119). -/
theorem execPkLocate_ready (h : s.ringInv b) (hr : (s.ring b).ready = true) (hcap : cap.toNat ≠ 0) :
    execPkLocate b cap s = .next ((s.consume b (locateCount cap.toNat (s.contents b))).respond
      (extractBytes cap.toNat (fromSoh (s.contents b))).2.code
      (extractBytes cap.toNat (fromSoh (s.contents b))).2.payload) := by
  rw [execPkLocate_eq_respond, locate_eq _ h hr hcap]

/-! ## The extractor's results (R114 to R119) -/

/-- What comes behind the length field does not change it. -/
theorem lengthField_append (h : 3 ≤ p.length) (q : List Byte) : lengthField (p ++ q) = lengthField p := by
  rw [lengthField, List.getD_append _ _ _ _ (by omega), List.getD_append _ _ _ _ (by omega)]

/-- A candidate whose bytes are not all there (R114, R116). -/
theorem extractBytes_incomplete (n : Nat) (h : p.length < 7 ∨ p.length < lengthField p) :
    extractBytes n p = (0, .incomplete) := by
  unfold extractBytes
  by_cases h7 : p.length < 7
  · rw [if_pos h7]
  · rw [if_neg h7, if_pos (h.resolve_left h7)]

/-- A declared length below 3, or no ETX where the declared length puts it (R115, R117). -/
theorem extractBytes_malformed_of (n : Nat) (h7 : 7 ≤ p.length) (hlen : lengthField p ≤ p.length)
    (h : lengthField p < 3 ∨ p.getD (lengthField p - 3) 0 ≠ etxByte) : extractBytes n p = (0, .malformed) := by
  rw [extractBytes, if_neg (Nat.not_lt.mpr h7), if_neg (Nat.not_lt.mpr hlen)]
  by_cases h3 : lengthField p < 3
  · rw [if_pos h3]
  · rw [if_neg h3, if_pos (h.resolve_left h3)]

/-- A whole candidate that fits (R118). -/
theorem extractBytes_ok_of {n : Nat} (h7 : 7 ≤ p.length) (hlen : lengthField p ≤ p.length) (h3 : 3 ≤ lengthField p)
    (hetx : p.getD (lengthField p - 3) 0 = etxByte) (hfits : lengthField p ≤ n) :
    extractBytes n p = (lengthField p, .ok (p.take (lengthField p))) := by
  rw [extractBytes, if_neg (by omega), if_neg (by omega), if_neg (by omega), if_neg (not_not.mpr hetx),
    if_neg (by omega)]

/-- R119's table: code, payload and the bytes left, for the bytes `p` from the first SOH on. -/
theorem extractBytes_table (n : Nat) (p : List Byte) :
    ((extractBytes n p).2.code, (extractBytes n p).2.payload, p.drop (extractBytes n p).1) =
      if p.length < 7 then (.incomplete, [], p)
      else if p.length < lengthField p then (.incomplete, [], p)
      else if lengthField p < 3 ∨ p.getD (lengthField p - 3) 0 ≠ etxByte then (.malformed, [], p)
      else if n < lengthField p then (.overflow, u16 (lengthField p), p.drop (lengthField p))
      else (.ok, u16 (lengthField p) ++ p.take (lengthField p), p.drop (lengthField p)) := by
  split_ifs with h7 hlen hbad hn
  · rw [extractBytes_incomplete n (.inl h7)]; rfl
  · rw [extractBytes_incomplete n (.inr hlen)]; rfl
  · rw [extractBytes_malformed_of n (by omega) (by omega) hbad]; rfl
  · obtain ⟨h3, hetx⟩ := not_or.mp hbad
    rw [extractBytes, if_neg h7, if_neg hlen, if_neg h3, if_neg hetx, if_pos hn]; rfl
  · obtain ⟨h3, hetx⟩ := not_or.mp hbad
    have htake : (p.take (lengthField p)).length = lengthField p := List.length_take_of_le (by omega)
    rw [extractBytes_ok_of (by omega) (by omega) (by omega) (not_not.mp hetx) (by omega)]
    simp only [Located.code, Located.payload, htake]

/-- What PK_LOCATE leaves is what the extractor leaves of the bytes from the first SOH on. -/
theorem drop_locateCount (n : Nat) (p : List Byte) :
    p.drop (locateCount n p) = (fromSoh p).drop (extractBytes n (fromSoh p)).1 := by
  rw [locateCount, ← List.drop_drop, ← fromSoh_eq_drop]

/-- Settles O34: the ring's contents after PK_LOCATE are what the extractor leaves. -/
theorem pkLocateTable : Obligations.PkLocateTable := by
  intro b cap s h
  refine ⟨(CommandRow.pkLocate b).decode_u16 cap, execPkLocate_badarg, fun hr hcap => ?_⟩
  intro p len
  have hlen : len = lengthField p := (be16_toNat _ _).symm
  have hle : locateCount cap.toNat (s.contents b) ≤ s.count b := by simpa using locateCount_le cap.toNat (s.contents b)
  refine ⟨_, _, _, p.drop (extractBytes cap.toNat p).1, execPkLocate_ready h hr hcap, s.answersOn_setRing b _ _ _,
    ⟨by simp, by simp, by simp⟩, ?_, ?_⟩
  · rw [State.contents_respond, State.contents_consume h hle, drop_locateCount]
    rfl
  · rw [hlen]
    exact extractBytes_table cap.toNat p

/-! ## A ring whose head is SOH -/

/-- With SOH at the head there is nothing to trim (R113). -/
theorem fromSoh_of_soh (h : p.getD 0 0 = sohByte) : fromSoh p = p := by
  cases p with
  | nil => rfl
  | cons v p =>
    obtain rfl : v = sohByte := h
    simp [fromSoh]

theorem locateCount_of_soh (n : Nat) (h : p.getD 0 0 = sohByte) : locateCount n p = (extractBytes n p).1 := by
  have hlen := congrArg List.length (fromSoh_eq_drop p)
  rw [fromSoh_of_soh h, List.length_drop] at hlen
  have := length_noise_le p
  rw [locateCount, fromSoh_of_soh h]
  omega

/-- A candidate at the head of a ready ring that is incomplete or malformed stays where it is (R116, R117). -/
theorem execPkLocate_keeps {x : Located} (h : s.ringInv b) (hr : (s.ring b).ready = true) (hcap : cap.toNat ≠ 0)
    (hsoh : (s.contents b).getD 0 0 = sohByte) (hx : extractBytes cap.toNat (s.contents b) = (0, x)) :
    execPkLocate b cap s = .next (s.respond x.code x.payload) := by
  rw [execPkLocate_ready h hr hcap, locateCount_of_soh _ hsoh, fromSoh_of_soh hsoh, hx, State.consume_zero h]

/-! ## Declared lengths 3 to 6 (R122) -/

/-- The two bytes of a small declared length. -/
theorem lengthField_bytes {n : Nat} (h : lengthField p = n) (hn : n < 256) :
    p.getD 1 0 = 0x00 ∧ p.getD 2 0 = BitVec.ofNat 8 n := by
  have hsum := (be16_toNat _ _).symm.trans h
  have hlo := (p.getD 2 0).isLt
  refine ⟨BitVec.eq_of_toNat_eq ?_, BitVec.eq_of_toNat_eq ?_⟩
  · change _ = 0
    omega
  · rw [BitVec.toNat_ofNat]
    omega

/-- Lengths 3, 4 and 5 put ETX on SOH or on the length field itself (R122). -/
theorem no_etx_of_length_3_4_5 (hsoh : p.getD 0 0 = sohByte)
    (h : lengthField p = 3 ∨ lengthField p = 4 ∨ lengthField p = 5) :
    p.getD (lengthField p - 3) 0 ≠ etxByte := by
  rcases h with h | h | h
  · rw [h, hsoh]
    decide
  · rw [h, (lengthField_bytes h (by decide)).1]
    decide
  · rw [h, (lengthField_bytes h (by decide)).2]
    decide

/-- Settles O37: lengths 3 to 5 cannot have ETX in its place; length 6 has it where offset 3 holds it. -/
theorem shortDeclaredLengths : Obligations.ShortDeclaredLengths := by
  intro b cap s h hr hcap hcount hbyte
  have hfield : declaredLength b s = lengthField (s.contents b) := declaredLength_eq (by omega)
  have hlong : 7 ≤ (s.contents b).length := by rwa [State.length_contents]
  have hsoh : (s.contents b).getD 0 0 = sohByte := (State.getD_contents s b 0 (by omega)).trans hbyte
  have hthree : (s.contents b).getD 3 0 = s.byteAt b 3 := State.getD_contents s b 0 (by omega)
  rw [hfield]
  refine ⟨fun hlen => ?_, fun hlen hno => ?_, fun hlen hetx hfits => ?_⟩
  · exact execPkLocate_keeps h hr hcap hsoh
      (extractBytes_malformed_of _ hlong (by omega) (.inr (no_etx_of_length_3_4_5 hsoh hlen)))
  · exact execPkLocate_keeps h hr hcap hsoh
      (extractBytes_malformed_of _ hlong (by omega) (.inr (by rw [hlen]; exact fun e => hno (hthree.symm.trans e))))
  · have hx := extractBytes_ok_of (n := cap.toNat) hlong (by omega) (by omega)
      (by rw [hlen]; exact hthree.trans hetx) (by omega)
    rw [hlen, ← State.front_eq_take s b (by omega)] at hx
    refine ⟨(s.consume b 6).respond .ok ([0x00, 0x06] ++ s.front b 6), ?_, s.answersOn_setRing b _ _ _, ?_, ?_⟩
    · show execPkLocate b cap s = _
      rw [execPkLocate_ready h hr hcap, locateCount_of_soh _ hsoh, fromSoh_of_soh hsoh, hx]
      simp only [Located.code, Located.payload, State.length_front]
      rfl
    · rw [State.contents_respond, State.contents_consume h (by omega)]
    · show execPkVerify (s.front b 6) s = _
      rw [execPkVerify, verify, if_pos (by simp)]
      rfl

/-! ## The stall (R123) -/

/-- Bytes from an SOH on whose declared length is above the usable capacity of `n` slots (R123). -/
structure Oversize (n : Nat) (p : List Byte) : Prop where
  field : 3 ≤ p.length
  soh : p.getD 0 0 = sohByte
  above : n - 1 < lengthField p

namespace Oversize

variable {n : Nat}

theorem append (h : Oversize n p) (q : List Byte) : Oversize n (p ++ q) where
  field := by rw [List.length_append]; exact Nat.le_add_right_of_le h.field
  soh := (List.getD_append _ _ _ _ (Nat.lt_of_lt_of_le (by decide) h.field)).trans h.soh
  above := (lengthField_append h.field q).symm ▸ h.above

/-- The bytes a ring of `n` slots can hold are never all of such a candidate (R123, R116). -/
theorem incomplete (h : Oversize n p) (hfits : p.length ≤ n - 1) (m : Nat) : extractBytes m p = (0, .incomplete) :=
  extractBytes_incomplete m (.inr (Nat.lt_of_le_of_lt hfits h.above))

end Oversize

theorem State.stalled_iff : s.stalled b ↔ (s.ring b).ready = true ∧ Oversize (s.size b) (s.contents b) := by
  constructor
  · rintro ⟨hr, hcount, hsoh, habove⟩
    exact ⟨hr, by rwa [State.length_contents], (State.getD_contents s b 0 (by omega)).trans hsoh,
      declaredLength_eq hcount ▸ habove⟩
  · rintro ⟨hr, hfield, hsoh, habove⟩
    rw [State.length_contents] at hfield
    exact ⟨hr, hfield, (State.getD_contents s b 0 (by omega)).symm.trans hsoh,
      (declaredLength_eq hfield).symm ▸ habove⟩

namespace State.stalled

theorem oversize (h : s.stalled b) : Oversize (s.size b) (s.contents b) := (State.stalled_iff.mp h).2

theorem incomplete (h : s.stalled b) (hinv : s.ringInv b) (n : Nat) :
    extractBytes n (s.contents b) = (0, .incomplete) :=
  h.oversize.incomplete (by have := State.count_lt hinv; rw [State.length_contents]; omega) n

theorem respond (h : s.stalled b) (c : Code) (q : List Byte) : (s.respond c q).stalled b := by
  rw [State.stalled_iff] at *
  simpa using h

/-- PK_LOCATE leaves a stalled ring as it is (R123). -/
theorem execPkLocate (h : s.stalled b) (hinv : s.ringInv b) (hcap : cap.toNat ≠ 0) :
    Machine.execPkLocate b cap s = .next (s.respond .incomplete []) :=
  execPkLocate_keeps hinv h.1 hcap h.oversize.soh (h.incomplete hinv _)

/-- POLL leaves a stalled `IN` as it is (R123). -/
theorem pollCycle (h : s.stalled .inbound) (hinv : s.ringInv .inbound) (ho : (s.ring .outbound).ready = true) :
    Machine.pollCycle s = s.respond .incomplete [] := by
  rw [pollCycle_eq hinv h.1 ho, fromSoh_of_soh h.oversize.soh, locateCount_of_soh _ h.oversize.soh, h.incomplete hinv,
    State.consume_zero hinv]

/-- The operations that read or take from a stalled ring, RB_GET, TX_GET and RB_CLEAR apart, only answer. -/
theorem of_consumes {i : Instr} (h : s.stalled b) (hinv : s.ringInv b) (hc : consumes i b = true) (hclear : i ≠ .rbClear b)
    (hget : i ≠ .rbGet b) (htx : b = .outbound → i ≠ .txGet) : Ends (fun t => t.stalled b) (exec i s) := by
  cases i with
  | rbGet b' | rbClear b' =>
    obtain rfl : b' = b := by simpa [consumes] using hc
    contradiction
  | txGet =>
    obtain rfl : b = .outbound := by simpa [consumes] using hc
    exact absurd rfl (htx rfl)
  | rbPeek b' off =>
    show Ends _ (execRbPeek b' off s)
    unfold execRbPeek
    split_ifs <;> exact h.respond _ _
  | pkLocate b' cap =>
    obtain rfl : b' = b := by simpa [consumes] using hc
    show Ends _ (Machine.execPkLocate b' cap s)
    by_cases hcap : cap.toNat = 0
    · rw [execPkLocate_badarg (.inr hcap)]
      exact h.respond _ _
    · rw [h.execPkLocate hinv hcap]
      exact h.respond _ _
  | poll =>
    obtain rfl : b = .inbound := by simpa [consumes] using hc
    show (Machine.pollCycle s).stalled .inbound
    cases ho : (s.ring .outbound).ready with
    | false =>
      rw [pollCycle_badarg (.inr ho)]
      exact h.respond _ _
    | true =>
      rw [h.pollCycle hinv ho]
      exact h.respond _ _
  | _ => exact absurd hc (by simp [consumes])

/-- What adds bytes behind a stalled candidate leaves it stalled. -/
theorem of_append {added : List Byte} (h : s.stalled b) (hready : (t.ring b).ready = true) (hcfg : t.cfg = s.cfg)
    (hcontents : t.contents b = s.contents b ++ added) : t.stalled b := by
  have hsize : t.size b = s.size b := by simp only [State.size, hcfg]
  rw [State.stalled_iff, hsize, hcontents]
  exact ⟨hready, h.oversize.append added⟩

end State.stalled

/-- Settles O38: an operation that is no consumer of the ring can only add bytes behind the candidate. -/
theorem oversizeLengthStallsTheRing : Obligations.OversizeLengthStallsTheRing := by
  intro s b hinv h
  refine ⟨fun cap hcap => h.execPkLocate (hinv.ring b) hcap, ?_, fun i t hinit hclear hget htx hexec => ?_⟩
  · rintro rfl ho
    exact congrArg _ (h.pollCycle (hinv.ring _) ho)
  · cases hc : consumes i b with
    | true => exact (h.of_consumes (hinv.ring b) hc hclear hget htx).of_next hexec
    | false =>
      obtain ⟨k, hk, hmove⟩ := exec_movesFifo hinv hinit hexec
      have hcontents := hmove.contents
      rw [hk hc, List.drop_zero] at hcontents
      exact h.of_append ((exec_effects hexec).ready h.1) (exec_effects hexec).cfg hcontents

end Sys2Proof.Machine
end

section
/-! PROOF. Building, verifying and extracting a packet (42_packet_codec R110, R120, R121, R124, R125): settles O28, O29, O31,
O32 and O33. -/

namespace Sys2Proof.Machine

variable {s : State} {cap : Half} {msg pkt : List Byte}

/-! ## PK_BUILD (R110) -/

theorem execPkBuild_badarg (cap : Half) (s : State) (h : msg.length = 0 ∨ 65535 < 7 + msg.length) :
    execPkBuild cap msg s = .next (s.respond .badarg []) := by
  have hbuild : build cap.toNat msg = .error .badarg := by
    unfold build
    by_cases h0 : msg.length = 0
    · rw [if_pos h0]
    · rw [if_neg h0, if_pos (h.resolve_left h0)]
  rw [execPkBuild, hbuild]

theorem execPkBuild_overflow (s : State) (h1 : 1 ≤ msg.length) (h2 : 7 + msg.length ≤ 65535)
    (hcap : cap.toNat < 7 + msg.length) : execPkBuild cap msg s = .next (s.respond .overflow []) := by
  rw [execPkBuild, build, if_neg (by omega), if_neg (by omega), if_pos hcap]

theorem execPkBuild_ok (s : State) (h1 : 1 ≤ msg.length) (h2 : 7 + msg.length ≤ 65535)
    (hcap : 7 + msg.length ≤ cap.toNat) :
    execPkBuild cap msg s = .next (s.respond .ok (u16 (frameOf msg).length ++ frameOf msg)) := by
  rw [execPkBuild, build_ok h1 h2 hcap]

/-- Settles O28: the frame's head is written out byte by byte, and the checksum is taken over it. -/
theorem pkBuildFramesTheMessage : Obligations.PkBuildFramesTheMessage := by
  intro cap msg s
  refine ⟨fun hlen => CommandRow.pkBuild.decode_capData cap (decide_eq_true hlen),
    fun h => execPkBuild_badarg cap s (.inl h), fun h => execPkBuild_badarg cap s (.inr h), execPkBuild_overflow s,
    fun h1 h2 hcap => ?_⟩
  intro len p
  refine (execPkBuild_ok s h1 h2 hcap).trans ?_
  rw [length_frameOf]
  rfl

/-! ## PK_VERIFY (R120) -/

theorem execPkVerify_ok (s : State) (h : verify pkt = none) : execPkVerify pkt s = .next (s.respond .ok []) := by
  rw [execPkVerify, h]

theorem execPkVerify_fail (s : State) {r : Reason} (h : verify pkt = some r) :
    execPkVerify pkt s = .next (s.respond .verifyFail [r.byte]) := by
  rw [execPkVerify, h]

/-- The six checks with the bytes and the `u16` fields of R120 written as numbers. -/
theorem verify_eq (pkt : List Byte) : verify pkt =
    if pkt.length < 7 then some .lenShort
    else if pkt.getD 0 0 ≠ 0x01 then some .badSoh
    else if pkt.getD 3 0 ≠ 0x02 then some .badStx
    else if pkt.getD (pkt.length - 3) 0 ≠ 0x03 then some .badEtx
    else if (pkt.getD 1 0).toNat * 256 + (pkt.getD 2 0).toNat ≠ pkt.length then some .lenMismatch
    else if (crc16 (pkt.take (pkt.length - 2))).toNat ≠
        (pkt.getD (pkt.length - 2) 0).toNat * 256 + (pkt.getD (pkt.length - 1) 0).toNat then some .badCrc
    else none := by
  unfold verify
  by_cases h7 : pkt.length < 7
  · rw [if_pos h7, if_pos h7]
  · have hlen : (be16At pkt 1).toNat = (pkt.getD 1 0).toNat * 256 + (pkt.getD 2 0).toNat := be16_toNat _ _
    have hcrc : (be16At pkt (pkt.length - 2)).toNat =
        (pkt.getD (pkt.length - 2) 0).toNat * 256 + (pkt.getD (pkt.length - 1) 0).toNat := by
      rw [be16At, be16_toNat, show pkt.length - 2 + 1 = pkt.length - 1 by omega]
      rfl
    rw [if_neg h7, if_neg h7, ← hlen, ← hcrc]
    simp only [ne_eq, BitVec.toNat_inj]
    rfl

/-- Settles O29: PK_VERIFY answers OK or the reason of the first failing check. -/
theorem pkVerifyChecksInOrder : Obligations.PkVerifyChecksInOrder := by
  intro pkt s
  refine ⟨fun hlen => CommandRow.pkVerify.decode_data (decide_eq_true hlen), ?_⟩
  show execPkVerify pkt s = _
  rw [execPkVerify, verify_eq]
  split_ifs <;> rfl

/-! ## PK_EXTRACT_MSG (R121) -/

theorem execPkExtractMsg_badarg (cap : Half) (s : State) (h : pkt.length < 7) :
    execPkExtractMsg cap pkt s = .next (s.respond .badarg []) := by
  rw [execPkExtractMsg, extractMessage, if_pos h]

theorem execPkExtractMsg_overflow (s : State) (h : 7 ≤ pkt.length) (hcap : cap.toNat < pkt.length - 7 + 1) :
    execPkExtractMsg cap pkt s = .next (s.respond .overflow []) := by
  rw [execPkExtractMsg, extractMessage, if_neg (by omega), if_pos hcap]

theorem execPkExtractMsg_ok (s : State) (h : 7 ≤ pkt.length) (hcap : pkt.length - 7 + 1 ≤ cap.toNat) :
    execPkExtractMsg cap pkt s =
      .next (s.respond .ok (u16 (pkt.length - 7) ++ (pkt.drop 4).take (pkt.length - 7) ++ [0x00])) := by
  have hspan : span pkt 4 (pkt.length - 3) = (pkt.drop 4).take (pkt.length - 7) := by
    rw [span, Nat.sub_sub]
  have hlen : ((pkt.drop 4).take (pkt.length - 7)).length = pkt.length - 7 :=
    List.length_take_of_le (by rw [List.length_drop]; omega)
  rw [execPkExtractMsg, extractMessage, if_neg (by omega), if_neg (by omega), hspan]
  simp only [hlen]

/-- Settles O31: one clause per result of `extractMessage`. -/
theorem pkExtractMsgCopiesThePayload : Obligations.PkExtractMsgCopiesThePayload := fun cap _ s =>
  ⟨fun hlen => CommandRow.pkExtractMsg.decode_capData cap (decide_eq_true hlen), execPkExtractMsg_badarg cap s,
    execPkExtractMsg_overflow s, execPkExtractMsg_ok s⟩

/-! ## Built packets (R124) -/

/-- The frame of a message passes all six checks when the length field can hold its length (R50 to R53, R120). -/
theorem verify_frameOf (h : 7 + msg.length ≤ 65535) : verify (frameOf msg) = none := by
  refine (verify_frameBytes_eq_none_iff ..).mpr (frameAgrees_iff.mpr ⟨?_, rfl⟩)
  rw [BitVec.toNat_ofNat]
  omega

/-- The payload of a frame is its message. -/
theorem take_drop_frameOf (msg : List Byte) : ((frameOf msg).drop 4).take msg.length = msg := by
  rw [frameOf, frameBytes_eq_cut]
  simp

/-- Settles O32: the built frame is verified, and its payload is the message. -/
theorem buildVerifyExtractRoundTrip : Obligations.BuildVerifyExtractRoundTrip := by
  intro cap cap' msg s h1 hcap hcap'
  have h2 : 7 + msg.length ≤ 65535 := by have := cap.isLt; omega
  have hlen := length_frameOf msg
  have hout : (frameOf msg).length - 7 = msg.length := by omega
  have hextract := execPkExtractMsg_ok (cap := cap') (pkt := frameOf msg) s (by omega) (by omega)
  rw [hout, take_drop_frameOf] at hextract
  exact ⟨frameOf msg, hlen, execPkBuild_ok s h1 h2 hcap, execPkVerify_ok s (verify_frameOf h2), hextract⟩

/-- What PK_BUILD builds is the frame of a message that the length field and the capacity can hold (R110). -/
theorem build_eq_ok {n : Nat} (h : build n msg = .ok pkt) :
    1 ≤ msg.length ∧ 7 + msg.length ≤ 65535 ∧ 7 + msg.length ≤ n ∧ pkt = frameOf msg := by
  unfold build at h
  split_ifs at h with h1 h2 h3
  exact ⟨by omega, by omega, by omega, (Except.ok.inj h).symm⟩

/-- A built packet passes PK_VERIFY and fits the capacity it was built for. -/
theorem verify_of_build {n : Nat} (h : build n msg = .ok pkt) : verify pkt = none ∧ pkt.length ≤ n := by
  obtain ⟨-, h2, h3, rfl⟩ := build_eq_ok h
  exact ⟨verify_frameOf h2, (length_frameOf msg).trans_le h3⟩

/-! ## One byte changed (R125) -/

/-- Changing one byte changes the checksum: the accumulators differ behind that byte, and stay different. -/
theorem crc16_set_ne {p : List Byte} {i : Nat} {v : Byte} (hi : i < p.length) (hv : v ≠ p[i]) :
    crc16 (p.set i v) ≠ crc16 p := by
  intro h
  have hsplit : p = p.take i ++ p[i] :: p.drop (i + 1) := by simp
  rw [List.set_eq_take_append_cons_drop, if_pos hi] at h
  conv_rhs at h => rw [hsplit]
  rw [crc16_append, crc16_append, List.foldl_cons, List.foldl_cons] at h
  exact hv (crcUpdate_inj_byte (foldl_crcUpdate_inj _ h))

theorem byteOf_set_self {p : List Byte} {i : Nat} (v : Byte) (hi : i < p.length) : byteOf (p.set i v) i = v := by
  simp [byteOf, hi]

theorem byteOf_set_ne {p : List Byte} {i j : Nat} (v : Byte) (h : i ≠ j) : byteOf (p.set i v) j = byteOf p j := by
  simp [byteOf, List.getElem?_set_ne h]

theorem be16_inj {a b c d : Byte} : be16 a b = be16 c d ↔ a = c ∧ b = d := by
  constructor
  · intro h
    exact ⟨by rw [← hiByte_be16 a b, h, hiByte_be16], by rw [← loByte_be16 a b, h, loByte_be16]⟩
  · rintro ⟨rfl, rfl⟩
    rfl

/-- Changing a byte of a `u16` field changes the field. -/
theorem be16At_set_ne {p : List Byte} {i j : Nat} {v : Byte} (hi : i < p.length) (hv : v ≠ byteOf p i)
    (hij : i = j ∨ i = j + 1) : be16At (p.set i v) j ≠ be16At p j := by
  intro h
  obtain ⟨hhi, hlo⟩ := be16_inj.mp h
  rcases hij with rfl | rfl
  · exact hv ((byteOf_set_self v hi).symm.trans hhi)
  · exact hv ((byteOf_set_self v hi).symm.trans hlo)

/-- Changing a byte outside a `u16` field leaves the field. -/
theorem be16At_set_of_ne {p : List Byte} {i j : Nat} (v : Byte) (h : i ≠ j) (h' : i ≠ j + 1) :
    be16At (p.set i v) j = be16At p j := by
  rw [be16At, be16At, byteOf_set_ne v h, byteOf_set_ne v h']

/-- Any one changed byte of a packet whose checksum agrees, be it covered or in the field itself, makes it disagree. -/
theorem checksum_set_ne {i : Nat} {v : Byte} (h : crc16 (span pkt 0 (pkt.length - 2)) = be16At pkt (pkt.length - 2))
    (hi : i < pkt.length) (hv : v ≠ byteOf pkt i) :
    crc16 (span (pkt.set i v) 0 (pkt.length - 2)) ≠ be16At (pkt.set i v) (pkt.length - 2) := by
  have hspan : ∀ p : List Byte, span p 0 (pkt.length - 2) = p.take (pkt.length - 2) := fun _ => rfl
  rw [hspan] at h ⊢
  by_cases hcovered : i < pkt.length - 2
  · rw [be16At_set_of_ne v (by omega) (by omega), ← h, List.take_set]
    exact crc16_set_ne (by rw [List.length_take]; omega) (by simpa [byteOf, hi] using hv)
  · rw [List.take_set_of_le (by omega), h]
    exact (be16At_set_ne hi hv (by omega)).symm

/-- The check that fails when byte `i` of an accepted packet of `n` bytes is changed (R125). -/
def reasonAt (n i : Nat) : Reason :=
  if i = 0 then .badSoh
  else if i ≤ 2 then .lenMismatch
  else if i = 3 then .badStx
  else if i < n - 3 then .badCrc
  else if i = n - 3 then .badEtx
  else .badCrc

/-- Any one changed byte of an accepted packet makes PK_VERIFY fail with the reason of its position: every check before that
one reads bytes that did not change. -/
theorem verify_set {i : Nat} {v : Byte} (h : verify pkt = none) (hi : i < pkt.length) (hv : v ≠ byteOf pkt i) :
    verify (pkt.set i v) = some (reasonAt pkt.length i) := by
  obtain ⟨h7, hsoh, hstx, hetx, hlen, hcrc⟩ := (verify_eq_none_iff pkt).mp h
  have hself := byteOf_set_self v hi
  unfold verify reasonAt
  rw [List.length_set, if_neg (Nat.not_lt.mpr h7)]
  by_cases h0 : i = 0
  · subst h0
    rw [hself, if_pos (hsoh ▸ hv), if_pos rfl]
  rw [byteOf_set_ne v h0, if_neg (not_not.mpr hsoh), if_neg h0]
  by_cases h3 : i = 3
  · subst h3
    rw [hself, if_pos (hstx ▸ hv), if_neg (by decide), if_pos rfl]
  rw [byteOf_set_ne v h3, if_neg (not_not.mpr hstx), if_neg h3]
  by_cases hend : i = pkt.length - 3
  · subst hend
    rw [hself, if_pos (hetx ▸ hv), if_neg (by omega), if_neg (Nat.lt_irrefl _), if_pos rfl]
  rw [byteOf_set_ne v hend, if_neg (not_not.mpr hetx), if_neg hend, ite_self]
  by_cases h2 : i ≤ 2
  · have hfield := be16At_set_ne (j := 1) hi hv (by omega)
    have hother : (be16At (pkt.set i v) 1).toNat ≠ pkt.length := fun e =>
      hfield (BitVec.eq_of_toNat_eq (e.trans hlen.symm))
    rw [if_pos hother, if_pos h2]
  rw [be16At_set_of_ne v (by omega) (by omega), if_neg (not_not.mpr hlen), if_neg h2]
  exact if_pos (checksum_set_ne hcrc hi hv)

/-- Flipping a bit changes the byte. -/
theorem xor_bit_ne (v : Byte) {bit : Nat} (h : bit < 8) : v ^^^ BitVec.ofNat 8 (2 ^ bit) ≠ v := by
  have hbit : ∀ k < 8, BitVec.ofNat 8 (2 ^ k) ≠ 0 := by decide
  exact fun e => hbit bit h ((BitVec.xor_right_inj v).mp (e.trans BitVec.xor_zero.symm))

/-- Settles O33: a flipped bit is a changed byte. -/
theorem singleBitFlipFailsVerify : Obligations.SingleBitFlipFailsVerify := by
  intro cap msg pkt s hbuild idx hidx bit hbit
  refine (execPkVerify_fail s (verify_set (verify_of_build hbuild).1 hidx (xor_bit_ne _ hbit))).trans ?_
  unfold reasonAt
  split_ifs <;> rfl

end Sys2Proof.Machine
end

section
/-! PROOF. PK_LOCATE on frames in a ring (42_packet_codec R126, R127): settles O35 and O36. -/

namespace Sys2Proof.Machine

variable {s : State} {b : RingSel} {cap : Half} {pkt : List Byte} {n : Nat}

/-! ## The extractor on a frame (R120) -/

theorem soh_of_verify (h : verify pkt = none) : pkt.getD 0 0 = sohByte := by
  obtain ⟨-, hsoh, -⟩ := (verify_eq_none_iff pkt).mp h
  exact hsoh

theorem lengthField_of_verify (h : verify pkt = none) : lengthField pkt = pkt.length := by
  obtain ⟨-, -, -, -, hlen, -⟩ := (verify_eq_none_iff pkt).mp h
  exact hlen

/-- A frame that fits is extracted whole, whatever stands behind it. -/
theorem extractBytes_frame (h : verify pkt = none) (hfits : pkt.length ≤ n) (rest : List Byte) :
    extractBytes n (pkt ++ rest) = (pkt.length, .ok pkt) := by
  have h7 := length_of_verify h
  obtain ⟨-, -, -, hetx, -⟩ := (verify_eq_none_iff pkt).mp h
  have hfield : lengthField (pkt ++ rest) = pkt.length :=
    (lengthField_append (by omega) rest).trans (lengthField_of_verify h)
  have hend : (pkt ++ rest).getD (pkt.length - 3) 0 = etxByte :=
    (List.getD_append _ _ _ _ (by omega)).trans hetx
  have hlen : (pkt ++ rest).length = pkt.length + rest.length := List.length_append
  rw [extractBytes_ok_of (by omega) (by omega) (by omega) (by rw [hfield]; exact hend) (by omega), hfield,
    List.take_left]

/-- A frame that has not arrived whole is incomplete (R114, R116). -/
theorem extractBytes_of_unfinished_frame {p q : List Byte} (h : verify (p ++ q) = none) (hq : q ≠ []) :
    extractBytes n p = (0, .incomplete) := by
  refine extractBytes_incomplete n ?_
  by_cases h7 : p.length < 7
  · exact .inl h7
  · have hfield : lengthField p = (p ++ q).length :=
      (lengthField_append (by omega) q).symm.trans (lengthField_of_verify h)
    have hpos := List.length_pos_of_ne_nil hq
    rw [List.length_append] at hfield
    exact .inr (by omega)

/-! ## Noise before a frame (R126) -/

/-- The trim passes over bytes without SOH and stops at the SOH behind them (R113). -/
theorem fromSoh_append {g p : List Byte} (hg : ∀ v ∈ g, v ≠ sohByte) (hp : p.getD 0 0 = sohByte) : fromSoh (g ++ p) = p := by
  rw [fromSoh, List.dropWhile_append_of_pos (fun v hv => bne_iff_ne.mpr (hg v hv))]
  exact fromSoh_of_soh hp

/-- Settles O35: what is left after the trim is the frame and the rest, and the extractor takes the frame. -/
theorem locateResynchronises : Obligations.LocateResynchronises := by
  intro b cap s garbage msg pkt rest h hr hg hbuild hcontents
  obtain ⟨hv, hfits⟩ := verify_of_build hbuild
  have h7 := length_of_verify hv
  have hsoh : (pkt ++ rest).getD 0 0 = sohByte := (List.getD_append _ _ _ _ (by omega)).trans (soh_of_verify hv)
  have hfrom : fromSoh (s.contents b) = pkt ++ rest := by
    rw [hcontents, List.append_assoc, fromSoh_append hg hsoh]
  have hx := extractBytes_frame hv hfits rest
  have hle : locateCount cap.toNat (s.contents b) ≤ s.count b := by simpa using locateCount_le cap.toNat (s.contents b)
  have hexec : execPkLocate b cap s =
      .next ((s.consume b (locateCount cap.toNat (s.contents b))).respond .ok (u16 pkt.length ++ pkt)) := by
    rw [execPkLocate_ready h hr (by omega), hfrom, hx]
    rfl
  refine ⟨_, hexec, s.answersOn_setRing b _ .ok _, ?_⟩
  rw [State.contents_respond, State.contents_consume h hle, drop_locateCount, hfrom, hx, List.drop_left]

/-! ## A frame arriving byte by byte (R127) -/

/-- The inputs that put the bytes `q` one by one, each followed by PK_LOCATE. -/
abbrev putsWithLocates (b : RingSel) (cap : Half) (who who' : Agent) (q : List Byte) : List Input :=
  q.flatMap fun v => [.issue who (.rbPut b v), .issue who' (.pkLocate b cap)]

namespace ReadyHolding

variable {p : List Byte} {l : List Input} {who who' : Agent}

theorem consumeFront (h : ReadyHolding b n p l s) {k : Nat} (hk : k ≤ p.length) :
    ReadyHolding b n (p.drop k) l (s.consume b k) where
  inv := State.ringInv_consume h.inv (h.count.symm ▸ hk)
  ready := by simpa using h.ready
  size := by simpa using h.size
  contents := by rw [State.contents_consume h.inv (h.count.symm ▸ hk), h.contents]
  inputs := by simpa using h.inputs

/-- One PK_LOCATE on a ready ring, at the ports. -/
theorem locate (h : ReadyHolding b n p (.issue who (.pkLocate b cap) :: l) s) (hcap : cap.toNat ≠ 0) :
    ∃ t, ReadyHolding b n (p.drop (locateCount cap.toNat p)) l t ∧
      RunAnswers s [⟨(extractBytes cap.toNat (fromSoh p)).2.code, (extractBytes cap.toNat (fromSoh p)).2.payload⟩] t := by
  have hexec := execPkLocate_ready h.takeInput.inv h.takeInput.ready hcap
  rw [h.takeInput.contents] at hexec
  exact h.step hexec (by simp) (h.takeInput.consumeFront (locateCount_le _ p))

theorem locate_incomplete (h : ReadyHolding b n p (.issue who (.pkLocate b cap) :: l) s) (hcap : cap.toNat ≠ 0)
    (hfrom : fromSoh p = p) (hx : extractBytes cap.toNat p = (0, .incomplete)) :
    ∃ t, ReadyHolding b n p l t ∧ RunAnswers s [⟨.incomplete, []⟩] t := by
  have hloc := h.locate hcap
  rwa [drop_locateCount, hfrom, hx, List.drop_zero] at hloc

theorem locate_frame (h : ReadyHolding b n pkt (.issue who (.pkLocate b cap) :: l) s) (hv : verify pkt = none)
    (hfits : pkt.length ≤ cap.toNat) :
    ∃ t, ReadyHolding b n [] l t ∧ RunAnswers s [⟨.ok, u16 pkt.length ++ pkt⟩] t := by
  have h7 := length_of_verify hv
  have hx := extractBytes_frame hv hfits []
  rw [List.append_nil] at hx
  have hloc := h.locate (by omega)
  rwa [drop_locateCount, fromSoh_of_soh (soh_of_verify hv), hx, List.drop_length] at hloc

/-- With the bytes `p` of a frame in the ring, the others arriving one by one are answered INCOMPLETE until the last. -/
theorem arrives {q : List Byte} (hq : q ≠ []) (h : ReadyHolding b n p (putsWithLocates b cap who who' q ++ l) s)
    (hv : verify (p ++ q) = none) (hroom : (p ++ q).length ≤ n - 1) (hfits : (p ++ q).length ≤ cap.toNat) :
    ∃ t, ReadyHolding b n [] l t ∧ RunAnswers s (q.dropLast.flatMap (fun _ => [⟨.ok, []⟩, ⟨.incomplete, []⟩]) ++
      [⟨.ok, []⟩, ⟨.ok, u16 (p ++ q).length ++ (p ++ q)⟩]) t := by
  induction q generalizing p s with
  | nil => exact absurd rfl hq
  | cons v q ih =>
    have hsplit : p ++ v :: q = p ++ [v] ++ q := by simp
    obtain ⟨u, hu, hput⟩ := put_accepted h (by simp at hroom; omega)
    rw [hsplit] at hv hroom hfits ⊢
    cases q with
    | nil =>
      rw [List.append_nil] at *
      obtain ⟨t, ht, hloc⟩ := hu.locate_frame hv hfits
      exact ⟨t, ht, hput.trans hloc⟩
    | cons w q =>
      have hcap : cap.toNat ≠ 0 := by have := length_of_verify hv; omega
      have hsoh : (p ++ [v]).getD 0 0 = sohByte :=
        (List.getD_append _ _ _ _ (by simp)).symm.trans (soh_of_verify hv)
      obtain ⟨u', hu', hloc⟩ := hu.locate_incomplete hcap (fromSoh_of_soh hsoh)
        (extractBytes_of_unfinished_frame hv (List.cons_ne_nil w q))
      obtain ⟨t, ht, hrest⟩ := ih (List.cons_ne_nil w q) hu' hv hroom hfits
      exact ⟨t, ht, (hput.trans hloc).trans hrest⟩

end ReadyHolding

/-- Settles O36: by induction on the bytes still to come; the last call finds the ring empty. -/
theorem frameArrivingByteByByte : Obligations.FrameArrivingByteByByte := by
  intro s b who who' cap pkt rest h hr hempty hv hroom hfits hinputs
  have h7 := length_of_verify hv
  have hpkt : pkt ≠ [] := by rintro rfl; simp at h7
  have hs : ReadyHolding b (s.size b) [] _ s := ⟨h, hr, rfl, State.contents_of_count_zero hempty, hinputs⟩
  obtain ⟨u, hu, harrive⟩ := hs.arrives hpkt hv hroom hfits
  obtain ⟨t, ht, hlast⟩ := hu.locate_incomplete (by omega) rfl (extractBytes_incomplete _ (.inl (by decide)))
  have hall := harrive.trans hlast
  refine ⟨t, ?_, ht.inputs, ht.contents, ?_⟩
  · rw [show 2 * pkt.length + 1 = (pkt.length - 1) * 2 + 3 by omega]
    simpa using hall.run
  · rw [hall.outputs]
    simp [List.map_flatMap, u16]

end Sys2Proof.Machine
end

section
/-! PROOF. The handshake table, and bytes sent into `OUT` by HS_SEND and INJECT (43_handshake_and_link R140 to R146, R154):
settles O40, O42 and O45. -/

namespace Sys2Proof.Machine

variable {s : State} {b : RingSel} {vs : List Byte}

/-! ## HS_ON_MESSAGE (R140) -/

/-- Settles O40: the four tokens of the table, and every other message as UNKNOWN. -/
theorem handshakeTable : Obligations.HandshakeTable := by
  refine ⟨fun msg hlen => CommandRow.hsOnMessage.decode_data (decide_eq_true hlen), fun s => ?_⟩
  have known : ∀ t ∈ tokenTable, exec (.hsOnMessage (tokenBytes s.cfg.tokenNul t)) s =
      .next (s.respond .ok [tokenId t, replyId (replyTo t)]) := fun t ht => congrArg _ (onMessage_tokenBytes ht)
  exact ⟨known .marco (by decide), known .polo (by decide), known .ok (by decide), known .error (by decide),
    fun msg h => congrArg _ (onMessage_unknown h)⟩

/-! ## Bytes sent, whole or cut (R145, R154) -/

/-- Bytes that fit are all enqueued. -/
theorem sendBytes_whole (h : s.ringInv b) (hr : (s.ring b).ready = true) (hfits : vs.length ≤ s.free b) :
    (sendBytes b vs s).2 = vs.length :=
  (sendBytes_spec vs h hr).1.trans (Nat.min_eq_left hfits)

/-- Of more bytes than fit, as many are enqueued as there is room. -/
theorem sendBytes_cut (h : s.ringInv b) (hr : (s.ring b).ready = true) (hcut : s.free b < vs.length) :
    (sendBytes b vs s).2 = s.free b :=
  (sendBytes_spec vs h hr).1.trans (Nat.min_eq_right (Nat.le_of_lt hcut))

/-- Sending bytes into ring `b` and a response are a producer's effect on ring `b` (20_memory R42). -/
theorem State.answersOn_sendBytes (b : RingSel) (vs : List Byte) (s : State) (c : Code) (p : List Byte) :
    s.answersOn b (.response ⟨c, p⟩) ((sendBytes b vs s).1.respond c p) ∧
      s.headKept b ((sendBytes b vs s).1.respond c p) := by
  obtain ⟨hcfg, hresets, hinputs, houtputs, hother, hhead, hready⟩ := sendBytes_frame b vs s
  simp only [State.answersOn, State.headKept, State.ring_respond, State.outputs_respond, houtputs]
  exact ⟨⟨hcfg, hresets, hinputs, trivial, fun hb => hother _ hb.symm, fun hb => hother _ hb.symm⟩, hhead, hready⟩

/-! ## HS_SEND (R145) -/

section

variable {r : Byte} {u : Token}

theorem execHsSend_whole (h : s.ringInv .outbound) (hr : (s.ring .outbound).ready = true) (hu : replyOfId r = some u)
    (hfits : (frameOf (tokenBytes s.cfg.tokenNul u)).length ≤ s.free .outbound) :
    execHsSend r s = .next ((sendBytes .outbound (frameOf (tokenBytes s.cfg.tokenNul u)) s).1.respond .ok
      (u16 (frameOf (tokenBytes s.cfg.tokenNul u)).length)) := by
  rw [execHsSend, send_eq hr hu, sendReply_eq (replyOfId_ne_unknown hu), if_pos (sendBytes_whole h hr hfits)]

theorem execHsSend_cut (h : s.ringInv .outbound) (hr : (s.ring .outbound).ready = true) (hu : replyOfId r = some u)
    (hcut : s.free .outbound < (frameOf (tokenBytes s.cfg.tokenNul u)).length) :
    execHsSend r s = .next ((sendBytes .outbound (frameOf (tokenBytes s.cfg.tokenNul u)) s).1.respond .sendFailed
      (u16 (s.free .outbound))) := by
  have hsent := sendBytes_cut h hr hcut
  rw [execHsSend, send_eq hr hu, sendReply_eq (replyOfId_ne_unknown hu), if_neg (hsent ▸ Nat.ne_of_lt hcut), hsent]

end

/-- Settles O42: the reply's frame is sent whole or as far as it fits. -/
theorem hsSendEnqueuesTheReply : Obligations.HsSendEnqueuesTheReply := by
  intro r s h
  refine ⟨CommandRow.hsSend.decode_eq [r], fun href => ?_, fun tok hr htok => ?_⟩
  · exact execHsSend_refused (href.imp_right fun ⟨h2, h3, h4⟩ => replyOfId_eq_none h2 h3 h4)
  · have hu : replyOfId r = some tok := by
      rcases htok with ⟨rfl, rfl⟩ | ⟨rfl, rfl⟩ | ⟨rfl, rfl⟩ <;> rfl
    have hsent := contents_sendBytes (frameOf (tokenBytes s.cfg.tokenNul tok)) h hr
    refine ⟨_, build_token s.cfg (replyOfId_ne_unknown hu), fun hfits => ?_, fun hcut => ?_⟩
    · obtain ⟨hframe, hkept⟩ := s.answersOn_sendBytes .outbound (frameOf (tokenBytes s.cfg.tokenNul tok)) .ok _
      rw [List.take_of_length_le hfits] at hsent
      exact ⟨_, execHsSend_whole h hr hu hfits, hframe, hkept, by rw [State.contents_respond, hsent]⟩
    · obtain ⟨hframe, hkept⟩ := s.answersOn_sendBytes .outbound (frameOf (tokenBytes s.cfg.tokenNul tok)) .sendFailed _
      exact ⟨_, execHsSend_cut h hr hu hcut, hframe, hkept, by rw [State.contents_respond, hsent]⟩

/-! ## INJECT (R154) -/

/-- An empty ring has room for all but one of its slots (40 R85). -/
theorem State.free_of_count_eq_zero (h : s.count b = 0) : s.free b = s.size b - 1 := by rw [State.free, h, Nat.sub_zero]

section

variable {data : List Byte}

theorem execInject_badarg (h : (s.ring .outbound).ready = false ∨ data.length = 0) :
    execInject data s = .next (s.respond .badarg []) := if_pos h

/-- INJECT's argument checks, passed. -/
theorem inject_accepted (hr : (s.ring .outbound).ready = true) (hdata : 1 ≤ data.length) :
    ¬((s.ring .outbound).ready = false ∨ data.length = 0) := by
  simp only [hr, Bool.true_eq_false, false_or]
  exact Nat.ne_of_gt hdata

theorem execInject_busy (hr : (s.ring .outbound).ready = true) (hdata : 1 ≤ data.length) (hcount : s.count .outbound ≠ 0) :
    execInject data s = .next (s.respond .busy []) := by
  rw [execInject, if_neg (inject_accepted hr hdata), if_pos hcount]

theorem execInject_whole (h : s.ringInv .outbound) (hr : (s.ring .outbound).ready = true) (hdata : 1 ≤ data.length)
    (hcount : s.count .outbound = 0) (hfits : data.length ≤ s.free .outbound) :
    execInject data s = .next ((sendBytes .outbound data s).1.respond .ok []) := by
  rw [execInject, if_neg (inject_accepted hr hdata), if_neg (not_not.mpr hcount), if_pos (sendBytes_whole h hr hfits)]

theorem execInject_cut (h : s.ringInv .outbound) (hr : (s.ring .outbound).ready = true) (hdata : 1 ≤ data.length)
    (hcount : s.count .outbound = 0) (hcut : s.free .outbound < data.length) :
    execInject data s = .next ((sendBytes .outbound data s).1.respond .sendFailed (u16 (s.free .outbound))) := by
  have hsent := sendBytes_cut h hr hcut
  rw [execInject, if_neg (inject_accepted hr hdata), if_neg (not_not.mpr hcount),
    if_neg (hsent ▸ Nat.ne_of_lt hcut), hsent]

end

/-- Settles O45: the injected bytes are sent into an empty `OUT`, whole or as far as they fit. -/
theorem injectOnlyWhenOutIsEmpty : Obligations.InjectOnlyWhenOutIsEmpty := by
  intro data s h
  refine ⟨fun hlen => CommandRow.inject.decode_data (decide_eq_true hlen), execInject_badarg, execInject_busy,
    fun hr hdata hcount => ?_⟩
  have hsent := contents_sendBytes data h hr
  have hempty : s.contents .outbound = [] := List.eq_nil_of_length_eq_zero (by rw [State.length_contents, hcount])
  rw [hempty, List.nil_append] at hsent
  rw [← State.free_of_count_eq_zero hcount]
  rcases Nat.lt_or_ge (s.free .outbound) data.length with hcut | hfits
  · obtain ⟨hframe, hkept⟩ := s.answersOn_sendBytes .outbound data .sendFailed _
    refine ⟨_, execInject_cut h hr hdata hcount hcut, hkept, fun hfits => ?_, fun _ => ⟨hframe, ?_⟩⟩
    · exact absurd hfits (Nat.not_le.mpr hcut)
    · rw [State.contents_respond, hsent]
  · obtain ⟨hframe, hkept⟩ := s.answersOn_sendBytes .outbound data .ok _
    refine ⟨_, execInject_whole h hr hdata hcount hfits, hkept, fun _ => ⟨hframe, ?_⟩, fun hcut => ?_⟩
    · rw [State.contents_respond, hsent, List.take_of_length_le hfits]
    · exact absurd hfits (Nat.not_le.mpr hcut)

end Sys2Proof.Machine
end

section
/-! PROOF. Single transfers on the RX and TX ports (43_handshake_and_link R150, R151): settles O46 and O47. -/

namespace Sys2Proof.Machine

variable {s : State}

/-- Settles O46: RX_PUT is one transfer on the RX port. -/
theorem rxTransferPutsIntoIn : Obligations.RxTransferPutsIntoIn := by
  intro v s h
  obtain ⟨accepts, drops⟩ := rxTransfer_accepts_or_drops v h
  exact ⟨fun hr hroom => ⟨_, rfl, accepts hr hroom⟩, fun hdrop => congrArg _ (drops hdrop)⟩

/-- A TX transfer without a byte to deliver (R151). -/
theorem txTransfer_no_byte (h : s.ringInv .outbound) (hnone : (s.ring .outbound).ready = false ∨ s.count .outbound = 0) :
    txTransfer s = s.emit (.tx none) := by
  rcases txTransfer_cases s with ⟨-, e⟩ | ⟨hr, hbytes, -⟩
  · exact e
  · rcases hnone with hr' | hcount
    · simp [hr] at hr'
    · simp [(State.ringEmpty_iff h).mpr hcount] at hbytes

/-- A TX transfer from a ready `OUT` that holds bytes (R151). -/
theorem txTransfer_delivers (h : s.ringInv .outbound) (hr : (s.ring .outbound).ready = true) {v : Byte} {vs : List Byte}
    (hc : s.contents .outbound = v :: vs) : txTransfer s = (s.consume .outbound 1).emit (.tx (some v)) := by
  rw [txTransfer, (getByte_of_contents h hr hc).1]
  rfl

/-- Settles O47: the byte delivered is the first of the contents, and the others are left. -/
theorem txTransferGetsFromOut : Obligations.TxTransferGetsFromOut := by
  intro s h
  refine ⟨fun v vs hr hc => ?_, fun hnone => congrArg _ (txTransfer_no_byte h hnone)⟩
  obtain ⟨-, hleft⟩ := getByte_of_contents h hr hc
  have hexec : exec .txGet s = .next ((s.consume .outbound 1).emit (.tx (some v))) :=
    congrArg _ (txTransfer_delivers h hr hc)
  refine ⟨_, hexec, ⟨by simp, by simp, by simp, by simp, fun _ => ?_, ?_⟩,
    ⟨by simp, by simp, by simp⟩, ?_⟩
  · rw [State.ring_emit, State.ring_consume_ne s 1 (by decide)]
  · exact fun hne => absurd rfl hne
  · rw [State.contents_emit, hleft]

end Sys2Proof.Machine
end

section
/-! PROOF. The protocol cycle (43_handshake_and_link R147, R148, R149, R153): settles O43 and O44. -/

namespace Sys2Proof.Machine

variable {s t : State} {pkt : List Byte}

/-! ## The reaction to a message (R147) -/

/-- A message whose reply fits, or that has no reply. -/
theorem react_whole {msg : List Byte} (h : s.ringInv .outbound) (hr : (s.ring .outbound).ready = true)
    (hfits : (replyFrame s.cfg.tokenNul msg).length ≤ s.free .outbound) :
    react msg s = (sendBytes .outbound (replyFrame s.cfg.tokenNul msg) s).1.respond .ok
      [tokenId (recognize s.cfg.tokenNul msg), replyId (replyTo (recognize s.cfg.tokenNul msg))] := by
  rw [react_eq msg hr]
  unfold replyFrame at hfits ⊢
  cases hu : replyTo (recognize s.cfg.tokenNul msg) with
  | none => rfl
  | some u =>
    rw [hu] at hfits
    exact if_pos (sendBytes_whole h hr hfits)

/-- A message whose reply does not fit. -/
theorem react_cut {msg : List Byte} (h : s.ringInv .outbound) (hr : (s.ring .outbound).ready = true)
    (hcut : s.free .outbound < (replyFrame s.cfg.tokenNul msg).length) :
    react msg s = (sendBytes .outbound (replyFrame s.cfg.tokenNul msg) s).1.respond .sendFailed
      ([tokenId (recognize s.cfg.tokenNul msg), replyId (replyTo (recognize s.cfg.tokenNul msg))] ++
        u16 (s.free .outbound)) := by
  rw [react_eq msg hr]
  unfold replyFrame at hcut ⊢
  cases hu : replyTo (recognize s.cfg.tokenNul msg) with
  | none => simp [hu] at hcut
  | some u =>
    rw [hu] at hcut
    have hsent := sendBytes_cut h hr hcut
    dsimp only
    rw [if_neg (hsent ▸ Nat.ne_of_lt hcut), hsent]
    rfl

/-! ## One row of the table (R148) -/

/-- A row of R148: the code and the payload answered, the bytes left in `IN`, the bytes added to `OUT`. -/
abbrev PollRow := Code × List Byte × List Byte × List Byte

/-- From `s` to `t` what a row says was answered, left and added. -/
structure PollsTo (s : State) (row : PollRow) (t : State) : Prop where
  outputs : t.outputs = s.outputs ++ [.response ⟨row.1, row.2.1⟩]
  left : t.contents .inbound = row.2.2.1
  added : t.contents .outbound = s.contents .outbound ++ row.2.2.2

/-- POLL writes `IN.head`, `OUT.tail` and `OUT.mem` only, whichever row applies (R148). -/
theorem execPoll_of_pollsTo {row : PollRow} (hi : (s.ring .inbound).ready = true) (ho : (s.ring .outbound).ready = true)
    (h : PollsTo s row (pollCycle s)) :
    ∃ t c payload left added, exec .poll s = .next t ∧ t.cfg = s.cfg ∧ t.inputs = s.inputs ∧
      t.outputs = s.outputs ++ [.response ⟨c, payload⟩] ∧ s.headMoved .inbound t ∧ s.headKept .outbound t ∧
      t.contents .inbound = left ∧ t.contents .outbound = s.contents .outbound ++ added ∧
      (c, payload, left, added) = row := by
  have heff : Effects .poll s (pollCycle s) := exec_effects rfl
  have hmoved : s.headMoved .inbound (pollCycle s) :=
    ⟨heff.tail_of_not_produces (by simp) rfl, heff.mem_of_not_produces rfl, (heff.ready hi).trans hi.symm⟩
  have hkept : s.headKept .outbound (pollCycle s) :=
    ⟨heff.head_of_not_consumes (by simp) rfl, (heff.ready ho).trans ho.symm⟩
  exact ⟨_, _, _, _, _, rfl, heff.cfg, heff.inputs, h.outputs, hmoved, hkept, h.left, h.added, rfl⟩

/-- What POLL takes from `IN` does not touch `OUT`. -/
theorem State.consume_inbound_outbound (s : State) (k : Nat) :
    (s.consume .inbound k).ring .outbound = s.ring .outbound ∧ (s.consume .inbound k).free .outbound = s.free .outbound ∧
      (s.consume .inbound k).contents .outbound = s.contents .outbound := by
  have hring : (s.consume .inbound k).ring .outbound = s.ring .outbound := s.ring_consume_ne k (by decide)
  refine ⟨hring, ?_, State.contents_congr hring (by simp) (by simp)⟩
  simp only [State.free, State.count, hring, State.size_consume]

/-- Bytes taken from the front of `IN`, others sent into `OUT`, and one answer. -/
theorem PollsTo.of_sends (hinv : s.Inv) (ho : (s.ring .outbound).ready = true) {k : Nat} (hk : k ≤ s.count .inbound)
    (vs : List Byte) (c : Code) (payload : List Byte) :
    PollsTo s (c, payload, (s.contents .inbound).drop k, vs.take (s.free .outbound))
      ((sendBytes .outbound vs (s.consume .inbound k)).1.respond c payload) := by
  obtain ⟨hring, hfree, hcontents⟩ := s.consume_inbound_outbound k
  obtain ⟨hcfg, hresets, -, houtputs, hother, -⟩ := sendBytes_frame .outbound vs (s.consume .inbound k)
  have hout : (s.consume .inbound k).ringInv .outbound := State.ringInv_congr hring (by simp) (hinv.ring _)
  refine ⟨?_, ?_, ?_⟩
  · rw [State.outputs_respond, houtputs, State.outputs_consume]
  · rw [State.contents_respond, State.contents_congr (hother .inbound (by decide)) hcfg hresets,
      State.contents_consume (hinv.ring _) hk]
  · rw [State.contents_respond, contents_sendBytes vs hout (hring ▸ ho), hfree, hcontents]

/-- What PK_LOCATE consumes taken from `IN`, bytes sent into `OUT`, and one answer. -/
theorem PollsTo.of_located (hinv : s.Inv) (ho : (s.ring .outbound).ready = true) (cap : Nat) (vs : List Byte) (c : Code)
    (payload : List Byte) :
    PollsTo s (c, payload, (fromSoh (s.contents .inbound)).drop (extractBytes cap (fromSoh (s.contents .inbound))).1,
        vs.take (s.free .outbound))
      ((sendBytes .outbound vs (s.consume .inbound (locateCount cap (s.contents .inbound)))).1.respond c payload) := by
  rw [← drop_locateCount]
  exact .of_sends hinv ho (by simpa using locateCount_le cap (s.contents .inbound)) vs c payload

/-! ## The rows, by what the extractor answers on the bytes from the first SOH on (R147) -/

section

variable (hinv : s.Inv) (hi : (s.ring .inbound).ready = true) (ho : (s.ring .outbound).ready = true) {n : Nat}

include hinv hi ho

theorem pollsTo_incomplete (hx : extractBytes s.cfg.pktMax (fromSoh (s.contents .inbound)) = (0, .incomplete)) :
    PollsTo s (.incomplete, [], fromSoh (s.contents .inbound), []) (pollCycle s) := by
  have hrow := PollsTo.of_located hinv ho s.cfg.pktMax [] .incomplete []
  rw [hx, List.take_nil] at hrow
  rw [pollCycle_eq (hinv.ring _) hi ho, hx]
  exact hrow

/-- A malformed candidate loses its SOH, by the one byte that POLL takes itself (R147, R149). -/
theorem pollsTo_malformed (hx : extractBytes s.cfg.pktMax (fromSoh (s.contents .inbound)) = (0, .malformed)) :
    PollsTo s (.malformed, [], (fromSoh (s.contents .inbound)).drop 1, []) (pollCycle s) := by
  have hle : locateCount s.cfg.pktMax (s.contents .inbound) + 1 ≤ s.count .inbound := by
    simpa using locateCount_lt_of_malformed (congrArg Prod.snd hx)
  have hrow := PollsTo.of_sends hinv ho hle [] .malformed []
  rw [List.take_nil, ← List.drop_drop, drop_locateCount, hx] at hrow
  rw [pollCycle_eq (hinv.ring _) hi ho, hx]
  exact hrow

theorem pollsTo_overflow {len : Nat}
    (hx : extractBytes s.cfg.pktMax (fromSoh (s.contents .inbound)) = (n, .overflow len)) :
    PollsTo s (.overflow, u16 len, (fromSoh (s.contents .inbound)).drop n, []) (pollCycle s) := by
  have hrow := PollsTo.of_located hinv ho s.cfg.pktMax [] .overflow (u16 len)
  rw [hx, List.take_nil] at hrow
  rw [pollCycle_eq (hinv.ring _) hi ho, hx]
  exact hrow

variable (hx : extractBytes s.cfg.pktMax (fromSoh (s.contents .inbound)) = (n, .ok pkt))

include hx

theorem pollsTo_verifyFail {r : Reason} (hv : verify pkt = some r) :
    PollsTo s (.verifyFail, [r.byte], (fromSoh (s.contents .inbound)).drop n, []) (pollCycle s) := by
  obtain ⟨-, -, -, hfits⟩ := extractBytes_ok (congrArg Prod.snd hx)
  have hrow := PollsTo.of_located hinv ho s.cfg.pktMax [] .verifyFail [r.byte]
  rw [hx, List.take_nil] at hrow
  rw [pollCycle_eq (hinv.ring _) hi ho, hx]
  dsimp only
  rw [handleFrame_eq (by rwa [State.cfg_consume]), hv]
  exact hrow

/-- A verified frame is taken from `IN`, and POLL reacts to its payload. -/
theorem pollCycle_reacts (hv : verify pkt = none) :
    pollCycle s = react (span pkt 4 (pkt.length - 3)) (s.consume .inbound (locateCount s.cfg.pktMax (s.contents .inbound))) := by
  obtain ⟨-, -, -, hfits⟩ := extractBytes_ok (congrArg Prod.snd hx)
  rw [pollCycle_eq (hinv.ring _) hi ho, hx]
  dsimp only
  rw [handleFrame_eq (by rwa [State.cfg_consume]), hv]

variable {msg : List Byte} (hv : verify pkt = none) (hmsg : span pkt 4 (pkt.length - 3) = msg)

include hv hmsg

theorem pollsTo_ok (hfits : (replyFrame s.cfg.tokenNul msg).length ≤ s.free .outbound) :
    PollsTo s (.ok, [tokenId (recognize s.cfg.tokenNul msg), replyId (replyTo (recognize s.cfg.tokenNul msg))],
      (fromSoh (s.contents .inbound)).drop n, replyFrame s.cfg.tokenNul msg) (pollCycle s) := by
  obtain ⟨hring, hfree, -⟩ := s.consume_inbound_outbound (locateCount s.cfg.pktMax (s.contents .inbound))
  have hreact := react_whole (msg := msg) (State.ringInv_congr hring (by simp) (hinv.ring _)) (hring ▸ ho)
    (by rwa [hfree, State.cfg_consume])
  rw [State.cfg_consume] at hreact
  have hrow := PollsTo.of_located hinv ho s.cfg.pktMax (replyFrame s.cfg.tokenNul msg) .ok
    [tokenId (recognize s.cfg.tokenNul msg), replyId (replyTo (recognize s.cfg.tokenNul msg))]
  rw [hx, List.take_of_length_le hfits] at hrow
  rw [pollCycle_reacts hinv hi ho hx hv, hmsg, hreact]
  exact hrow

theorem pollsTo_sendFailed (hcut : s.free .outbound < (replyFrame s.cfg.tokenNul msg).length) :
    PollsTo s (.sendFailed, [tokenId (recognize s.cfg.tokenNul msg), replyId (replyTo (recognize s.cfg.tokenNul msg))] ++
        u16 (s.free .outbound), (fromSoh (s.contents .inbound)).drop n,
      (replyFrame s.cfg.tokenNul msg).take (s.free .outbound)) (pollCycle s) := by
  obtain ⟨hring, hfree, -⟩ := s.consume_inbound_outbound (locateCount s.cfg.pktMax (s.contents .inbound))
  have hreact := react_cut (msg := msg) (State.ringInv_congr hring (by simp) (hinv.ring _)) (hring ▸ ho)
    (by rwa [hfree, State.cfg_consume])
  rw [State.cfg_consume, hfree] at hreact
  have hrow := PollsTo.of_located hinv ho s.cfg.pktMax (replyFrame s.cfg.tokenNul msg) .sendFailed
    ([tokenId (recognize s.cfg.tokenNul msg), replyId (replyTo (recognize s.cfg.tokenNul msg))] ++ u16 (s.free .outbound))
  rw [hx] at hrow
  rw [pollCycle_reacts hinv hi ho hx hv, hmsg, hreact]
  exact hrow

end

/-! ## The table (R148) -/

/-- A whole candidate above the capacity (R118). -/
theorem extractBytes_overflow_of {n : Nat} {p : List Byte} (h7 : 7 ≤ p.length) (hlen : lengthField p ≤ p.length)
    (h3 : 3 ≤ lengthField p) (hetx : p.getD (lengthField p - 3) 0 = etxByte) (hover : n < lengthField p) :
    extractBytes n p = (lengthField p, .overflow (lengthField p)) := by
  rw [extractBytes, if_neg (by omega), if_neg (by omega), if_neg (by omega), if_neg (not_not.mpr hetx), if_pos hover]

/-- The payload of the candidate that the first `n` bytes are. -/
theorem span_take_payload (p : List Byte) (n : Nat) : span (p.take n) 4 (n - 3) = (p.drop 4).take (n - 7) := by
  rw [span, List.drop_take, List.take_take, show min (n - 3 - 4) (n - 4) = n - 7 by omega]

/-- Settles O43: the extractor's answer, the verifier's and the room in `OUT` select the row. -/
theorem pollTable : Obligations.PollTable := by
  intro s hinv
  refine ⟨CommandRow.poll.decode_eq [], fun h => congrArg _ (pollCycle_badarg h), fun hi ho => ?_⟩
  intro p len tok reply pkt
  have hlen : len = lengthField p := (be16_toNat _ _).symm
  have hpkt : pkt = replyFrame s.cfg.tokenNul ((p.drop 4).take (len - 7)) := by
    simp only [pkt, replyFrame, reply, tok]
    cases replyTo _ <;> rfl
  refine execPoll_of_pollsTo hi ho ?_
  rw [hlen]
  by_cases hshort : p.length < 7 ∨ p.length < lengthField p
  · rw [if_pos hshort]
    exact pollsTo_incomplete hinv hi ho (extractBytes_incomplete _ hshort)
  rw [if_neg hshort]
  obtain ⟨h7, hall⟩ := not_or.mp hshort
  rw [Nat.not_lt] at h7 hall
  by_cases hbad : lengthField p < 3 ∨ p.getD (lengthField p - 3) 0 ≠ 0x03
  · rw [if_pos hbad]
    exact pollsTo_malformed hinv hi ho (extractBytes_malformed_of _ h7 hall hbad)
  rw [if_neg hbad]
  obtain ⟨h3, hetx⟩ := not_or.mp hbad
  rw [Nat.not_lt] at h3
  rw [not_not] at hetx
  by_cases hover : s.cfg.pktMax < lengthField p
  · rw [if_pos hover]
    exact pollsTo_overflow hinv hi ho (extractBytes_overflow_of h7 hall h3 hetx hover)
  rw [if_neg hover]
  have hx := extractBytes_ok_of h7 hall h3 hetx (Nat.not_lt.mp hover)
  have hmsg : span (p.take (lengthField p)) 4 ((p.take (lengthField p)).length - 3) = (p.drop 4).take (len - 7) := by
    rw [List.length_take_of_le hall, span_take_payload, hlen]
  cases hv : verify (p.take (lengthField p)) with
  | some r => exact pollsTo_verifyFail hinv hi ho hx hv
  | none =>
    dsimp only
    rw [hpkt]
    split_ifs with hfits
    · exact pollsTo_ok hinv hi ho hx hv hmsg hfits
    · exact pollsTo_sendFailed hinv hi ho hx hv hmsg (Nat.not_le.mp hfits)

/-! ## A frame at the head of `IN` (R153) -/

/-- With a verified frame at the head of `IN` and room for its reply, POLL leaves what stands behind the frame. -/
theorem pollsTo_ok_of_frame (hinv : s.Inv) (hi : (s.ring .inbound).ready = true) (ho : (s.ring .outbound).ready = true)
    {rest msg : List Byte} (hv : verify pkt = none) (hmsg : span pkt 4 (pkt.length - 3) = msg)
    (hmax : pkt.length ≤ s.cfg.pktMax) (hcontents : s.contents .inbound = pkt ++ rest)
    (hfits : (replyFrame s.cfg.tokenNul msg).length ≤ s.free .outbound) :
    PollsTo s (.ok, [tokenId (recognize s.cfg.tokenNul msg), replyId (replyTo (recognize s.cfg.tokenNul msg))],
      rest, replyFrame s.cfg.tokenNul msg) (pollCycle s) := by
  have h7 := length_of_verify hv
  have hsoh : (pkt ++ rest).getD 0 0 = sohByte := (List.getD_append _ _ _ _ (by omega)).trans (soh_of_verify hv)
  have hfrom : fromSoh (s.contents .inbound) = pkt ++ rest := by rw [hcontents, fromSoh_of_soh hsoh]
  have hx : extractBytes s.cfg.pktMax (fromSoh (s.contents .inbound)) = (pkt.length, .ok pkt) := by
    rw [hfrom, extractBytes_frame hv hmax]
  have hrow := pollsTo_ok hinv hi ho hx hv hmsg hfits
  rwa [hfrom, List.drop_left] at hrow

/-- Settles O44: each frame is verified, and the reply to its payload is the frame given with it. The kernel evaluates the
checksums of these frames. -/
theorem handshakeScenarios : Obligations.HandshakeScenarios := by
  intro s rest hinv hi ho hnul hroom x hx hcontents
  have hmax := s.cfg.pktMax_ge
  have hscenario : verify x.1 = none ∧ x.1.length ≤ 12 ∧ replyFrame false (span x.1 4 (x.1.length - 3)) = x.2 ∧
      x.2.length ≤ 12 := by
    simp only [List.mem_cons, List.not_mem_nil, or_false] at hx
    rcases hx with rfl | rfl | rfl | rfl <;> decide +kernel
  obtain ⟨hv, hlen, hreply, hreplylen⟩ := hscenario
  rw [← hnul] at hreply
  have hrow := pollsTo_ok_of_frame hinv hi ho hv rfl (by omega) hcontents (by rw [hreply]; omega)
  rw [hreply] at hrow
  exact ⟨_, rfl, hrow.left, hrow.added⟩

end Sys2Proof.Machine
end

section
/-! PROOF. Every operation completes, in every state, sound or not (60_exceptions R170, R182; 00_scope R5): settles O51. What an
operation keeps is read off its chain of effects; what is added here is that it answers. -/

namespace Sys2Proof.Machine

variable {s u : State} {b : RingSel}

/-! ## The shared operations give no answer of their own -/

theorem outputs_trimLoop (k : Nat) (s : State) : (trimLoop b k s).outputs = s.outputs := by
  induction k generalizing s with
  | zero => rfl
  | succ k ih =>
    rw [trimLoop]
    split
    · rw [ih, State.outputs_consume]
    · rfl

theorem outputs_extract (cap : Nat) (s : State) : (extract b cap s).1.outputs = s.outputs := by
  have hconsume := State.outputs_consume s b (declaredLength b s)
  unfold extract
  repeat' split
  · rfl
  · rfl
  · rfl
  · rfl
  · exact hconsume
  · exact hconsume

/-- Unlike `outputs_locate`, this asks nothing of the ring. -/
theorem outputs_locate_of_any_ring (cap : Nat) (s : State) : (locate b cap s).1.outputs = s.outputs := by
  unfold locate
  split
  · rfl
  · exact (outputs_extract cap _).trans (outputs_trimLoop _ s)

theorem outputs_send (r : Byte) (s : State) : (send r s).1.outputs = s.outputs := by
  by_cases href : (s.ring .outbound).ready = false ∨ replyOfId r = none
  · rw [send_refused href]
  · obtain ⟨hr, hreply⟩ := not_or.mp href
    obtain ⟨t, ht⟩ := Option.ne_none_iff_exists'.mp hreply
    obtain ⟨-, -, -, houtputs, -⟩ := sendBytes_frame .outbound (frameOf (tokenBytes s.cfg.tokenNul t)) s
    rw [send_eq (Bool.eq_true_of_not_eq_false hr) ht, sendReply_eq (replyOfId_ne_unknown ht)]
    exact houtputs

/-! ## Every operation ends by answering -/

/-- `t` has the answers of `s` and at least one more. -/
def AnswersMore (s t : State) : Prop := ∃ o, o ≠ [] ∧ t.outputs = s.outputs ++ o

namespace AnswersMore

/-- An answer after work that gave none. -/
theorem emit (h : u.outputs = s.outputs) (o : Output) : AnswersMore s (u.emit o) :=
  ⟨[o], List.cons_ne_nil _ _, by rw [State.outputs_emit, h]⟩

theorem respond (h : u.outputs = s.outputs) (c : Code) (p : List Byte) : AnswersMore s (u.respond c p) := emit h _

/-- RX transfers answer once per byte, so there must be a byte (43 R150). -/
theorem rxTransfers_cons (v : Byte) (vs : List Byte) (s : State) : AnswersMore s (rxTransfers (v :: vs) s) := by
  obtain ⟨a, ha⟩ := outputs_rxTransfer v s
  obtain ⟨l, hl⟩ := outputs_rxTransfers vs (rxTransfer v s)
  refine ⟨.rx a :: l.map .rx, List.cons_ne_nil _ _, ?_⟩
  rw [Machine.rxTransfers_cons, hl, ha, List.append_assoc, List.singleton_append]

theorem react (h : u.outputs = s.outputs) (msg : List Byte) : AnswersMore s (Machine.react msg u) := by
  simp only [Machine.react]
  cases replyTo (recognize u.cfg.tokenNul msg) with
  | none => exact respond h _ _
  | some r =>
    have hsend := (outputs_send (replyId (some r)) u).trans h
    rcases e : send (replyId (some r)) u with ⟨t, x⟩
    rw [e] at hsend
    simp only [e]
    cases x <;> exact respond hsend _ _

theorem handleFrame (h : u.outputs = s.outputs) (pkt : List Byte) : AnswersMore s (Machine.handleFrame pkt u) := by
  simp only [Machine.handleFrame]
  cases verify pkt with
  | some r => exact respond h _ _
  | none =>
    cases extractMessage u.cfg.msgMax pkt with
    | error c => exact respond h _ _
    | ok msg => exact react h msg

theorem pollCycle (s : State) : AnswersMore s (Machine.pollCycle s) := by
  unfold Machine.pollCycle
  split
  · exact respond rfl _ _
  · have hloc := outputs_locate_of_any_ring (b := .inbound) s.cfg.pktMax s
    rcases e : locate .inbound s.cfg.pktMax s with ⟨t, x⟩
    rw [e] at hloc
    cases x with
    | malformed =>
      obtain ⟨-, -, -, hget, -⟩ := getByte_frame .inbound t
      exact respond (hget.trans hloc) _ _
    | ok pkt => exact handleFrame hloc pkt
    | badarg | incomplete | overflow => exact respond hloc _ _

end AnswersMore

theorem OnlyAnswers.answersMore {out : Host.Outcome State Fault Refusal} (h : OnlyAnswers s out) :
    Ends (AnswersMore s) out := by
  obtain ⟨o, rfl⟩ := h
  exact .emit rfl o

theorem answersMore_rbPut (b : RingSel) (v : Byte) : Ends (AnswersMore s) (execRbPut b v s) := by
  obtain ⟨-, -, -, hput, -⟩ := putByte_frame b v s
  exact .respond hput _ _

theorem answersMore_rbGet (b : RingSel) : Ends (AnswersMore s) (execRbGet b s) := by
  obtain ⟨-, -, -, hget, -⟩ := getByte_frame b s
  unfold execRbGet
  rcases e : getByte b s with ⟨t, x⟩
  rw [e] at hget
  cases x <;> exact .respond hget _ _

theorem answersMore_rbClear (b : RingSel) : Ends (AnswersMore s) (execRbClear b s) := by
  unfold execRbClear
  split
  · exact .respond rfl _ _
  · exact .respond (State.outputs_setHead s b _) _ _

theorem answersMore_pkLocate (b : RingSel) (cap : Half) : Ends (AnswersMore s) (execPkLocate b cap s) := by
  obtain ⟨p, e⟩ := execPkLocate_eq b cap s
  rw [e]
  exact .respond (outputs_locate_of_any_ring _ s) _ p

theorem answersMore_hsSend (r : Byte) : Ends (AnswersMore s) (execHsSend r s) := by
  have hsend := outputs_send r s
  unfold execHsSend
  rcases e : send r s with ⟨t, x⟩
  rw [e] at hsend
  cases x <;> exact .respond hsend _ _

theorem answersMore_inject (data : List Byte) : Ends (AnswersMore s) (execInject data s) := by
  obtain ⟨-, -, -, hsend, -⟩ := sendBytes_frame .outbound data s
  unfold execInject
  repeat' split
  · exact .respond rfl _ _
  · exact .respond rfl _ _
  · exact .respond hsend _ _
  · exact .respond hsend _ _

theorem answersMore_txTransfer : AnswersMore s (txTransfer s) := by
  obtain ⟨-, -, -, hget, -⟩ := getByte_frame .outbound s
  exact .emit hget _

/-- Every operation goes on with at least one more answer: no soundness of `s` is needed. -/
theorem answersMore_exec (i : Instr) (s : State) : Ends (AnswersMore s) (exec i s) := by
  cases i with
  | rbInit b => exact .respond (State.outputs_setRing s b _) _ _
  | rbPut b v => exact answersMore_rbPut b v
  | rbGet b => exact answersMore_rbGet b
  | rbClear b => exact answersMore_rbClear b
  | pkLocate b cap => exact answersMore_pkLocate b cap
  | hsSend r => exact answersMore_hsSend r
  | poll => exact .pollCycle s
  | inject data => exact answersMore_inject data
  | rxPut | soh | stx | etx => exact .rxTransfers_cons _ [] s
  | frame len msg crc => exact .rxTransfers_cons sohByte _ s
  | txGet => exact answersMore_txTransfer
  | _ => exact (onlyAnswers_exec (by simp [produces]) (by simp [initialises]) (by simp) (by simp)).answersMore

theorem Ends.exists_next {P : State → Prop} {out : Host.Outcome State Fault Refusal} (h : Ends P out) :
    ∃ t, out = .next t ∧ P t := by
  cases out with
  | next t => exact ⟨t, rfl, h⟩
  | fault r | refused r => exact h.elim

/-- Whatever is presented, a step goes on with the parameters as they were. -/
theorem step_keeps_cfg (s : State) : Ends (fun t => t.cfg = s.cfg) (step s) := by
  unfold step
  cases fetched s.inputs with
  | idle | reset | malformed => exact rfl
  | run i =>
    obtain ⟨t, hexec, -⟩ := (answersMore_exec i s.takeInput).exists_next
    simp only [hexec]
    exact (exec_effects hexec).cfg

/-- Settles O51: every operation ends by answering, and its effects leave parameters, inputs and reset count alone. -/
theorem everyOperationCompletes : Obligations.EveryOperationCompletes := by
  refine ⟨fun i s => ?_, fun s => (step_keeps_cfg s).exists_next⟩
  obtain ⟨t, hexec, hanswers⟩ := (answersMore_exec i s).exists_next
  have heff := exec_effects hexec
  exact ⟨t, hexec, heff.cfg, heff.inputs, heff.resets, hanswers⟩

end Sys2Proof.Machine
end

section
/-! PROOF. Reset, and the states in which nothing remains to be done (70_reset_and_hazards R195, R211): settles O7 and O60. -/

namespace Sys2Proof.Machine

variable {s : State} {b : RingSel} {p : List Byte}

/-! ## Reset (R195, 10_state R23) -/

/-- Settles O7: both rings of the state after the step are `Ring.reset`. -/
theorem resetEventClearsBothRings : Obligations.ResetEventClearsBothRings := by
  intro s rest h
  refine ⟨_, step_reset h, rfl, by simp [h], rfl, fun b => ?_⟩
  simp only [State.emptyOutput, State.fullOutput, resetEvent_ring]
  exact ⟨rfl, rfl, rfl, fun _ => rfl, rfl, rfl⟩

/-! ## Bytes that PK_LOCATE leaves as they are (42 R113 to R116) -/

/-- What a ring at rest holds: no noise before the first SOH, and not yet a whole candidate. -/
structure Waiting (p : List Byte) : Prop where
  untrimmed : fromSoh p = p
  short : p.length < 7 ∨ p.length < lengthField p

/-- The trim keeps exactly the sequences that are empty or start with SOH (R113). -/
theorem fromSoh_eq_self_iff : fromSoh p = p ↔ p.length = 0 ∨ p.getD 0 0 = sohByte := by
  cases p with
  | nil => simp
  | cons v p => simp [List.dropWhile_eq_self_iff]

theorem extractBytes_eq_incomplete_iff (n : Nat) :
    (extractBytes n p).2 = .incomplete ↔ p.length < 7 ∨ p.length < lengthField p := by
  refine ⟨fun h => ?_, fun h => congrArg Prod.snd (extractBytes_incomplete n h)⟩
  by_contra hlong
  obtain ⟨h7, hall⟩ := not_or.mp hlong
  rw [extractBytes, if_neg h7, if_neg hall] at h
  split_ifs at h

/-- PK_LOCATE answers INCOMPLETE having trimmed nothing exactly on a ready ring that holds such bytes. -/
theorem locate_eq_incomplete_iff {cap : Nat} (h : s.ringInv b) (hcap : cap ≠ 0) :
    locate b cap s = (s, .incomplete) ↔ (s.ring b).ready = true ∧ Waiting (s.contents b) := by
  cases hr : (s.ring b).ready with
  | false => simp [locate_badarg (.inl hr)]
  | true =>
    constructor
    · intro hloc
      have htrim := contents_locate_of_waiting h (cap := cap) (.inl (by rw [hloc]; rfl))
      rw [hloc] at htrim
      have hanswer := congrArg Prod.snd ((locate_eq cap h hr hcap).symm.trans hloc)
      rw [← htrim] at hanswer
      exact ⟨rfl, htrim.symm, (extractBytes_eq_incomplete_iff cap).mp hanswer⟩
    · rintro ⟨-, huntrimmed, hshort⟩
      have hnone : locateCount cap (s.contents b) = 0 := by
        have hnoise := congrArg List.length (fromSoh_eq_drop (s.contents b))
        rw [huntrimmed, List.length_drop] at hnoise
        have := length_noise_le (s.contents b)
        rw [locateCount, huntrimmed, extractBytes_incomplete cap hshort]
        omega
      rw [locate_eq cap h hr hcap, hnone, huntrimmed, extractBytes_incomplete cap hshort, State.consume_zero h]

/-! ## Quiescence (R211) -/

theorem State.quiescent_iff (hinv : s.Inv) : s.quiescent ↔
    (s.ring .outbound).ready = true ∧ s.count .outbound = 0 ∧ (s.ring .inbound).ready = true ∧
      Waiting (s.contents .inbound) := by
  have hmax := s.cfg.pktMax_ge
  rw [State.quiescent, locate_eq_incomplete_iff (hinv.ring _) (by omega)]

/-- In a quiescent state POLL only answers: it reports what PK_LOCATE does (43 R147). -/
theorem State.quiescent.pollCycle (hinv : s.Inv) (h : s.quiescent) : Machine.pollCycle s = s.respond .incomplete [] := by
  obtain ⟨ho, -, hi, -⟩ := (State.quiescent_iff hinv).mp h
  obtain ⟨-, -, hloc⟩ := h
  rw [Machine.pollCycle, if_neg (by simp [hi, ho]), hloc]

/-- A POLL that changes nothing and answers INCOMPLETE has found both rings ready (43 R147). -/
theorem ready_of_poll_incomplete (hpoll : exec .poll s = .next (s.respond .incomplete [])) :
    (s.ring .inbound).ready = true ∧ (s.ring .outbound).ready = true := by
  by_contra hnot
  have hbad : (s.ring .inbound).ready = false ∨ (s.ring .outbound).ready = false := by
    simpa only [not_and_or, Bool.not_eq_true] using hnot
  have hanswer : s.respond .badarg [] = s.respond .incomplete [] :=
    Host.Outcome.next.inj ((congrArg _ (pollCycle_badarg hbad)).symm.trans hpoll)
  simp [State.respond_inj] at hanswer

/-- Of the rows of POLL's table only the first answers INCOMPLETE, and it leaves the bytes from the first SOH on (43 R148). -/
theorem waiting_of_poll_incomplete (hinv : s.Inv) (hpoll : exec .poll s = .next (s.respond .incomplete [])) :
    Waiting (s.contents .inbound) := by
  obtain ⟨hi, ho⟩ := ready_of_poll_incomplete hpoll
  obtain ⟨-, -, table⟩ := pollTable s hinv
  obtain ⟨t, c, payload, left, added, hexec, -, -, houtputs, -, -, hleft, -, hrow⟩ := table hi ho
  obtain rfl := Host.Outcome.next.inj (hpoll.symm.trans hexec)
  obtain ⟨rfl, -⟩ : Code.incomplete = c ∧ [] = payload := by simpa using houtputs
  rw [State.contents_respond] at hleft
  split_ifs at hrow with hshort
  · have huntrimmed : fromSoh (s.contents .inbound) = s.contents .inbound :=
      (congrArg (fun row => row.2.2.1) hrow).symm.trans hleft.symm
    rw [← be16_toNat] at hshort
    exact ⟨huntrimmed, huntrimmed ▸ hshort⟩
  · cases hrow
  · cases hrow
  · split at hrow <;> cases hrow
  · split at hrow <;> cases hrow

/-- The bytes of a waiting ring, read at its head: none, or the beginning of one frame. -/
theorem Waiting.empty_or_frame_begun (h : Waiting (s.contents b)) :
    s.count b = 0 ∨ s.byteAt b 0 = sohByte ∧ (s.count b < 7 ∨ s.count b < declaredLength b s) := by
  obtain ⟨huntrimmed, hshort⟩ := h
  rw [fromSoh_eq_self_iff] at huntrimmed
  rw [State.length_contents] at huntrimmed hshort
  by_cases hcount : s.count b = 0
  · exact .inl hcount
  · have hsoh := huntrimmed.resolve_left hcount
    rw [State.getD_contents s b 0 (by omega)] at hsoh
    refine .inr ⟨hsoh, ?_⟩
    by_cases h7 : s.count b < 7
    · exact .inl h7
    · rw [declaredLength_eq (by omega)]
      exact .inr (hshort.resolve_left h7)

/-- Settles O60: PK_LOCATE and POLL both answer INCOMPLETE and leave `IN` as it is exactly while its bytes are `Waiting`. -/
theorem quiescentPollAnswersIncomplete : Obligations.QuiescentPollAnswersIncomplete := by
  intro s hinv
  refine ⟨⟨fun h => ?_, fun ⟨hempty, hpoll⟩ => ?_⟩, fun h => ?_⟩
  · obtain ⟨-, hempty, -⟩ := (State.quiescent_iff hinv).mp h
    exact ⟨hempty, congrArg _ (h.pollCycle hinv)⟩
  · obtain ⟨hi, ho⟩ := ready_of_poll_incomplete hpoll
    exact (State.quiescent_iff hinv).mpr ⟨ho, hempty, hi, waiting_of_poll_incomplete hinv hpoll⟩
  · obtain ⟨-, hempty, -, hwaiting⟩ := (State.quiescent_iff hinv).mp h
    exact ⟨congrArg _ (txTransfer_no_byte (hinv.ring _) (.inr hempty)), hwaiting.empty_or_frame_begun⟩

end Sys2Proof.Machine
end
